-- ==== Sys2Proof/Word.lean ====
section
/-! DEFINITION. The word types of the bit-cursor core (spec 00_scope.md R7, R10; 30_encoding.md R81). -/

namespace Sys2Proof

/-- `u64`: every value, host, bits operand and accumulator is 64 bits wide (R7, `DATA_W`). -/
abbrev Word := BitVec 64

/-- `u8`: one byte of a stream (R7, byte width). -/
abbrev Byte := BitVec 8

/-- The 32-bit command word `CMD32` (R81, the only format). -/
abbrev CommandWord := BitVec 32

end Sys2Proof
end

