-- ==== Sys2Proof/Config.lean ====
section
/-! DEFINITION. What an implementation of the block fixes (spec 00_scope.md R7, R8), and the one parameter of R8 that
is left free: the response function of a consumer. No value that the block itself computes is free:
93_implementation_defined.md leaves open only the stale bits of `P.acc` and the registers of idle units, for which the
rules give exact values. -/

namespace Sys2Proof.Machine

/-- What happens while one consumer invocation is outstanding (R181 and items 9 to 11 of
93_implementation_defined.md; log entry 16), with the width given as an `α`. -/
inductive Reply (α : Type) where
  /-- the consumer answers with this width response -/
  | width (w : α)
  /-- the consumer never answers (R181: the block is stuck) -/
  | silent
  /-- a command is issued to the block before the answer (R89: refused) -/
  | commandIssued
  /-- reset is applied before the answer (R260: refused) -/
  | resetApplied
deriving DecidableEq, Repr, Inhabited

end Sys2Proof.Machine

namespace Sys2Proof.Config

/-- The largest width of a field or bit count (R7: widths and counts are 0..64). -/
abbrev maxWidth : Nat := 64

/-- The first offset W.WRITEOFF rejects (R7: offsets are 0..63). -/
abbrev offsetLimit : Nat := 64

/-- `MAX_INSERT`: the most bytes one P.INSERT carries (R8, decision D21). -/
abbrev maxInsert : Nat := 8

/-- The capacity of the push accumulator in bits (R7, `P.level` range). -/
abbrev accWidth : Nat := 64

/-- `SOURCE_GROWS` where the environment names nothing else (R8, decision D13). -/
abbrev sourceGrowsDefault : Bool := false

/-- `Consumer` of R8: the response functions, left free. Consumer number `id`, after the values `received`, answers the
value `v` so. A state type with an initial state and a response function (R8, R181) is a function of the values
delivered so far, and this one has no body, so that whatever is proved of a consumer number holds of every such
consumer (log entry 3). -/
opaque consumerReply (id : Nat) (received : List Word) (v : Word) : Machine.Reply Byte

@[simp] theorem maxWidth_eq : maxWidth = 64 := rfl
@[simp] theorem offsetLimit_eq : offsetLimit = 64 := rfl
@[simp] theorem maxInsert_eq : maxInsert = 8 := rfl
@[simp] theorem accWidth_eq : accWidth = 64 := rfl

end Sys2Proof.Config
end

