-- ==== Sys2Proof/Syntax.lean ====
section
/-! DEFINITION. The commands of the block, as abstract syntax (spec 30_encoding.md R80 to R84), and the command
transaction as it stands on the command port. -/

namespace Sys2Proof

/-- One command as the host puts it on the command port: the transaction `(word, A, B)` of R80. The response is
no part of it (it is an output of the block, R86). -/
structure Command where
  /-- the 32-bit command word (R81) -/
  word : CommandWord
  /-- data operand `A` (R80, used whole as a u64, R82) -/
  a : Word
  /-- data operand `B` -/
  b : Word
deriving DecidableEq, Repr

/-- The sixteen commands of R84, one constructor per row of the opcode table, each carrying exactly the operands
its row names (R83: an operand a command does not name is ignored). `n` is COUNT and `off` is OFFSET, as the
naturals R82 assembles from the 8-bit fields; `value`, `host`, `bits` and `packed` are data operands. -/
inductive Instr where
  /-- BB.COUNTUSED (0x01, R101): `A` = value -/
  | bbCountUsed (value : Word)
  /-- BB.PUSH (0x02, R103): `A` = host, `B` = bits, COUNT = n -/
  | bbPush (host bits : Word) (n : Nat)
  /-- BB.POP (0x03, R105): `A` = host, COUNT = n -/
  | bbPop (host : Word) (n : Nat)
  /-- R.OPEN (0x10, R120) -/
  | rOpen
  /-- R.READ (0x11, R121): COUNT = n -/
  | rRead (n : Nat)
  /-- R.TRYREAD (0x12, R123): COUNT = n -/
  | rTryRead (n : Nat)
  /-- R.PEEK (0x13, R125) -/
  | rPeek
  /-- R.TRYPEEK (0x14, R126) -/
  | rTryPeek
  /-- R.CLOSE (0x1F, R127) -/
  | rClose
  /-- W.OPEN (0x20, R151) -/
  | wOpen
  /-- W.WRITE (0x21, R152): `A` = value, COUNT = n -/
  | wWrite (value : Word) (n : Nat)
  /-- W.WRITEOFF (0x22, R155): `A` = value, COUNT = n, OFFSET = off -/
  | wWriteOff (value : Word) (n off : Nat)
  /-- W.CLOSE (0x2F, R158) -/
  | wClose
  /-- P.INIT (0x30, R182) -/
  | pInit
  /-- P.INSERT (0x31, R184): `A` = packed bytes (R88), COUNT = n, the number of bytes -/
  | pInsert (packed : Word) (n : Nat)
  /-- P.FLUSHBYTE (0x32, R185) -/
  | pFlushByte
deriving DecidableEq, Repr

end Sys2Proof
end

