-- ==== Sys2Proof/WellFormed.lean ====
section
/-! DEFINITION. Which commands the command word can carry (spec 30_encoding.md R81, R82): COUNT and OFFSET are
8-bit unsigned fields. A value that fits its field but lies outside the source's range (`n > 64`, `off ≥ 64`,
`n > 8` bytes) is well formed: it is encodable and its own rule rejects it (R82). -/

namespace Sys2Proof

/-- A value an 8-bit field of the command word can hold (R82: 0..255). -/
def fitsField (v : Nat) : Bool := v < 256

/-- Every COUNT and OFFSET the command carries fits its field. -/
def Instr.wellFormed : Instr → Bool
  | .bbCountUsed _ => true
  | .bbPush _ _ n => fitsField n
  | .bbPop _ n => fitsField n
  | .rOpen => true
  | .rRead n => fitsField n
  | .rTryRead n => fitsField n
  | .rPeek => true
  | .rTryPeek => true
  | .rClose => true
  | .wOpen => true
  | .wWrite _ n => fitsField n
  | .wWriteOff _ n off => fitsField n && fitsField off
  | .wClose => true
  | .pInit => true
  | .pInsert _ n => fitsField n
  | .pFlushByte => true

/-- The command can be encoded in one command word. -/
abbrev Instr.WellFormed (i : Instr) : Prop := i.wellFormed = true

@[simp] theorem fitsField_iff (v : Nat) : fitsField v = true ↔ v < 256 := by simp [fitsField]

end Sys2Proof
end

