-- ==== Sys2Proof/Decode.lean ====
section
/-! DEFINITION. Decoding a command word, total on all words and rejecting by name, and the encoder
(spec 30_encoding.md R81 to R85, R87, R88). -/

namespace Sys2Proof

/-! ### Fields of the command word (R81, R82) -/

/-- `OP = word[7:0]`, the opcode `UNIT:FN` (R81). -/
def opField (w : CommandWord) : Byte := w.extractLsb' 0 8

/-- `n = zext(word[15:8])`, the COUNT field (R82). -/
def countField (w : CommandWord) : Nat := (w.extractLsb' 8 8).toNat

/-- `off = zext(word[23:16])`, the OFFSET field (R82). -/
def offsetField (w : CommandWord) : Nat := (w.extractLsb' 16 8).toNat

/-- `RSV = word[31:24]`, reserved, must be 0 (R81). -/
def reservedField (w : CommandWord) : Nat := (w.extractLsb' 24 8).toNat

/-- `UNIT = word[7:4]` (R81). -/
def unitField (w : CommandWord) : Nat := (w.extractLsb' 4 4).toNat

/-- `FN = word[3:0]` (R81). -/
def fnField (w : CommandWord) : Nat := (w.extractLsb' 0 4).toNat

/-! ### The opcode map (R84) -/

/-- The operands a command transaction carries, before a row says which of them its command uses. -/
structure Operands where
  /-- COUNT -/
  n : Nat
  /-- OFFSET -/
  off : Nat
  /-- data operand `A` -/
  a : Word
  /-- data operand `B` -/
  b : Word
deriving DecidableEq, Repr

/-- One row of the opcode map: a word matches it when `word & mask == pattern` (R84), and it then builds its
command from the operands it names. -/
structure OpcodeRow where
  /-- the mnemonic as the table spells it -/
  mnemonic : String
  /-- the column `match` -/
  pattern : CommandWord
  /-- the column `mask` -/
  mask : CommandWord
  /-- the command, from the operands the row names -/
  build : Operands → Instr

/-- R84: `word & mask == match`. -/
def OpcodeRow.hits (row : OpcodeRow) (w : CommandWord) : Bool := (w &&& row.mask) == row.pattern

/-- The rows of the BitBuffer unit (`UNIT` 0). -/
def bbRows : List OpcodeRow := [
  ⟨"BB.COUNTUSED", 0x00000001#32, 0xFFFFFFFF#32, fun o => .bbCountUsed o.a⟩,
  ⟨"BB.PUSH", 0x00000002#32, 0xFFFF00FF#32, fun o => .bbPush o.a o.b o.n⟩,
  ⟨"BB.POP", 0x00000003#32, 0xFFFF00FF#32, fun o => .bbPop o.a o.n⟩]

/-- The rows of the Bit Reader (`UNIT` 1). -/
def readerRows : List OpcodeRow := [
  ⟨"R.OPEN", 0x00000010#32, 0xFFFFFFFF#32, fun _ => .rOpen⟩,
  ⟨"R.READ", 0x00000011#32, 0xFFFF00FF#32, fun o => .rRead o.n⟩,
  ⟨"R.TRYREAD", 0x00000012#32, 0xFFFF00FF#32, fun o => .rTryRead o.n⟩,
  ⟨"R.PEEK", 0x00000013#32, 0xFFFFFFFF#32, fun _ => .rPeek⟩,
  ⟨"R.TRYPEEK", 0x00000014#32, 0xFFFFFFFF#32, fun _ => .rTryPeek⟩,
  ⟨"R.CLOSE", 0x0000001F#32, 0xFFFFFFFF#32, fun _ => .rClose⟩]

/-- The rows of the Bit Writer (`UNIT` 2). -/
def writerRows : List OpcodeRow := [
  ⟨"W.OPEN", 0x00000020#32, 0xFFFFFFFF#32, fun _ => .wOpen⟩,
  ⟨"W.WRITE", 0x00000021#32, 0xFFFF00FF#32, fun o => .wWrite o.a o.n⟩,
  ⟨"W.WRITEOFF", 0x00000022#32, 0xFF0000FF#32, fun o => .wWriteOff o.a o.n o.off⟩,
  ⟨"W.CLOSE", 0x0000002F#32, 0xFFFFFFFF#32, fun _ => .wClose⟩]

/-- The rows of the Push Bit Reader (`UNIT` 3). -/
def pushRows : List OpcodeRow := [
  ⟨"P.INIT", 0x00000030#32, 0xFFFFFFFF#32, fun _ => .pInit⟩,
  ⟨"P.INSERT", 0x00000031#32, 0xFFFF00FF#32, fun o => .pInsert o.a o.n⟩,
  ⟨"P.FLUSHBYTE", 0x00000032#32, 0xFFFFFFFF#32, fun _ => .pFlushByte⟩]

/-- The opcode map, every row of R84 in the table's order. -/
def opcodeTable : List OpcodeRow := bbRows ++ readerRows ++ writerRows ++ pushRows

/-! ### Decoding (R85, R87) -/

/-- Why a word matches no row, in the words of R87. Every one of them is IllegalCommand (R85). -/
inductive Illegal where
  /-- `RSV ≠ 0` -/
  | reservedBits
  /-- `UNIT` in 4..15 -/
  | reservedUnit
  /-- an `FN` not listed for its unit (`OP = 0x00` among them) -/
  | unassignedFunction
  /-- `COUNT ≠ 0` for a command that does not use COUNT -/
  | countNotUsed
  /-- `OFFSET ≠ 0` for any command but W.WRITEOFF -/
  | offsetNotUsed
deriving DecidableEq, Repr

/-- The functions each unit lists (R87: BB 1..3; R 0..4 and 15; W 0..2 and 15; P 0..2). -/
def functionAssigned (unit fn : Nat) : Bool :=
  match unit with
  | 0 => 1 ≤ fn && fn ≤ 3
  | 1 => fn ≤ 4 || fn == 15
  | 2 => fn ≤ 2 || fn == 15
  | 3 => fn ≤ 2
  | _ => false

/-- The first of R87's causes that applies to a word that matches no row. The order among them is the model's
(log entry 8): the response is IllegalCommand whichever it is. -/
def illegalReason (w : CommandWord) : Illegal :=
  if reservedField w ≠ 0 then .reservedBits
  else if 4 ≤ unitField w then .reservedUnit
  else if functionAssigned (unitField w) (fnField w) = false then .unassignedFunction
  else if offsetField w ≠ 0 ∧ opField w ≠ 0x22#8 then .offsetNotUsed
  else .countNotUsed

/-- The operands of a transaction (R81, R82). -/
def operandsOf (c : Command) : Operands :=
  { n := countField c.word, off := offsetField c.word, a := c.a, b := c.b }

/-- R85: the command of the row the word matches; with no such row, the reason of R87. -/
def decode (c : Command) : Except Illegal Instr :=
  match opcodeTable.find? (fun row => row.hits c.word) with
  | some row => .ok (row.build (operandsOf c))
  | none => .error (illegalReason c.word)

/-! ### Encoding (R81, R84, R88) -/

/-- A command word from its fields, `RSV` zero (R81). -/
def commandWord (op : Byte) (n off : Nat) : CommandWord :=
  op.setWidth 32 ||| (BitVec.ofNat 8 n).setWidth 32 <<< 8 ||| (BitVec.ofNat 8 off).setWidth 32 <<< 16

/-- The opcode `OP = UNIT:FN` of each command (R84). -/
def Instr.opcode : Instr → Byte
  | .bbCountUsed _ => 0x01#8
  | .bbPush _ _ _ => 0x02#8
  | .bbPop _ _ => 0x03#8
  | .rOpen => 0x10#8
  | .rRead _ => 0x11#8
  | .rTryRead _ => 0x12#8
  | .rPeek => 0x13#8
  | .rTryPeek => 0x14#8
  | .rClose => 0x1F#8
  | .wOpen => 0x20#8
  | .wWrite _ _ => 0x21#8
  | .wWriteOff _ _ _ => 0x22#8
  | .wClose => 0x2F#8
  | .pInit => 0x30#8
  | .pInsert _ _ => 0x31#8
  | .pFlushByte => 0x32#8

/-- The COUNT a command carries, 0 where it does not use COUNT (R81: "else must be 0"). -/
def Instr.count : Instr → Nat
  | .bbPush _ _ n => n
  | .bbPop _ n => n
  | .rRead n => n
  | .rTryRead n => n
  | .wWrite _ n => n
  | .wWriteOff _ n _ => n
  | .pInsert _ n => n
  | .bbCountUsed _ => 0
  | .rOpen => 0
  | .rPeek => 0
  | .rTryPeek => 0
  | .rClose => 0
  | .wOpen => 0
  | .wClose => 0
  | .pInit => 0
  | .pFlushByte => 0

/-- The OFFSET a command carries, 0 for every command but W.WRITEOFF (R81). -/
def Instr.offset : Instr → Nat
  | .wWriteOff _ _ off => off
  | .bbCountUsed _ => 0
  | .bbPush _ _ _ => 0
  | .bbPop _ _ => 0
  | .rOpen => 0
  | .rRead _ => 0
  | .rTryRead _ => 0
  | .rPeek => 0
  | .rTryPeek => 0
  | .rClose => 0
  | .wOpen => 0
  | .wWrite _ _ => 0
  | .wClose => 0
  | .pInit => 0
  | .pInsert _ _ => 0
  | .pFlushByte => 0

/-- The data operand `A` of a command, where it names one. -/
def Instr.operandA : Instr → Option Word
  | .bbCountUsed value => some value
  | .bbPush host _ _ => some host
  | .bbPop host _ => some host
  | .wWrite value _ => some value
  | .wWriteOff value _ _ => some value
  | .pInsert packed _ => some packed
  | .rOpen => none
  | .rRead _ => none
  | .rTryRead _ => none
  | .rPeek => none
  | .rTryPeek => none
  | .rClose => none
  | .wOpen => none
  | .wClose => none
  | .pInit => none
  | .pFlushByte => none

/-- The data operand `B` of a command: only BB.PUSH names one (R84). -/
def Instr.operandB : Instr → Option Word
  | .bbPush _ bits _ => some bits
  | .bbCountUsed _ => none
  | .bbPop _ _ => none
  | .rOpen => none
  | .rRead _ => none
  | .rTryRead _ => none
  | .rPeek => none
  | .rTryPeek => none
  | .rClose => none
  | .wOpen => none
  | .wWrite _ _ => none
  | .wWriteOff _ _ _ => none
  | .wClose => none
  | .pInit => none
  | .pInsert _ _ => none
  | .pFlushByte => none

/-- The transaction that issues a command; an operand the command does not name is sent as 0 (R83: it is
ignored whatever its value). -/
def encode (i : Instr) : Command :=
  { word := commandWord i.opcode i.count i.offset
    a := i.operandA.getD 0#64
    b := i.operandB.getD 0#64 }

/-! ### Words as the opcode table numbers them -/

/-- The transaction whose bits are `w`, numbered from bit 0 of the command word: the word is bits 31..0, `A` is
bits 95..32 and `B` is bits 159..96, and every bit from `nbits` on is 0. The command port takes the word and
the operands whole, so no byte order enters (log entry 9). -/
def commandOfBits (nbits w : Nat) : Command :=
  let v := w % 2 ^ nbits
  { word := BitVec.ofNat 32 v
    a := BitVec.ofNat 64 (v / 2 ^ 32)
    b := BitVec.ofNat 64 (v / 2 ^ 96) }

/-- The command the decoder reads from the transaction whose bits are `w`; `none` where the word is
IllegalCommand. -/
def decodeTableWord (nbits w : Nat) : Option Instr :=
  match decode (commandOfBits nbits w) with
  | .ok i => some i
  | .error _ => none

end Sys2Proof
end

