-- ==== Sys2Proof/Machine/State.lean ====
section
/-! DEFINITION. The state of the block and of its environment, as plain data, and the state right after reset
(spec 10_state.md; 20_memory.md R60 to R64; 43_push_reader.md R181). The block has no register file, no program
counter and no addressable memory (R30, R60). -/

namespace Sys2Proof.Machine

/-! ### Control values -/

/-- The status codes of the response field `st` (60_exceptions.md R230). Code 7 is unused and never returned. -/
inductive Status where
  /-- 0: the command completed -/
  | ok
  /-- 1: an argument out of range, nothing attached, a re-open, or an out-of-range width answer (R231) -/
  | invalidArgument
  /-- 2: the source ran out before the bits were supplied (R232) -/
  | endOfStream
  /-- 3: the push accumulator would exceed 64 bits (R233) -/
  | overflow
  /-- 4: bad binary text; host-side only, never in a response of the block (R234) -/
  | formatError
  /-- 5: a command on an instance that is not open (R235) -/
  | useAfterClose
  /-- 6: a command word that matches no opcode row (R236) -/
  | illegalCommand
deriving DecidableEq, Repr

/-- `R.life` and `W.life` (R47). -/
inductive Life where
  /-- 0, IDLE: no instance since reset -/
  | idle
  /-- 1, OPEN: an instance owns its stream -/
  | opened
  /-- 2, CLOSED: the instance has released its stream -/
  | closed
deriving DecidableEq, Repr

/-- `P.life` (R47, 43_push_reader.md R180). -/
inductive PushLife where
  /-- 0, IDLE: no session -/
  | idle
  /-- 1, LIVE: the source's `AwaitingField(P.want)` -/
  | live
  /-- 2, FAILED: the session was ended by an error -/
  | failed
deriving DecidableEq, Repr

/-! ### The environment's agents, as data -/

/-- A byte source: the bytes not yet taken, first to be taken first, the parameter `SOURCE_GROWS` (20_memory.md R61;
its default is `Config.sourceGrowsDefault`, R8), and the bytes taken from it so far (R265). -/
structure ByteSource where
  /-- `src` -/
  bytes : List Byte
  /-- `SOURCE_GROWS` -/
  grows : Bool := Config.sourceGrowsDefault
  /-- the bytes taken from it, oldest first -/
  taken : List Byte := []
deriving DecidableEq, Repr

/-- An expression over a consumer's state and the value delivered to it, on naturals. -/
inductive ConsumerTerm where
  /-- a constant -/
  | const (n : Nat)
  /-- the consumer's state -/
  | state
  /-- the value delivered -/
  | value
  /-- the sum -/
  | add (x y : ConsumerTerm)
  /-- the difference, 0 where it would be negative -/
  | sub (x y : ConsumerTerm)
  /-- the product -/
  | mul (x y : ConsumerTerm)
  /-- the quotient -/
  | div (x y : ConsumerTerm)
  /-- the remainder -/
  | mod (x y : ConsumerTerm)
  /-- 1 where equal, else 0 -/
  | eq (x y : ConsumerTerm)
deriving DecidableEq, Repr

/-- One rule of a consumer: when it applies, what then happens, and the consumer's next state. -/
structure ConsumerRule where
  /-- it applies where this is not 0 -/
  guard : ConsumerTerm
  /-- what happens -/
  reply : Reply ConsumerTerm
  /-- the next state -/
  next : ConsumerTerm
deriving DecidableEq, Repr

/-- How a consumer answers (log entry 3). -/
inductive Behaviour where
  /-- by the first rule that applies; with none it never answers -/
  | rules (rules : List ConsumerRule)
  /-- by the response function of this number, of which nothing is known -/
  | external (id : Nat)
deriving DecidableEq, Repr

/-- The field consumer (00_scope.md R8, 43_push_reader.md R181): its state, its response function, and the values
delivered to it so far, oldest first (R265). -/
structure Consumer where
  /-- its state `σ`, where rules say how it answers -/
  state : Nat
  /-- its response function -/
  behaviour : Behaviour
  /-- the values delivered to it; for an external consumer they are its state -/
  received : List Word
deriving DecidableEq, Repr

/-- An environment input that attaches an agent (R8): nothing attached; attached and in the host's hands;
attached and at present bound by a unit of the block, which then holds it (R36: exclusively owned). -/
inductive Port (α : Type) where
  /-- `…_ATTACHED` false -/
  | detached
  /-- `…_ATTACHED` true, the agent in the host's hands -/
  | attached (a : α)
  /-- `…_ATTACHED` true, the agent bound by its unit -/
  | lent
deriving DecidableEq, Repr

/-! ### The units (R32) -/

/-- The Bit Reader (R33 to R36). -/
structure Reader where
  /-- `R.life` -/
  life : Life
  /-- `R.cur`, the byte being consumed (R33) -/
  cur : Byte
  /-- `R.pos`, bits of `R.cur` already consumed, 0..8 (R34) -/
  pos : Nat
  /-- `R.src`, the byte source it owns; `none` is unbound (R36) -/
  src : Option ByteSource
  /-- ghost `R.fetched` (R50) -/
  fetched : Nat
deriving DecidableEq, Repr

/-- The Bit Writer (R37 to R40). -/
structure Writer where
  /-- `W.life` -/
  life : Life
  /-- `W.cur`, the byte being assembled (R37) -/
  cur : Byte
  /-- `W.pos`, bits already placed into `W.cur`, 0..8 (R38) -/
  pos : Nat
  /-- `W.sink`, the bytes emitted by this instance; `none` is unbound (R40, R64) -/
  sink : Option (List Byte)
  /-- ghost `W.emitted` (R50) -/
  emitted : Nat
deriving DecidableEq, Repr

/-- The Push Bit Reader (R41 to R46). -/
structure Push where
  /-- `P.life` -/
  life : PushLife
  /-- `P.fail`, the status that failed the session (R46) -/
  fail : Status
  /-- `P.acc`, the accumulator (R41, R42) -/
  acc : Word
  /-- `P.level`, the number of valid bits in `P.acc`, 0..64 (R43) -/
  level : Nat
  /-- `P.want`, the width of the next field, 1..64 (R44) -/
  want : Nat
  /-- `P.cons`, the bound field consumer; `none` is unbound (R32) -/
  cons : Option Consumer
  /-- ghost `P.inserted` (R50) -/
  inserted : Nat
deriving DecidableEq, Repr

/-! ### The environment inputs and the host's side of the command port -/

/-- The environment inputs read by R.OPEN, W.OPEN and P.INIT (R8). -/
structure Env where
  /-- `SRC_ATTACHED` and the attached source -/
  src : Port ByteSource
  /-- `SINK_ATTACHED` -/
  sink : Bool
  /-- `CONS_ATTACHED` and the attached consumer -/
  cons : Port Consumer
deriving DecidableEq, Repr

/-- One response (30_encoding.md R86). -/
structure Response where
  /-- status code -/
  st : Status
  /-- the command delivered its result (R48) -/
  ok : Bool
  /-- first result -/
  r0 : Word
  /-- second result -/
  r1 : Word
deriving DecidableEq, Repr

/-- The two byte channels (20_memory.md R60). -/
inductive Channel where
  /-- the byte source -/
  | source
  /-- the byte sink -/
  | sink
deriving DecidableEq, Repr

/-- What the host and the environment do between commands, other than issuing one. -/
inductive HostAct where
  /-- hardware reset (70_reset_and_hazards.md R260) -/
  | reset
  /-- attach this byte source (R8, R79, R263) -/
  | attachSource (src : ByteSource)
  /-- detach the byte source -/
  | detachSource
  /-- append bytes to the source (20_memory.md R61) -/
  | growSource (bytes : List Byte)
  /-- attach a byte sink -/
  | attachSink
  /-- detach the byte sink -/
  | detachSink
  /-- attach this field consumer -/
  | attachConsumer (cons : Consumer)
  /-- detach the field consumer -/
  | detachConsumer
  /-- another agent reads or writes a stream (R74) -/
  | foreignAccess (ch : Channel)
deriving DecidableEq, Repr

/-- What arrives at the block, one at a time and between commands (R73, R89). -/
inductive HostEvent where
  /-- the host issues a command (R80) -/
  | command (c : Command)
  /-- the host or the environment does something else -/
  | act (a : HostAct)
deriving DecidableEq, Repr

/-- The host's side: what it will do next, and what the run has produced so far (R265). All of it is the
model's own, not the block's architectural state (log entries 1 and 2). -/
structure HostSide where
  /-- events to come, first first -/
  inbox : List HostEvent
  /-- responses returned, oldest first -/
  responses : List Response
  /-- sinks of the Writer instances that ended, oldest first -/
  sinks : List (List Byte)
  /-- sources no longer bound nor attached, with the bytes taken from each, oldest first -/
  sources : List ByteSource
  /-- consumers no longer bound nor attached, with the values each received, oldest first -/
  consumers : List Consumer
deriving DecidableEq, Repr

/-- The whole state. The BitBuffer unit has none (R31). -/
structure State where
  /-- the Bit Reader -/
  r : Reader
  /-- the Bit Writer -/
  w : Writer
  /-- the Push Bit Reader -/
  p : Push
  /-- the environment inputs -/
  env : Env
  /-- the host's side of the command port -/
  host : HostSide
deriving DecidableEq, Repr

/-! ### Why a step can stop -/

/-- The machine's faults. -/
inductive Fault where
  /-- Raised by P.INIT and P.INSERT when the consumer does not answer an invocation: the block stays inside the
  command for ever (R181, 93_implementation_defined.md item 9, "stuck"). Safe: the hardware makes no further step
  either. -/
  | consumerSilent
deriving DecidableEq, Repr

/-- The machine's refusals. -/
inductive Refusal where
  /-- Raised by an arm of `exec` that has no meaning yet. Safe. -/
  | notModelled (mnemonic : String)
  /-- Raised by P.INIT and P.INSERT when a command is issued while a consumer invocation is outstanding (R89, 93
  item 10: "refuse"). Safe: the run is outside the spec. -/
  | reentrantCommand
  /-- Raised by P.INIT and P.INSERT when reset is applied during an invocation (R260, 93 item 11: "refuse").
  Safe: the run is outside the spec. -/
  | resetDuringCommand
  /-- Raised by a host act when another agent touches a stream that an OPEN unit owns (R74, R270, 93 item 8:
  "refuse"). Safe: the run is outside the spec. -/
  | ownedStreamTouched
deriving DecidableEq, Repr

/-! ### Reset (R51) -/

/-- The Reader after reset (R51). -/
def Reader.reset : Reader := { life := .idle, cur := 0#8, pos := 8, src := none, fetched := 0 }

/-- The Writer after reset (R51). -/
def Writer.reset : Writer := { life := .idle, cur := 0#8, pos := 0, sink := none, emitted := 0 }

/-- The push reader after reset (R51). -/
def Push.reset : Push :=
  { life := .idle, fail := .ok, acc := 0#64, level := 0, want := 1, cons := none, inserted := 0 }

/-- The machine right after reset: every element as R51 says, nothing attached (log entry 4), no event to come
and nothing produced yet (log entries 1 and 2). -/
def State.reset : State where
  r := Reader.reset
  w := Writer.reset
  p := Push.reset
  env := { src := .detached, sink := false, cons := .detached }
  host := { inbox := [], responses := [], sinks := [], sources := [], consumers := [] }

end Sys2Proof.Machine
end

