-- ==== Sys2Proof/Machine/Operands.lean ====
section
/-! DEFINITION. Operand forms: masks and bit fields at every width (spec 00_scope.md R9 to R12), the P.INSERT
packing (30_encoding.md R88), and the ranges of the argument checks (R7, R231). -/

namespace Sys2Proof.Machine

/-- `mask(n)` for `0 ≤ n ≤ 64` is `2^n - 1`, computed exactly (R11). -/
def mask (n : Nat) : Word := BitVec.ofNat 64 (2 ^ n - 1)

/-- `mask(n)` on a byte, for `0 ≤ n ≤ 8` (R11, R12). -/
def byteMask (n : Nat) : Byte := BitVec.ofNat 8 (2 ^ n - 1)

/-- `zext_64` of a byte (R10). -/
def zext64 (b : Byte) : Word := b.setWidth 64

/-- The `chunk` bits of a byte at stream positions `pos .. pos + chunk - 1` within it, right-aligned (R121,
R122): `(b >> (8 - pos - chunk)) & mask(chunk)`. -/
def takeChunk (b : Byte) (pos chunk : Nat) : Byte := (b >>> (8 - pos - chunk)) &&& byteMask chunk

/-- The top `chunk` of the low `rem` bits of a value (R153): `(v >> (rem - chunk)) & mask(chunk)`. -/
def topBits (v : Word) (rem chunk : Nat) : Word := (v >>> (rem - chunk)) &&& mask chunk

/-- The bits `bits` placed at stream positions `pos .. pos + chunk - 1` of a byte (R153):
`cur | (bits << (8 - pos - chunk))`. -/
def placeChunk (cur : Byte) (bits : Word) (pos chunk : Nat) : Byte :=
  cur ||| (bits.setWidth 8 <<< (8 - pos - chunk))

/-- The field the top `want` valid bits of the accumulator hold (R183):
`(acc >> (level - want)) & mask(want)`. -/
def topField (acc : Word) (level want : Nat) : Word := (acc >>> (level - want)) &&& mask want

/-- Byte `i` of the `n` bytes a P.INSERT carries: `A[8*(n-1-i)+7 : 8*(n-1-i)]` (R88). -/
def unpackByte (packed : Word) (n i : Nat) : Byte := packed.extractLsb' (8 * (n - 1 - i)) 8

/-- The bytes of a P.INSERT in insertion order (R88). -/
def unpackBytes (packed : Word) (n : Nat) : List Byte := (List.range n).map (unpackByte packed n)

/-- The packing the assembler makes (R88, R91): the first byte is the most significant. -/
def packBytes (bytes : List Byte) : Word := bytes.foldl (fun acc b => (acc <<< 8) ||| zext64 b) 0#64

/-- A width answer the block accepts: `1 ≤ w ≤ 64` (R181). -/
def validWidth (w : Byte) : Bool := 1 ≤ w.toNat && w.toNat ≤ Config.maxWidth

end Sys2Proof.Machine
end

