-- ==== Sys2Proof/Machine/Flags.lean ====
section
/-! DEFINITION. Status codes and the one flag a program sees, the response bit `ok` (spec 10_state.md R47, R48;
30_encoding.md R86; 60_exceptions.md R230). The block has no condition codes. -/

namespace Sys2Proof.Machine

/-- The 3-bit code of a status (R230). -/
def Status.code : Status → BitVec 3
  | .ok => 0#3
  | .invalidArgument => 1#3
  | .endOfStream => 2#3
  | .overflow => 3#3
  | .formatError => 4#3
  | .useAfterClose => 5#3
  | .illegalCommand => 6#3

/-- The 2-bit code of `R.life` and `W.life` (R47). -/
def Life.code : Life → BitVec 2
  | .idle => 0#2
  | .opened => 1#2
  | .closed => 2#2

/-- The 2-bit code of `P.life` (R47). -/
def PushLife.code : PushLife → BitVec 2
  | .idle => 0#2
  | .live => 1#2
  | .failed => 2#2

/-- `respond(OK, 1, r0, r1)`: the command delivered its result (R86). -/
def Response.delivered (r0 r1 : Word) : Response := { st := .ok, ok := true, r0 := r0, r1 := r1 }

/-- `respond(OK, 0, 0, 0)`: a Try form met the end of the source (R48, R123, R126). -/
def Response.exhausted : Response := { st := .ok, ok := false, r0 := 0#64, r1 := 0#64 }

/-- `respond(E, 0, 0, 0)`: the command reports an error (R14, R86). -/
def Response.error (e : Status) : Response := { st := e, ok := false, r0 := 0#64, r1 := 0#64 }

end Sys2Proof.Machine
end

