-- ==== Sys2Proof/Machine/Ops.lean ====
section
/-! DEFINITION. The operations the commands share: responding and raising an error (spec 00_scope.md R14;
60_exceptions.md R241), the two byte channels (20_memory.md R62, R64), the binding of source, sink and consumer
(R36, R40, R181), and the loops of the Reader (41_reader.md R121, R125), the Writer (42_writer.md R153) and the push
reader (43_push_reader.md R183, R190). -/

namespace Sys2Proof.Machine

/-- What a command answers. -/
abbrev Result := Host.Outcome State Fault Refusal

/-! ### Updating one part of the state -/

/-- The state with another Reader. -/
def State.withReader (s : State) (r : Reader) : State := { s with r := r }

/-- The state with another Writer. -/
def State.withWriter (s : State) (w : Writer) : State := { s with w := w }

/-- The state with another push reader. -/
def State.withPush (s : State) (p : Push) : State := { s with p := p }

/-- The state with another source input. -/
def State.withSrcPort (s : State) (port : Port ByteSource) : State := { s with env := { s.env with src := port } }

/-- The state with another sink input. -/
def State.withSinkPort (s : State) (attached : Bool) : State := { s with env := { s.env with sink := attached } }

/-- The state with another consumer input. -/
def State.withConsPort (s : State) (port : Port Consumer) : State := { s with env := { s.env with cons := port } }

/-- The state with other events to come. -/
def State.withInbox (s : State) (inbox : List HostEvent) : State := { s with host := { s.host with inbox := inbox } }

/-- The sink of an ended Writer instance goes to the host (R79, R265). -/
def State.giveSink (s : State) (sink : List Byte) : State :=
  { s with host := { s.host with sinks := s.host.sinks ++ [sink] } }

/-- A source that is no longer the attached one goes back to the host. -/
def State.giveSource (s : State) (src : ByteSource) : State :=
  { s with host := { s.host with sources := s.host.sources ++ [src] } }

/-- A consumer that is no longer the attached one goes back to the host. -/
def State.giveConsumer (s : State) (cons : Consumer) : State :=
  { s with host := { s.host with consumers := s.host.consumers ++ [cons] } }

/-! ### Responding (R14, R86) and raising an error (R241) -/

/-- The block returns a response to the host (R86). -/
def State.respond (s : State) (resp : Response) : State :=
  { s with host := { s.host with responses := s.host.responses ++ [resp] } }

/-- `respond(OK, 1, r0, r1)` ends the command. -/
def finish (r0 r1 : Word) (s : State) : Result := .next (s.respond (.delivered r0 r1))

/-- `respond(OK, 0, 0, 0)` ends a Try form. -/
def finishExhausted (s : State) : Result := .next (s.respond .exhausted)

/-- `raise E`: the block's only error mechanism. The command ends at once with `respond(E, 0, 0, 0)`, every state
element keeps the value it has at that point (R14); nothing is saved, no mode changes and control goes nowhere, so
the block is ready for the next command and there is nothing to return from (R241, R242). -/
def raise (e : Status) (s : State) : Result := .next (s.respond (.error e))

/-- A word that matches no row of the opcode map: IllegalCommand, and nothing changes (R85, R236). -/
def illegalCommand (s : State) : Result := raise .illegalCommand s

/-! ### Bindings (R36, R40, R181) -/

/-- The agent a port offers for binding: none when detached; when its unit holds it, the one the unit holds. -/
def Port.offered {α : Type} (port : Port α) (bound : Option α) : Option α :=
  match port with
  | .detached => none
  | .attached a => some a
  | .lent => bound

/-- The Reader releases its source: it stays the attached one where it is, else it goes back to the host. Bytes
not fetched stay in it (R127, R261). -/
def releaseSource (s : State) : State :=
  match s.r.src with
  | none => s
  | some src =>
    match s.env.src with
    | .lent => (s.withReader { s.r with src := none }).withSrcPort (.attached src)
    | .attached _ => (s.withReader { s.r with src := none }).giveSource src
    | .detached => (s.withReader { s.r with src := none }).giveSource src

/-- The Writer releases its sink to the host (R158, R261). -/
def releaseSink (s : State) : State :=
  match s.w.sink with
  | none => s
  | some sink => (s.withWriter { s.w with sink := none }).giveSink sink

/-- The push reader releases its consumer. -/
def releaseConsumer (s : State) : State :=
  match s.p.cons with
  | none => s
  | some cons =>
    match s.env.cons with
    | .lent => (s.withPush { s.p with cons := none }).withConsPort (.attached cons)
    | .attached _ => (s.withPush { s.p with cons := none }).giveConsumer cons
    | .detached => (s.withPush { s.p with cons := none }).giveConsumer cons

/-- A source that is attached and held by no unit goes back to the host when the host attaches another or detaches it
(the spec is silent on it; log entry 20). -/
def displaceSource (s : State) : State :=
  match s.env.src with
  | .attached src => s.giveSource src
  | .detached => s
  | .lent => s

/-- The same of a consumer (log entry 20). -/
def displaceConsumer (s : State) : State :=
  match s.env.cons with
  | .attached cons => s.giveConsumer cons
  | .detached => s
  | .lent => s

/-- `P.cons <- the attached consumer` (R182). A consumer bound before and no longer attached goes back to the
host; the attached consumer keeps the state it has (R181: it changes only by invocations; log entry 7). -/
def bindConsumer (cons : Consumer) (s : State) : State :=
  match s.env.cons with
  | .lent => s.withPush { s.p with cons := some cons }
  | .attached _ => ((releaseConsumer s).withPush { s.p with cons := some cons }).withConsPort .lent
  | .detached => s

/-! ### The byte channels (R62, R64) -/

/-- `SrcFetch()`: the next byte, which leaves the source and joins the bytes taken (R62, R265), or `none` for EOS
(R63). -/
def srcFetch (r : Reader) : Option (Byte × Reader) :=
  match r.src with
  | none => none
  | some src =>
    match src.bytes with
    | [] => none
    | b :: rest => some (b, { r with
        src := some { src with bytes := rest, taken := src.taken ++ [b] }, fetched := r.fetched + 1 })

/-- `SinkEmit(b)`: the sink takes the byte (R64). -/
def sinkEmit (b : Byte) (w : Writer) : Writer :=
  { w with sink := w.sink.map (fun sink => sink ++ [b]), emitted := w.emitted + 1 }

/-! ### The Reader's loops (R121, R125) -/

/-- The lazy byte load shared by reads and peeks (R125 `PeekLoad`): with `R.pos = 8` the next byte is fetched;
`none` at the end of the source, and then nothing has changed. -/
def loadByte (r : Reader) : Option Reader :=
  if r.pos = 8 then
    match srcFetch r with
    | none => none
    | some (b, r') => some { r' with cur := b, pos := 0 }
  else some r

/-- What a read leaves: the field, or `none` for EOS, and the Reader. -/
structure ReadOut where
  /-- the field; `none` is EOS -/
  field : Option Word
  /-- the Reader afterwards -/
  reader : Reader
deriving DecidableEq, Repr

/-- The loop of `ReadCore` (R121), `rem` bits to go. Each turn takes at least one bit while `R.pos ≤ 8`, so that
`fuel = rem` never runs out (R276; log entry 10). -/
def readLoop : Nat → Nat → Word → Reader → ReadOut
  | 0, _, acc, r => { field := some acc, reader := r }
  | fuel + 1, rem, acc, r =>
    if rem = 0 then { field := some acc, reader := r }
    else
      match loadByte r with
      | none => { field := none, reader := r }
      | some r1 =>
        let chunk := min rem (8 - r1.pos)
        let bits := takeChunk r1.cur r1.pos chunk
        readLoop fuel (rem - chunk) ((acc <<< chunk) ||| zext64 bits) { r1 with pos := r1.pos + chunk }

/-- `ReadCore(n)` (R121). -/
def readCore (n : Nat) (r : Reader) : ReadOut := readLoop n n 0#64 r

/-- The next bit of a loaded Reader: `(R.cur >> (7 - R.pos)) & 1` (R125). -/
def nextBit (r : Reader) : Word := zext64 ((r.cur >>> (7 - r.pos)) &&& 1#8)

/-! ### The Writer's loop (R153) -/

/-- A full byte is emitted at once and both registers return to zero (R153, R38). -/
def flushFull (w : Writer) : Writer :=
  if w.pos = 8 then { sinkEmit w.cur w with cur := 0#8, pos := 0 } else w

/-- The loop of `WriteBits` (R153), the low `rem` bits of `v` to go. Each turn places at least one bit while
`W.pos ≤ 7`, so that `fuel = rem` never runs out (R276; log entry 10). -/
def writeLoop : Nat → Nat → Word → Writer → Writer
  | 0, _, _, w => w
  | fuel + 1, rem, v, w =>
    if rem = 0 then w
    else
      let chunk := min rem (8 - w.pos)
      let bits := topBits v rem chunk
      let w1 := { w with cur := placeChunk w.cur bits w.pos chunk, pos := w.pos + chunk }
      writeLoop fuel (rem - chunk) (v &&& mask (rem - chunk)) (flushFull w1)

/-- `WriteBits(v, n)` (R153). -/
def writeBits (v : Word) (n : Nat) (w : Writer) : Writer := writeLoop n n v w

/-! ### The consumer and the push loop (R181, R183, R190) -/

/-- The outcome of one consumer invocation: the answer with the consumer's next state, or what kept the answer
from coming (R181). -/
inductive Answer (σ : Type) where
  /-- the consumer answered `w` and is now in state `q` -/
  | width (q : σ) (w : Byte)
  /-- it never answers -/
  | silent
  /-- a command was issued meanwhile -/
  | commandIssued
  /-- reset was applied meanwhile -/
  | resetApplied
deriving DecidableEq, Repr

/-- The value of an expression in a state, for a delivered value. -/
def ConsumerTerm.eval (q : Nat) (v : Word) : ConsumerTerm → Nat
  | .const n => n
  | .state => q
  | .value => v.toNat
  | .add x y => x.eval q v + y.eval q v
  | .sub x y => x.eval q v - y.eval q v
  | .mul x y => x.eval q v * y.eval q v
  | .div x y => x.eval q v / y.eval q v
  | .mod x y => x.eval q v % y.eval q v
  | .eq x y => if x.eval q v = y.eval q v then 1 else 0

/-- Whether a rule applies in a state to a delivered value. -/
def ConsumerRule.applies (rule : ConsumerRule) (q : Nat) (v : Word) : Bool := rule.guard.eval q v != 0

/-- What a rule's reply is in a state for a delivered value: a width is an 8-bit response (R8, `RESP_WIDTH_W`). -/
def ConsumerRule.replyTo (rule : ConsumerRule) (q : Nat) (v : Word) : Reply Byte :=
  match rule.reply with
  | .width w => .width (BitVec.ofNat 8 (w.eval q v))
  | .silent => .silent
  | .commandIssued => .commandIssued
  | .resetApplied => .resetApplied

/-- What happens when a consumer is given a value, and its state afterwards (R8, R181; log entry 3). -/
def Consumer.respond (c : Consumer) (v : Word) : Reply Byte × Nat :=
  match c.behaviour with
  | .external id => (Config.consumerReply id c.received v, c.state)
  | .rules rules =>
    match rules.find? (fun rule => rule.applies c.state v) with
    | none => (.silent, c.state)
    | some rule => (rule.replyTo c.state v, rule.next.eval c.state v)

/-- One invocation `Consumer(v)` (R181): the value is delivered, and the consumer answers, or something keeps the
answer from coming. -/
def Consumer.ask (c : Consumer) (v : Word) : Answer Consumer :=
  match c.respond v with
  | (.width w, q) => .width { c with state := q, received := c.received ++ [v] } w
  | (.silent, _) => .silent
  | (.commandIssued, _) => .commandIssued
  | (.resetApplied, _) => .resetApplied

/-- One invocation of the consumer bound to P. An unbound P has none to answer; no reachable state of a session
is so (log entry 10). -/
def askBound (cons : Option Consumer) (v : Word) : Answer (Option Consumer) :=
  match cons with
  | none => .silent
  | some c =>
    match c.ask v with
    | .width c' w => .width (some c') w
    | .silent => .silent
    | .commandIssued => .commandIssued
    | .resetApplied => .resetApplied

/-- The decoder's explicit state object (R190): `accumulator`, `level`, `widthWanted` and the consumer's `σ`, with
the ghost count of R50. -/
structure Decoder (σ : Type) where
  /-- `P.acc` -/
  acc : Word
  /-- `P.level` -/
  level : Nat
  /-- `P.want` -/
  want : Nat
  /-- the consumer's state -/
  cons : σ
  /-- ghost `P.inserted` -/
  inserted : Nat
deriving DecidableEq, Repr

/-- Why an insertion ended before its last byte was decoded. -/
inductive Stop where
  /-- R183: `level + 8` would exceed 64 before shifting -/
  | overflow
  /-- R183: the consumer answered a width outside 1..64 -/
  | badWidth
  /-- R181: the consumer never answers -/
  | silent
  /-- R89: a command was issued during the invocation -/
  | commandIssued
  /-- R260: reset was applied during the invocation -/
  | resetApplied
deriving DecidableEq, Repr

/-- What a transition step leaves (R190): the decoder, the fields delivered in order, the width each of them
was extracted with (R191), and the result (`none` is OK). -/
structure StepOut (σ : Type) where
  /-- the decoder afterwards -/
  dec : Decoder σ
  /-- the fields delivered, first first -/
  fields : List Word
  /-- the `want` in force when each was extracted -/
  widths : List Nat
  /-- why it stopped early -/
  stop : Option Stop
deriving DecidableEq, Repr

/-- The extraction loop of `PushByte` (R183): while `P.level ≥ P.want`, the top field is taken off and delivered,
and the answer becomes the next width. With `want ≥ 1` every turn lowers the level, so that `fuel = level + 1`
never runs out (R189; log entry 10). -/
def drain {σ : Type} (c : σ → Word → Answer σ) : Nat → Decoder σ → StepOut σ
  | 0, d => { dec := d, fields := [], widths := [], stop := none }
  | fuel + 1, d =>
    if d.want ≤ d.level then
      let f := topField d.acc d.level d.want
      let d1 := { d with level := d.level - d.want }
      match c d.cons f with
      | .width q w =>
        if validWidth w then
          let o := drain c fuel { d1 with want := w.toNat, cons := q }
          { o with fields := f :: o.fields, widths := d.want :: o.widths }
        else { dec := { d1 with cons := q }, fields := [f], widths := [d.want], stop := some .badWidth }
      | .silent => { dec := d1, fields := [f], widths := [d.want], stop := some .silent }
      | .commandIssued => { dec := d1, fields := [f], widths := [d.want], stop := some .commandIssued }
      | .resetApplied => { dec := d1, fields := [f], widths := [d.want], stop := some .resetApplied }
    else { dec := d, fields := [], widths := [], stop := none }

/-- A byte is folded into the accumulator (R183). -/
def foldByte {σ : Type} (d : Decoder σ) (b : Byte) : Decoder σ :=
  { d with acc := (d.acc <<< 8) ||| zext64 b, level := d.level + 8, inserted := d.inserted + 1 }

/-- `PStep` (R190): `PushByte(b)` as a pure function of the decoder, for any consumer `c` (R183). -/
def pStep {σ : Type} (c : σ → Word → Answer σ) (d : Decoder σ) (b : Byte) : StepOut σ :=
  if Config.accWidth < d.level + 8 then { dec := d, fields := [], widths := [], stop := some .overflow }
  else drain c (d.level + 9) (foldByte d b)

/-- `PushByte` on each byte in order, up to the first that fails (R184). -/
def pSteps {σ : Type} (c : σ → Word → Answer σ) : Decoder σ → List Byte → StepOut σ
  | d, [] => { dec := d, fields := [], widths := [], stop := none }
  | d, b :: rest =>
    let o := pStep c d b
    match o.stop with
    | some _ => o
    | none =>
      let o' := pSteps c o.dec rest
      { o' with fields := o.fields ++ o'.fields, widths := o.widths ++ o'.widths }

/-- The push reader's registers as the decoder of R190. -/
def Push.decoder (p : Push) : Decoder (Option Consumer) :=
  { acc := p.acc, level := p.level, want := p.want, cons := p.cons, inserted := p.inserted }

/-- The push reader with the decoder's registers. -/
def Push.withDecoder (p : Push) (d : Decoder (Option Consumer)) : Push :=
  { p with acc := d.acc, level := d.level, want := d.want, cons := d.cons, inserted := d.inserted }

/-- The session ends with an error: `P.life <- FAILED; P.fail <- r; raise r` (R184, R186). -/
def failSession (e : Status) (s : State) : Result :=
  raise e (s.withPush { s.p with life := .failed, fail := e })

/-- How an insertion ends (R184): OK; a session-ending error, with the decoder as the failing byte left it; or no
end at all. -/
def endInsert (o : StepOut (Option Consumer)) (s : State) : Result :=
  let s1 := s.withPush (s.p.withDecoder o.dec)
  match o.stop with
  | none => finish 0#64 0#64 s1
  | some .overflow => failSession .overflow s1
  | some .badWidth => failSession .invalidArgument s1
  | some .silent => .fault .consumerSilent
  | some .commandIssued => .refused .reentrantCommand
  | some .resetApplied => .refused .resetDuringCommand

end Sys2Proof.Machine
end

