-- ==== Sys2Proof/Machine/BitBuffer.lean ====
section
/-! DEFINITION. The BitBuffer commands (spec 40_bitbuffer.md R100 to R107). They read only their operands and write
only their response (R100). -/

namespace Sys2Proof.Machine

/-- The repeated right shift of BB.COUNTUSED (R101): `do { c <- c + 1; x <- x >> 1 } while x != 0`. A u64 is 0 after
64 shifts, so that `fuel = 64` never runs out. -/
def countLoop : Nat → Nat → Word → Nat
  | 0, c, _ => c
  | fuel + 1, c, x => if x >>> 1 = 0#64 then c + 1 else countLoop fuel (c + 1) (x >>> 1)

/-- `CountUsed(value)` (R101). -/
def countUsed (value : Word) : Nat := countLoop 64 0 value

/-- `(host << n) | (bits & mask(n))` (R103). -/
def pushBits (host bits : Word) (n : Nat) : Word := (host <<< n) ||| (bits &&& mask n)

/-- `host & mask(n)`, the popped bits (R105). -/
def popBits (host : Word) (n : Nat) : Word := host &&& mask n

/-- `host >> n`, the reduced host (R105). -/
def popRest (host : Word) (n : Nat) : Word := host >>> n

/-- BB.COUNTUSED (R101). -/
def execBbCountUsed (value : Word) (s : State) : Result :=
  finish (BitVec.ofNat 64 (countUsed value)) 0#64 s

/-- BB.PUSH (R103). -/
def execBbPush (host bits : Word) (n : Nat) (s : State) : Result :=
  if Config.maxWidth < n then raise .invalidArgument s
  else finish (pushBits host bits n) 0#64 s

/-- BB.POP (R105). -/
def execBbPop (host : Word) (n : Nat) (s : State) : Result :=
  if Config.maxWidth < n then raise .invalidArgument s
  else finish (popBits host n) (popRest host n) s

end Sys2Proof.Machine
end

