-- ==== Sys2Proof/Machine/BitReader.lean ====
section
/-! DEFINITION. The Bit Reader commands (spec 41_reader.md R120 to R128). -/

namespace Sys2Proof.Machine

/-- R.OPEN (R120): the Reader binds the attached source and touches no byte of it (R52). -/
def execROpen (s : State) : Result :=
  if s.r.life = .opened then raise .invalidArgument s
  else
    match s.env.src.offered s.r.src with
    | none => raise .invalidArgument s
    | some src =>
      finish 0#64 0#64
        ((s.withReader { life := .opened, cur := 0#8, pos := 8, src := some src, fetched := 0 }).withSrcPort .lent)

/-- R.READ (R121, R124): end of stream is an error, and what was taken stays taken. -/
def execRRead (n : Nat) (s : State) : Result :=
  if s.r.life ≠ .opened then raise .useAfterClose s
  else if Config.maxWidth < n then raise .invalidArgument s
  else
    let o := readCore n s.r
    match o.field with
    | none => raise .endOfStream (s.withReader o.reader)
    | some v => finish v 0#64 (s.withReader o.reader)

/-- R.TRYREAD (R123): as R.READ in every state change, with end of stream as `st = OK, ok = 0`. -/
def execRTryRead (n : Nat) (s : State) : Result :=
  if s.r.life ≠ .opened then raise .useAfterClose s
  else if Config.maxWidth < n then raise .invalidArgument s
  else
    let o := readCore n s.r
    match o.field with
    | none => finishExhausted (s.withReader o.reader)
    | some v => finish v 0#64 (s.withReader o.reader)

/-- R.PEEK (R125). -/
def execRPeek (s : State) : Result :=
  if s.r.life ≠ .opened then raise .useAfterClose s
  else
    match loadByte s.r with
    | none => raise .endOfStream s
    | some r => finish (nextBit r) 0#64 (s.withReader r)

/-- R.TRYPEEK (R126). -/
def execRTryPeek (s : State) : Result :=
  if s.r.life ≠ .opened then raise .useAfterClose s
  else
    match loadByte s.r with
    | none => finishExhausted s
    | some r => finish (nextBit r) 0#64 (s.withReader r)

/-- R.CLOSE (R127): releases the source; a no-op with OK on an IDLE or CLOSED Reader. -/
def execRClose (s : State) : Result :=
  if s.r.life = .opened then
    let s1 := releaseSource s
    finish 0#64 0#64 (s1.withReader { s1.r with life := .closed })
  else finish 0#64 0#64 s

end Sys2Proof.Machine
end

