-- ==== Sys2Proof/Machine/BitWriter.lean ====
section
/-! DEFINITION. The Bit Writer commands (spec 42_writer.md R150 to R160). -/

namespace Sys2Proof.Machine

/-- W.OPEN (R151): a new instance with an empty sink of its own. -/
def execWOpen (s : State) : Result :=
  if s.w.life = .opened then raise .invalidArgument s
  else if s.env.sink = false then raise .invalidArgument s
  else finish 0#64 0#64 (s.withWriter { life := .opened, cur := 0#8, pos := 0, sink := some [], emitted := 0 })

/-- W.WRITE (R152). -/
def execWWrite (value : Word) (n : Nat) (s : State) : Result :=
  if s.w.life ≠ .opened then raise .useAfterClose s
  else if Config.maxWidth < n then raise .invalidArgument s
  else finish 0#64 0#64 (s.withWriter (writeBits (value &&& mask n) n s.w))

/-- W.WRITEOFF (R155, R156). -/
def execWWriteOff (value : Word) (n off : Nat) (s : State) : Result :=
  if s.w.life ≠ .opened then raise .useAfterClose s
  else if Config.maxWidth < n ∨ Config.offsetLimit ≤ off then raise .invalidArgument s
  else finish 0#64 0#64 (s.withWriter (writeBits ((value >>> off) &&& mask n) n s.w))

/-- The flush of W.CLOSE (R158): a partial byte is emitted with its unused low bits zero, and both registers
return to zero. -/
def flushPartial (w : Writer) : Writer :=
  if 0 < w.pos then { sinkEmit w.cur w with cur := 0#8, pos := 0 } else { w with cur := 0#8, pos := 0 }

/-- W.CLOSE (R158): flushes once and releases the sink; a no-op with OK on an IDLE or CLOSED Writer. -/
def execWClose (s : State) : Result :=
  if s.w.life = .opened then
    let s1 := releaseSink (s.withWriter (flushPartial s.w))
    finish 0#64 0#64 (s1.withWriter { s1.w with life := .closed })
  else finish 0#64 0#64 s

end Sys2Proof.Machine
end

