-- ==== Sys2Proof/Machine/PushReader.lean ====
section
/-! DEFINITION. The Push Bit Reader commands (spec 43_push_reader.md R180 to R187). -/

namespace Sys2Proof.Machine

/-- P.INIT (R182): a new session on the attached consumer, seeded by one invocation with value 0. A seed answer
outside 1..64 leaves the unit IDLE, with the earlier session gone. -/
def execPInit (s : State) : Result :=
  match s.env.cons.offered s.p.cons with
  | none => raise .invalidArgument s
  | some cons =>
    let s1 := bindConsumer cons s
    match cons.ask 0#64 with
    | .width cons' w =>
      let p := { s1.p with acc := 0#64, level := 0, inserted := 0, cons := some cons' }
      if validWidth w then finish 0#64 0#64 (s1.withPush { p with want := w.toNat, fail := .ok, life := .live })
      else raise .invalidArgument (s1.withPush { p with life := .idle })
    | .silent => .fault .consumerSilent
    | .commandIssued => .refused .reentrantCommand
    | .resetApplied => .refused .resetDuringCommand

/-- P.INSERT (R184): 0 to 8 bytes in order. -/
def execPInsert (packed : Word) (n : Nat) (s : State) : Result :=
  match s.p.life with
  | .idle => raise .useAfterClose s
  | .failed => raise s.p.fail s
  | .live =>
    if Config.maxInsert < n then raise .invalidArgument s
    else endInsert (pSteps askBound s.p.decoder (unpackBytes packed n)) s

/-- P.FLUSHBYTE (R185): `P.level <- P.level - (P.level % 8)`. -/
def execPFlushByte (s : State) : Result :=
  match s.p.life with
  | .idle => raise .useAfterClose s
  | .failed => raise s.p.fail s
  | .live => finish 0#64 0#64 (s.withPush { s.p with level := s.p.level - s.p.level % 8 })

end Sys2Proof.Machine
end

