-- ==== Sys2Proof/Machine/Dispatch.lean ====
section
/-! DEFINITION. Each command runs its own meaning (spec 30_encoding.md R84, R85). -/

namespace Sys2Proof.Machine

def exec (i : Instr) (s : State) : Host.Outcome State Fault Refusal :=
  match i with
  | .bbCountUsed value => Sys2Proof.Machine.execBbCountUsed value s
  | .bbPush host bits n => Sys2Proof.Machine.execBbPush host bits n s
  | .bbPop host n => Sys2Proof.Machine.execBbPop host n s
  | .rOpen => Sys2Proof.Machine.execROpen s
  | .rRead n => Sys2Proof.Machine.execRRead n s
  | .rTryRead n => Sys2Proof.Machine.execRTryRead n s
  | .rPeek => Sys2Proof.Machine.execRPeek s
  | .rTryPeek => Sys2Proof.Machine.execRTryPeek s
  | .rClose => Sys2Proof.Machine.execRClose s
  | .wOpen => Sys2Proof.Machine.execWOpen s
  | .wWrite value n => Sys2Proof.Machine.execWWrite value n s
  | .wWriteOff value n off => Sys2Proof.Machine.execWWriteOff value n off s
  | .wClose => Sys2Proof.Machine.execWClose s
  | .pInit => Sys2Proof.Machine.execPInit s
  | .pInsert packed n => Sys2Proof.Machine.execPInsert packed n s
  | .pFlushByte => Sys2Proof.Machine.execPFlushByte s

end Sys2Proof.Machine
end

