-- ==== Sys2Proof/Machine/HostPort.lean ====
section
/-! DEFINITION. What the host and the environment do between commands: reset (spec 70_reset_and_hazards.md R260 to
R262), attaching and detaching (00_scope.md R8, R263, R264), appends to a source (20_memory.md R61) and another agent's access to
a stream (R74, R270). -/

namespace Sys2Proof.Machine

/-- Hardware reset (R260, R261): every source, sink and consumer is unbound and every element takes its value of
R51. It is not a close: the partial byte is lost, nothing is emitted, no consumer is invoked, and bytes not
fetched stay in the released source. What is attached stays attached (log entry 4). -/
def resetBlock (s : State) : State :=
  let s1 := releaseConsumer (releaseSink (releaseSource s))
  ((s1.withReader Reader.reset).withWriter Writer.reset).withPush Push.reset

/-- The source with bytes appended (R61). -/
def ByteSource.append (src : ByteSource) (bytes : List Byte) : ByteSource :=
  { src with bytes := src.bytes ++ bytes }

/-- Bytes are appended to the source (R61). A source the Reader owns takes them only with `SOURCE_GROWS`; with it
false the list is fixed at R.OPEN, and the append is another agent's access to an owned stream (R74). A source in
the host's hands is the host's to fill (log entry 15). -/
def growSource (bytes : List Byte) (s : State) : Result :=
  if s.r.life = .opened then
    match s.r.src with
    | none => .next s
    | some src =>
      if src.grows then .next (s.withReader { s.r with src := some (src.append bytes) })
      else .refused .ownedStreamTouched
  else
    match s.env.src with
    | .attached src => .next (s.withSrcPort (.attached (src.append bytes)))
    | .detached => .next s
    | .lent => .next s

/-- Another agent reads or writes a stream (R74): outside the spec while an OPEN unit owns it, and nothing to the
block otherwise. -/
def foreignAccess (ch : Channel) (s : State) : Result :=
  match ch with
  | .source => if s.r.life = .opened then .refused .ownedStreamTouched else .next s
  | .sink => if s.w.life = .opened then .refused .ownedStreamTouched else .next s

/-- One act of the host or the environment. The attachment inputs are read by R.OPEN, W.OPEN and P.INIT only, so
that changing one touches no bound agent (log entry 14); an agent that was attached and held by no unit goes to the
host's list (log entry 20). -/
def hostAct (a : HostAct) (s : State) : Result :=
  match a with
  | .reset => .next (resetBlock s)
  | .attachSource src => .next ((displaceSource s).withSrcPort (.attached src))
  | .detachSource => .next ((displaceSource s).withSrcPort .detached)
  | .growSource bytes => growSource bytes s
  | .attachSink => .next (s.withSinkPort true)
  | .detachSink => .next (s.withSinkPort false)
  | .attachConsumer cons => .next ((displaceConsumer s).withConsPort (.attached cons))
  | .detachConsumer => .next ((displaceConsumer s).withConsPort .detached)
  | .foreignAccess ch => foreignAccess ch s

end Sys2Proof.Machine
end

