-- ==== Sys2Proof/Machine/Step.lean ====
section
/-! DEFINITION. One step of the machine: the block takes the next event from the host and runs it to completion
(spec 30_encoding.md R85, R89; 20_memory.md R73). -/

namespace Sys2Proof.Machine

/-- A command transaction runs: the command its word decodes to, or IllegalCommand (R85). -/
def runCommand (c : Command) (s : State) : Result :=
  match decode c with
  | .ok i => exec i s
  | .error _ => illegalCommand s

/-- One step (R73, R89): the first event of the inbox, whole, with the event taken off. With none the block waits
and holds its state (R249, R262). -/
def step (s : State) : Host.Outcome State Fault Refusal :=
  match s.host.inbox with
  | [] => .next s
  | .command c :: rest => runCommand c (s.withInbox rest)
  | .act a :: rest => hostAct a (s.withInbox rest)

/-- The state in which the host issues, next, the command whose bits are `w` (`Sys2Proof.commandOfBits`): it goes
to the front of the inbox, and nothing else changes (log entry 13). -/
def State.withFetchWord (s : State) (nbits w : Nat) : State :=
  s.withInbox (.command (commandOfBits nbits w) :: s.host.inbox)

end Sys2Proof.Machine
end

