-- ==== Sys2Proof/Machine/Assembler.lean ====
section
/-! DEFINITION. The host's assembler: pseudo-commands and line syntax (spec 30_encoding.md R91, R92). Lines are lists of
characters; which blanks may stand around a token is the model's (log entry 12). -/

namespace Sys2Proof.Machine

/-! ### Pseudo-commands (R92) -/

/-- `W.WRITEBIT b` is `W.WRITE 1, 1` if b, else `W.WRITE 0, 1`. -/
def writeBitPseudo (b : Bool) : Instr := .wWrite (if b then 1#64 else 0#64) 1

/-- `R.READBIT` is `R.READ 1`. -/
def readBitPseudo : Instr := .rRead 1

/-- One P.INSERT of the given bytes (R88, R91). -/
def insertBytes (bytes : List Byte) : Instr := .pInsert (packBytes bytes) bytes.length

/-- `P.INSERTN`: P.INSERTs of eight bytes each, the last with the remaining 1 to 8; of no byte, nothing. -/
def insertManyPseudo : List Byte → List Instr
  | [] => []
  | b0 :: b1 :: b2 :: b3 :: b4 :: b5 :: b6 :: b7 :: rest =>
    insertBytes [b0, b1, b2, b3, b4, b5, b6, b7] :: insertManyPseudo rest
  | bytes => [insertBytes bytes]

/-! ### Tokens of a line (R91) -/

/-- A blank between tokens. -/
def isBlank (c : Char) : Bool := c == ' ' || c == '\t'

/-- The text without its leading and trailing blanks. -/
def trimBlanks (t : List Char) : List Char :=
  ((t.dropWhile isBlank).reverse.dropWhile isBlank).reverse

/-- `;` starts a comment. -/
def stripComment (t : List Char) : List Char := t.takeWhile (fun c => c != ';')

/-- The parts of a text between its commas. -/
def splitCommas (t : List Char) : List (List Char) :=
  t.foldr (fun c parts =>
    if c = ',' then [] :: parts
    else match parts with
      | [] => [[c]]
      | part :: rest => (c :: part) :: rest) [[]]

/-- The value of a decimal digit. -/
def decDigit (c : Char) : Option Nat := if '0' ≤ c ∧ c ≤ '9' then some (c.toNat - '0'.toNat) else none

/-- The value of a hexadecimal digit; a letter in either case (the spec does not say; log entry 12). -/
def hexDigit (c : Char) : Option Nat :=
  if 'a' ≤ c ∧ c ≤ 'f' then some (c.toNat - 'a'.toNat + 10)
  else if 'A' ≤ c ∧ c ≤ 'F' then some (c.toNat - 'A'.toNat + 10)
  else decDigit c

/-- The value of a non-empty run of digits. -/
def digitsValue (base : Nat) (digit : Char → Option Nat) (t : List Char) : Option Nat :=
  if t = [] then none
  else t.foldl (fun acc c =>
    match acc, digit c with
    | some v, some d => some (base * v + d)
    | _, _ => none) (some 0)

/-- A numeral in decimal or `0x` hexadecimal; a capital `0X` starts none (log entry 12). -/
def numeral (t : List Char) : Option Nat :=
  match t with
  | '0' :: 'x' :: rest => digitsValue 16 hexDigit rest
  | _ => digitsValue 10 decDigit t

/-- A numeral that fits a field, else none: the assembler rejects rather than truncates (R91). -/
def numeralBelow (bound : Nat) (t : List Char) : Option Nat :=
  match numeral t with
  | some v => if v < bound then some v else none
  | none => none

/-- A COUNT or OFFSET numeral (R91: 0..255). -/
def fieldNumeral (t : List Char) : Option Nat := numeralBelow 256 t

/-- A data operand numeral (R91: 0..2^64-1). -/
def dataNumeral (t : List Char) : Option Word := (numeralBelow (2 ^ 64) t).map (BitVec.ofNat 64)

/-- A P.INSERT byte numeral (R91: 0..255). -/
def byteNumeral (t : List Char) : Option Byte := (numeralBelow 256 t).map (BitVec.ofNat 8)

/-- The operand of W.WRITEBIT: `true`, `false`, 1 or 0 (R92), taken as these four texts and no other numeral of
value 1 or 0 (the spec does not say; log entry 12). -/
def bitOperand (t : List Char) : Option Bool :=
  if t = "true".toList ∨ t = "1".toList then some true
  else if t = "false".toList ∨ t = "0".toList then some false
  else none

/-- Every operand of a list, or none. -/
def allBytes : List (List Char) → Option (List Byte)
  | [] => some []
  | t :: rest =>
    match byteNumeral t, allBytes rest with
    | some b, some bs => some (b :: bs)
    | _, _ => none

/-- The commands a mnemonic with its operands stands for (R91, R92); `none` is the assembler's rejection. -/
def assembleCommand (mnemonic : String) (operands : List (List Char)) : Option (List Instr) :=
  match mnemonic, operands with
  | "BB.COUNTUSED", [a] => do return [.bbCountUsed (← dataNumeral a)]
  | "BB.PUSH", [a, b, n] => do return [.bbPush (← dataNumeral a) (← dataNumeral b) (← fieldNumeral n)]
  | "BB.POP", [a, n] => do return [.bbPop (← dataNumeral a) (← fieldNumeral n)]
  | "R.OPEN", [] => some [.rOpen]
  | "R.READ", [n] => do return [.rRead (← fieldNumeral n)]
  | "R.TRYREAD", [n] => do return [.rTryRead (← fieldNumeral n)]
  | "R.PEEK", [] => some [.rPeek]
  | "R.TRYPEEK", [] => some [.rTryPeek]
  | "R.CLOSE", [] => some [.rClose]
  | "W.OPEN", [] => some [.wOpen]
  | "W.WRITE", [a, n] => do return [.wWrite (← dataNumeral a) (← fieldNumeral n)]
  | "W.WRITEOFF", [a, n, off] => do
    return [.wWriteOff (← dataNumeral a) (← fieldNumeral n) (← fieldNumeral off)]
  | "W.CLOSE", [] => some [.wClose]
  | "P.INIT", [] => some [.pInit]
  | "P.INSERT", bytes => do
    let bs ← allBytes bytes
    if bs.length ≤ Config.maxInsert then some [insertBytes bs] else none
  | "P.FLUSHBYTE", [] => some [.pFlushByte]
  | "W.WRITEBIT", [b] => do return [writeBitPseudo (← bitOperand b)]
  | "R.READBIT", [] => some [readBitPseudo]
  | "P.INSERTN", bytes => do return insertManyPseudo (← allBytes bytes)
  | _, _ => none

/-- The operand texts of a line after its mnemonic. -/
def operandTexts (t : List Char) : List (List Char) :=
  if trimBlanks t = [] then [] else (splitCommas t).map trimBlanks

/-- One line (R91): a mnemonic, then its operands separated by commas; an empty line assembles to nothing. -/
def assembleLine (line : List Char) : Option (List Instr) :=
  let t := trimBlanks (stripComment line)
  if t = [] then some []
  else assembleCommand (String.ofList (t.takeWhile (fun c => !isBlank c)))
    (operandTexts (t.dropWhile (fun c => !isBlank c)))

end Sys2Proof.Machine
end

