-- ==== Sys2Proof/Machine/Text.lean ====
section
/-! DEFINITION. The binary text functions of the host (spec 44_binary_text.md R210 to R217). They are no commands of
the block (R6); texts are lists of characters. -/

namespace Sys2Proof.Machine

/-- One bit as a character (R211). -/
def bitChar (b : Bool) : Char := if b then '1' else '0'

/-- `ByteText(b)`: the 8 characters of a byte, bit 7 first (R211). -/
def byteText (b : Byte) : List Char := (List.range 8).map (fun i => bitChar (b.getLsbD (7 - i)))

/-- Groups joined by single spaces (R210). -/
def joinGroups : List (List Char) → List Char
  | [] => []
  | [g] => g
  | g :: g' :: rest => g ++ ' ' :: joinGroups (g' :: rest)

/-- `BytesToText(bytes)` (R212). -/
def bytesToText (bytes : List Byte) : List Char := joinGroups (bytes.map byteText)

/-- The number of 8-character groups `ToBinaryString` gives: `ceil(max(CountUsed(value), minBits) / 8)` (R213). -/
def groupCount (value : Word) (minBits : Nat) : Nat := (max (countUsed value) minBits + 7) / 8

/-- Group `i` of a rendering in `groups` groups: bits `8*(groups-1-i)+7` down to `8*(groups-1-i)` of the value,
zeros above bit 63 (R213). -/
def valueGroup (value : Word) (groups i : Nat) : Byte := value.extractLsb' (8 * (groups - 1 - i)) 8

/-- `ToBinaryString(value, minBits)` (R213; the source's default for `minBits` is 1). -/
def toBinaryString (value : Word) (minBits : Nat := 1) : List Char :=
  joinGroups ((List.range (groupCount value minBits)).map
    (fun i => byteText (valueGroup value (groupCount value minBits) i)))

/-- The whitespace of R215: space, horizontal tab, line feed, carriage return. -/
def isTextSpace (c : Char) : Bool := c == ' ' || c == '\t' || c == '\n' || c == '\r'

/-- The alphabet of R210, `_` a placeholder for zero on input. -/
def isTextDigit (c : Char) : Bool := c == '0' || c == '1' || c == '_'

/-- The bytes of a text of whole 8-character groups, first character the most significant bit (R214). -/
def parseGroups : List Char → List Byte
  | c0 :: c1 :: c2 :: c3 :: c4 :: c5 :: c6 :: c7 :: rest =>
    BitVec.ofNat 8 ([c0, c1, c2, c3, c4, c5, c6, c7].foldl (fun v c => 2 * v + (if c = '1' then 1 else 0)) 0) ::
      parseGroups rest
  | _ => []

/-- `ParseBinaryString(text)` (R214): FormatError (R234) is raised on the host. -/
def parseBinaryString (text : List Char) : Except Status (List Byte) :=
  let t := text.filter (fun c => !isTextSpace c)
  if t.all isTextDigit = false then .error .formatError
  else if t.length % 8 ≠ 0 then .error .formatError
  else .ok (parseGroups t)

end Sys2Proof.Machine
end

