-- ==== Sys2Proof/Safety.lean ====
section
/-! DEFINITION. The terms the claims are stated in: the bit strings of the two streams and of the accumulator (spec
20_memory.md R65 to R67), the invariants of the units (10_state.md R35, R37, R38, R43 to R46), and consumers that
answer (70_reset_and_hazards.md R271). -/

namespace Sys2Proof

/-! ### Commands as syntax -/

/-- The unit a command belongs to: 0 BB, 1 R, 2 W, 3 P (30_encoding.md R81). -/
def Instr.unit (i : Instr) : Nat := i.opcode.toNat / 16

/-- A W.WRITE or W.WRITEOFF whose arguments are in range (R152, R155). -/
def Instr.isLegalWrite : Instr → Bool
  | .wWrite _ n => n ≤ 64
  | .wWriteOff _ n off => n ≤ 64 && off < 64
  | .bbCountUsed _ => false
  | .bbPush _ _ _ => false
  | .bbPop _ _ => false
  | .rOpen => false
  | .rRead _ => false
  | .rTryRead _ => false
  | .rPeek => false
  | .rTryPeek => false
  | .rClose => false
  | .wOpen => false
  | .wClose => false
  | .pInit => false
  | .pInsert _ _ => false
  | .pFlushByte => false

end Sys2Proof

namespace Sys2Proof.Machine

/-! ### Bit strings, MSB-first -/

/-- The bits of a byte in stream order: bit 7 first (R65). -/
def byteBits (b : Byte) : List Bool := (List.range 8).map (fun i => b.getLsbD (7 - i))

/-- The bit string of a byte sequence (R67). -/
def bitsOf (bytes : List Byte) : List Bool := bytes.flatMap byteBits

/-- The low `n` bits of a value, the most significant of them first. -/
def fieldBits (n : Nat) (v : Word) : List Bool := (List.range n).map (fun i => v.getLsbD (n - 1 - i))

/-- `Σ s_i · 2^(n-1-i)`: the value of a bit string, its first bit the most significant (R67). -/
def bitsValue (bits : List Bool) : Nat := bits.foldl (fun v b => 2 * v + b.toNat) 0

/-- The bytes of the Reader's source it has not taken. -/
def Reader.pending (r : Reader) : List Byte :=
  match r.src with
  | none => []
  | some src => src.bytes

/-- The remaining bit string of the Reader (R129): the bits of `R.cur` from position `R.pos`, then the source's
bytes. -/
def Reader.remaining (r : Reader) : List Bool := (byteBits r.cur).drop r.pos ++ bitsOf r.pending

/-- The bytes in the Writer's sink. -/
def Writer.emittedBytes (w : Writer) : List Byte := w.sink.getD []

/-- The bit string the Writer has been given (R161): the sink's bytes, then the bits placed in `W.cur`. -/
def Writer.written (w : Writer) : List Bool := bitsOf w.emittedBytes ++ (byteBits w.cur).take w.pos

/-- The valid bits of the accumulator, the oldest first (R41). -/
def Decoder.held {σ : Type} (d : Decoder σ) : List Bool := fieldBits d.level d.acc

/-- The delivered fields' bits, each field as wide as it was extracted (R191). -/
def deliveredBits (widths : List Nat) (fields : List Word) : List Bool :=
  (List.zipWith fieldBits widths fields).flatten

/-! ### Invariants -/

/-- The Reader's invariant: `0 ≤ R.pos ≤ 8` (R35); it owns a source exactly while OPEN (R32, R36). -/
abbrev Reader.Inv (r : Reader) : Prop :=
  r.pos ≤ 8 ∧ (r.life = .opened ↔ r.src.isSome = true)

/-- The Writer's invariant at a command boundary: `0 ≤ W.pos ≤ 7` (R38); the bits not yet placed are zero (R37);
it owns a sink exactly while OPEN (R32, R40), and the ghost count is the sink's length (R50). -/
abbrev Writer.Inv (w : Writer) : Prop :=
  w.pos ≤ 7 ∧ w.cur &&& byteMask (8 - w.pos) = 0#8 ∧ (w.life = .opened ↔ w.sink.isSome = true) ∧
    (w.life = .opened → w.emitted = w.emittedBytes.length)

/-- The push reader's invariant at a command boundary: `0 ≤ P.level ≤ 64` (R43); `1 ≤ P.want ≤ 64` (R44); while
LIVE, `P.level < P.want` (R45); a session has a consumer; a failed one has its status, Overflow or InvalidArgument
(R46). -/
abbrev Push.Inv (p : Push) : Prop :=
  p.level ≤ 64 ∧ (1 ≤ p.want ∧ p.want ≤ 64) ∧ (p.life = .live → p.level < p.want) ∧
    (p.life ≠ .idle → p.cons.isSome = true) ∧
    (p.life = .failed → p.fail = .overflow ∨ p.fail = .invalidArgument)

/-- A port that says its agent is bound has a unit that binds one. -/
abbrev Env.Inv (s : State) : Prop :=
  (s.env.src = .lent → s.r.src.isSome = true) ∧ (s.env.cons = .lent → s.p.cons.isSome = true)

/-- The invariant of the whole machine. -/
abbrev State.Inv (s : State) : Prop := s.r.Inv ∧ s.w.Inv ∧ s.p.Inv ∧ Env.Inv s

/-! ### Consumers -/

/-- The consumer after these values, if it answers each of them. -/
def Consumer.after (c : Consumer) : List Word → Option Consumer
  | [] => some c
  | v :: vs =>
    match c.ask v with
    | .width c' _ => c'.after vs
    | .silent => none
    | .commandIssued => none
    | .resetApplied => none

/-- A consumer that answers every invocation, after whatever values it has been given, and each time with a width of
which `P` holds. -/
def Consumer.Answers (P : Byte → Prop) (c : Consumer) : Prop :=
  ∀ (vs : List Word) (c' : Consumer), c.after vs = some c' → ∀ v, ∃ c'' w, c'.ask v = .width c'' w ∧ P w

/-- A consumer that answers every invocation (R271, its first duty). -/
abbrev Consumer.AlwaysAnswers (c : Consumer) : Prop := c.Answers (fun _ => True)

/-- A consumer that answers every invocation with a width in 1..64 (R271, its first two duties). -/
abbrev Consumer.KeepsSessionAlive (c : Consumer) : Prop := c.Answers (fun w => 1 ≤ w.toNat ∧ w.toNat ≤ 64)

/-- The fields `fields`, extracted with `widths`, are such as a decoder that wants `want` bits and asks `c` in state
`q` delivers: the first is `want` bits wide, each next one as wide as the consumer answered the one before, every
answer is in 1..64, and the last answer is the width `want'` then wanted, from the consumer in state `q'` (R44, R183
"`P.want <- w`"). -/
def Answered {σ : Type} (c : σ → Word → Answer σ) : σ → Nat → List Nat → List Word → σ → Nat → Prop
  | q, want, [], [], q', want' => q' = q ∧ want' = want
  | q, want, w :: ws, f :: fs, q', want' =>
    w = want ∧ f.toNat < 2 ^ w ∧
      ∃ q1 a, c q f = .width q1 a ∧ (1 ≤ a.toNat ∧ a.toNat ≤ 64) ∧ Answered c q1 a.toNat ws fs q' want'
  | _, _, [], _ :: _, _, _ => False
  | _, _, _ :: _, [], _, _ => False

/-! ### Sequences of commands -/

/-- Commands executed one after the other, as the host issues them with nothing between (R73). -/
def execSeq : List Instr → State → Result
  | [], s => .next s
  | i :: rest, s =>
    match exec i s with
    | .next t => execSeq rest t
    | .fault f => .fault f
    | .refused r => .refused r

/-! ### Safe runs -/

/-- A state from which the next step answers a next state: no fault and no refusal. -/
def State.StepsOn (s : State) : Prop := ∃ s', step s = .next s'

end Sys2Proof.Machine

namespace Sys2Proof

/-- The bits a write command writes, MSB-first (R152, R155). -/
def Instr.writtenBits : Instr → List Bool
  | .wWrite value n => Machine.fieldBits n value
  | .wWriteOff value n off => Machine.fieldBits n (value >>> off)
  | .bbCountUsed _ => []
  | .bbPush _ _ _ => []
  | .bbPop _ _ => []
  | .rOpen => []
  | .rRead _ => []
  | .rTryRead _ => []
  | .rPeek => []
  | .rTryPeek => []
  | .rClose => []
  | .wOpen => []
  | .wClose => []
  | .pInit => []
  | .pInsert _ _ => []
  | .pFlushByte => []

end Sys2Proof
end

