-- ==== Sys2Proof/Certificates/Slice0/Obligations.lean ====
section
/-! DEFINITION. The statements for the provers. The frame of a command stands in its conclusion: the state after is
written as the state before with the named parts replaced (`withReader`, `withWriter`, `withPush`, `withSrcPort`,
`giveSink`, …) and one response appended (`respond`), so every other register, binding, input and list is unchanged.
The block has no memory, no program counter and no flags (R30, R48, R60). -/

open Sys2Proof Sys2Proof.Machine

/-! ### Encoding -/

/-- R93, whole: every encoding example encodes and decodes as written; P.INSERT's bytes are packed by R88, and
`0x0000011F` is IllegalCommand. -/
def Obligations.EncodingExamples : Prop :=
  (encode (.rRead 9)).word = 0x00000911#32 ∧
  encode (.wWrite 0xFF#64 2) = ⟨0x00000221#32, 0xFF#64, 0#64⟩ ∧
  encode (.wWriteOff 0xABCD#64 8 4) = ⟨0x00040822#32, 0xABCD#64, 0#64⟩ ∧
  encode (.bbPush 5#64 2#64 2) = ⟨0x00000202#32, 5#64, 2#64⟩ ∧
  encode (insertBytes [0xA6#8, 0x40#8]) = ⟨0x00000231#32, 0xA640#64, 0#64⟩ ∧
  (encode .rClose).word = 0x0000001F#32 ∧
  ∀ a b : Word,
    decode ⟨0x00000911#32, a, b⟩ = .ok (.rRead 9) ∧
    decode ⟨0x00000221#32, a, b⟩ = .ok (.wWrite a 2) ∧
    decode ⟨0x00040822#32, a, b⟩ = .ok (.wWriteOff a 8 4) ∧
    decode ⟨0x00000202#32, a, b⟩ = .ok (.bbPush a b 2) ∧
    decode ⟨0x00000231#32, a, b⟩ = .ok (.pInsert a 2) ∧
    decode ⟨0x0000001F#32, a, b⟩ = .ok .rClose ∧
    ∀ s : State, runCommand ⟨0x0000011F#32, a, b⟩ s = .next (s.respond (.error .illegalCommand))

/-- Decoding undoes encoding, for every well-formed command and every operand its fields admit. -/
def Obligations.DecodeUndoesEncode : Prop :=
  ∀ i : Instr, i.WellFormed → decode (encode i) = .ok i

/-- Encoding undoes decoding, as far as the transaction is read: the decoded command is well formed, its word is
the one decoded, and the data operands it names are the transaction's (R82: used whole). -/
def Obligations.EncodeUndoesDecode : Prop :=
  ∀ (c : Command) (i : Instr), decode c = .ok i →
    i.WellFormed ∧ (encode i).word = c.word ∧
      (∀ v, i.operandA = some v → v = c.a) ∧ (∀ v, i.operandB = some v → v = c.b)

/-- R85, whole: at most one row matches a word; the command of the row that matches executes; with no row the
response is IllegalCommand and no state changes. -/
def Obligations.DecodingByTheOneMatchingRow : Prop :=
  (∀ (w : CommandWord), ∀ row ∈ opcodeTable, ∀ row' ∈ opcodeTable,
    row.hits w = true → row'.hits w = true → row.mnemonic = row'.mnemonic) ∧
  (∀ (c : Command), ∀ row ∈ opcodeTable, row.hits c.word = true → ∀ s : State,
    runCommand c s = exec (row.build (operandsOf c)) s) ∧
  (∀ (c : Command), (∀ row ∈ opcodeTable, row.hits c.word = false) → ∀ s : State,
    runCommand c s = .next (s.respond (.error .illegalCommand)))

/-- R87: a word is rejected exactly when RSV is not 0, UNIT is 4..15, FN is not listed for its unit, COUNT is not 0
on a command that does not use it, or OFFSET is not 0 on any but W.WRITEOFF; the response is then IllegalCommand,
and nothing changes. -/
def Obligations.IllegalWordsExactly : Prop :=
  ∀ c : Command,
    ((∃ e, decode c = .error e) ↔
      reservedField c.word ≠ 0 ∨ 4 ≤ unitField c.word ∨
      (unitField c.word = 0 ∧ (fnField c.word = 0 ∨ 4 ≤ fnField c.word)) ∨
      (unitField c.word = 1 ∧ 5 ≤ fnField c.word ∧ fnField c.word ≤ 14) ∨
      (unitField c.word = 2 ∧ 3 ≤ fnField c.word ∧ fnField c.word ≤ 14) ∨
      (unitField c.word = 3 ∧ 3 ≤ fnField c.word) ∨
      (countField c.word ≠ 0 ∧
        opField c.word ∉ [0x02#8, 0x03#8, 0x11#8, 0x12#8, 0x21#8, 0x22#8, 0x31#8]) ∨
      (offsetField c.word ≠ 0 ∧ opField c.word ≠ 0x22#8)) ∧
    ((∃ e, decode c = .error e) → ∀ s : State, runCommand c s = .next (s.respond (.error .illegalCommand)))

/-- R83: a command reads only the operands its rule names: two transactions with one word, equal where the command
names an operand, decode to the same command. -/
def Obligations.UnnamedOperandsIgnored : Prop :=
  ∀ (w : CommandWord) (a b a' b' : Word) (i : Instr), decode ⟨w, a, b⟩ = .ok i →
    (i.operandA.isSome = true → a = a') → (i.operandB.isSome = true → b = b') → decode ⟨w, a', b'⟩ = .ok i

/-- R88: byte `i` of a P.INSERT of `n ≤ 8` bytes is `A[8*(n-1-i)+7 : 8*(n-1-i)]`, the bits of `A` above `8n-1` are
ignored, and packing and unpacking are inverse. -/
def Obligations.InsertOperandPacking : Prop :=
  (∀ (packed : Word) (n i : Nat), n ≤ 8 → i < n →
    (unpackBytes packed n)[i]? = some (BitVec.ofNat 8 (packed.toNat / 2 ^ (8 * (n - 1 - i))))) ∧
  (∀ (packed packed' : Word) (n : Nat), n ≤ 8 → packed.toNat % 2 ^ (8 * n) = packed'.toNat % 2 ^ (8 * n) →
    unpackBytes packed n = unpackBytes packed' n) ∧
  (∀ bytes : List Byte, bytes.length ≤ 8 → unpackBytes (packBytes bytes) bytes.length = bytes)

/-! ### The step -/

/-- A step takes the first event of the inbox, whole (the inbox is the model's own, log entry 1). With a command first it
is `exec` of the command its word decodes to, at the state with that event taken off; a word that decodes to none
answers IllegalCommand; with an act of the host or the environment first it is that act; with no event to come the
step changes nothing (R249). -/
def Obligations.StepRunsDecodedCommand : Prop :=
  (∀ (s : State) (c : Command) (rest : List HostEvent), s.host.inbox = .command c :: rest →
    (∀ i, decode c = .ok i → step s = exec i (s.withInbox rest)) ∧
    (∀ e, decode c = .error e → step s = .next ((s.withInbox rest).respond (.error .illegalCommand)))) ∧
  (∀ (s : State) (a : HostAct) (rest : List HostEvent), s.host.inbox = .act a :: rest →
    step s = hostAct a (s.withInbox rest)) ∧
  (∀ s : State, s.host.inbox = [] → step s = .next s)

/-- R8, R263: attaching or detaching an agent sets that environment input and nothing else of the block, of the other
inputs or of what is bound (log entry 14); an agent attached before and held by no unit goes to the host's list (the
model's choice, log entry 20). -/
def Obligations.AttachmentActs : Prop :=
  ∀ s : State,
    (∀ src, (∀ old, s.env.src ≠ .attached old) →
      hostAct (.attachSource src) s = .next (s.withSrcPort (.attached src)) ∧
      hostAct .detachSource s = .next (s.withSrcPort .detached)) ∧
    (∀ src old, s.env.src = .attached old →
      hostAct (.attachSource src) s = .next ((s.giveSource old).withSrcPort (.attached src)) ∧
      hostAct .detachSource s = .next ((s.giveSource old).withSrcPort .detached)) ∧
    (∀ cons, (∀ old, s.env.cons ≠ .attached old) →
      hostAct (.attachConsumer cons) s = .next (s.withConsPort (.attached cons)) ∧
      hostAct .detachConsumer s = .next (s.withConsPort .detached)) ∧
    (∀ cons old, s.env.cons = .attached old →
      hostAct (.attachConsumer cons) s = .next ((s.giveConsumer old).withConsPort (.attached cons)) ∧
      hostAct .detachConsumer s = .next ((s.giveConsumer old).withConsPort .detached)) ∧
    hostAct .attachSink s = .next (s.withSinkPort true) ∧ hostAct .detachSink s = .next (s.withSinkPort false)

/-! ### BitBuffer -/

/-- R101: BB.COUNTUSED answers 1 for 0 and else floor(log2 A) + 1, always in 1..64, and changes nothing. -/
def Obligations.CountUsedResult : Prop :=
  ∀ (value : Word) (s : State), (encode (.bbCountUsed value)).word = 0x00000001#32 ∧
    ∃ c : Nat, c = (if value = 0#64 then 1 else Nat.log2 value.toNat + 1) ∧ 1 ≤ c ∧ c ≤ 64 ∧
      exec (.bbCountUsed value) s = .next (s.respond (.delivered (BitVec.ofNat 64 c) 0#64))

/-- R102: CountUsed is 1 for 0 and for 1, and n for 2^n - 1 with n in 1..64; every A is at most mask(CountUsed(A)), and
above mask(CountUsed(A) - 1) when it is not 0. -/
def Obligations.CountUsedLaws : Prop :=
  countUsed 0#64 = 1 ∧ countUsed 1#64 = 1 ∧
  (∀ n, 1 ≤ n → n ≤ 64 → countUsed (BitVec.ofNat 64 (2 ^ n - 1)) = n) ∧
  (∀ a : Word, a.toNat ≤ (mask (countUsed a)).toNat ∧ (0 < a.toNat → (mask (countUsed a - 1)).toNat < a.toNat))

/-- R103: BB.PUSH appends the low n bits of bits to host shifted left by n, for n ≤ 64; for n = 0 it answers host,
for n = 64 it answers bits; for n > 64 it reports InvalidArgument; nothing else changes. -/
def Obligations.PushResult : Prop :=
  ∀ (host bits : Word) (n : Nat) (s : State),
    (encode (.bbPush host bits n)).word = commandWord 0x02#8 n 0 ∧
    (n ≤ 64 → ∃ r : Word, exec (.bbPush host bits n) s = .next (s.respond (.delivered r 0#64)) ∧
      r.toNat = (host.toNat * 2 ^ n + bits.toNat % 2 ^ n) % 2 ^ 64 ∧ (n = 0 → r = host) ∧ (n = 64 → r = bits)) ∧
    (64 < n → exec (.bbPush host bits n) s = .next (s.respond (.error .invalidArgument)))

/-- R105: BB.POP answers the low n bits of host and host shifted right by n, for n ≤ 64; for n = 0 it answers 0 and
host, for n = 64 host and 0; for n > 64 it reports InvalidArgument; nothing else changes. -/
def Obligations.PopResult : Prop :=
  ∀ (host : Word) (n : Nat) (s : State),
    (encode (.bbPop host n)).word = commandWord 0x03#8 n 0 ∧
    (n ≤ 64 → ∃ v rest : Word, exec (.bbPop host n) s = .next (s.respond (.delivered v rest)) ∧
      v.toNat = host.toNat % 2 ^ n ∧ rest.toNat = host.toNat / 2 ^ n ∧
      (n = 0 → v = 0#64 ∧ rest = host) ∧ (n = 64 → v = host ∧ rest = 0#64)) ∧
    (64 < n → exec (.bbPop host n) s = .next (s.respond (.error .invalidArgument)))

/-- R107: popping what was pushed gives back the pushed bits and the host without the bits lost to the shift. -/
def Obligations.PopUndoesPush : Prop :=
  ∀ (host bits : Word) (n : Nat), n ≤ 64 → ∃ r : Word,
    (∀ s, exec (.bbPush host bits n) s = .next (s.respond (.delivered r 0#64))) ∧
    (∀ s, exec (.bbPop r n) s = .next (s.respond (.delivered (bits &&& mask n) (host &&& mask (64 - n)))))

/-- R100: a BB command is a function of its operands alone, writes only its response, changes no state of any unit
and never reports UseAfterClose; a rejected one has no effect at all. -/
def Obligations.BitBufferWritesOnlyResponse : Prop :=
  ∀ i : Instr, i.unit = 0 → ∃ resp : Response, resp.st ≠ .useAfterClose ∧
    (∀ s : State, exec i s = .next (s.respond resp)) ∧ (64 < i.count → resp = .error .invalidArgument)

/-! ### Bit Reader -/

/-- R120: R.OPEN binds the attached source with nothing fetched, from IDLE and from CLOSED alike; on an OPEN Reader,
or with no source attached, it reports InvalidArgument and nothing changes. -/
def Obligations.ReaderOpens : Prop :=
  ∀ s : State, (encode .rOpen).word = 0x00000010#32 ∧
    (s.r.life = .opened → exec .rOpen s = .next (s.respond (.error .invalidArgument))) ∧
    (s.env.src = .detached → exec .rOpen s = .next (s.respond (.error .invalidArgument))) ∧
    (∀ src, s.r.life ≠ .opened → s.env.src = .attached src →
      exec .rOpen s = .next (((s.withReader
        { life := .opened, cur := 0#8, pos := 8, src := some src, fetched := 0 }).withSrcPort .lent).respond
          (.delivered 0#64 0#64)))

/-- R129: on an OPEN Reader a read of n bits, by R.READ or R.TRYREAD, answers the value of the first n remaining
bits, MSB-first, and leaves the rest; only the Reader and the responses change, and with n = 0 not even the Reader
(R121: no stream access). With fewer than n bits remaining,
and only then, R.READ answers EndOfStream. -/
def Obligations.ReadTakesFirstBits : Prop :=
  ∀ (s : State) (n : Nat), s.r.Inv → s.r.life = .opened → n ≤ 64 →
    (n ≤ s.r.remaining.length → ∃ r' : Reader,
      (∀ i, i = .rRead n ∨ i = .rTryRead n → exec i s = .next ((s.withReader r').respond
        (.delivered (BitVec.ofNat 64 (bitsValue (s.r.remaining.take n))) 0#64))) ∧
      r'.remaining = s.r.remaining.drop n ∧ r'.life = .opened ∧ (n = 0 → r' = s.r)) ∧
    (s.r.remaining.length < n ↔
      ∃ r' : Reader, exec (.rRead n) s = .next ((s.withReader r').respond (.error .endOfStream)))

/-- R124: a read that meets the end of the source rolls nothing back: every byte of the source is taken, `R.cur`
holds the last of them (or its value before, with none), `R.pos = 8`, no bit remains, and the stream position has
advanced by the bits gathered. R.READ answers EndOfStream and R.TRYREAD `st = OK, ok = 0` (R123). Until bytes come, every
later read of a bit fails the same way and changes nothing more. -/
def Obligations.ReadAtEndOfStream : Prop :=
  ∀ (s : State) (n : Nat), s.r.Inv → s.r.life = .opened → n ≤ 64 → s.r.remaining.length < n →
    ∃ r' : Reader,
      exec (.rRead n) s = .next ((s.withReader r').respond (.error .endOfStream)) ∧
      exec (.rTryRead n) s = .next ((s.withReader r').respond .exhausted) ∧
      r'.life = .opened ∧ r'.pos = 8 ∧ r'.cur = s.r.pending.getLastD s.r.cur ∧
      r'.src = s.r.src.map (fun src => { src with bytes := [], taken := src.taken ++ src.bytes }) ∧
      r'.remaining = [] ∧
      8 * r'.fetched + r'.pos = 8 * s.r.fetched + s.r.pos + s.r.remaining.length ∧
      ∀ (t : State) (m : Nat), t.r = r' → 1 ≤ m → m ≤ 64 →
        exec (.rRead m) t = .next (t.respond (.error .endOfStream))

/-- R123: R.TRYREAD is R.READ in every state change, and answers as R.READ does but for the end of stream, which it
reports as `st = OK, ok = 0`. -/
def Obligations.TryReadFollowsRead : Prop :=
  ∀ (s : State) (n : Nat), (encode (.rTryRead n)).word = commandWord 0x12#8 n 0 ∧
    ∃ (t : State) (resp : Response), exec (.rRead n) s = .next (t.respond resp) ∧
      exec (.rTryRead n) s =
        .next (t.respond (if resp = .error .endOfStream then .exhausted else resp))

/-- R121, R128, R235: on a Reader that is not OPEN every reading command reports UseAfterClose, whatever its count; on
an OPEN one a count above 64 is InvalidArgument before any stream access; neither changes anything. -/
def Obligations.ReaderRejectsUnchanged : Prop :=
  ∀ (s : State) (n : Nat),
    (s.r.life ≠ .opened → ∀ i, i = .rRead n ∨ i = .rTryRead n ∨ i = .rPeek ∨ i = .rTryPeek →
      exec i s = .next (s.respond (.error .useAfterClose))) ∧
    (s.r.life = .opened → 64 < n → ∀ i, i = .rRead n ∨ i = .rTryRead n →
      exec i s = .next (s.respond (.error .invalidArgument)))

/-- R125: R.PEEK answers the first remaining bit and leaves the remaining bits as they are, taking at most one byte
from the source; a second peek answers the same and changes nothing; with no bit remaining it is EndOfStream, and on
a Reader that is not OPEN UseAfterClose, with no state changed. -/
def Obligations.PeekShowsNextBit : Prop :=
  ∀ s : State, s.r.Inv → (encode .rPeek).word = 0x00000013#32 ∧
    (s.r.life ≠ .opened → exec .rPeek s = .next (s.respond (.error .useAfterClose))) ∧
    (s.r.life = .opened → s.r.remaining = [] → exec .rPeek s = .next (s.respond (.error .endOfStream))) ∧
    (∀ b rest, s.r.life = .opened → s.r.remaining = b :: rest → ∃ r' : Reader,
      exec .rPeek s = .next ((s.withReader r').respond (.delivered (if b then 1#64 else 0#64) 0#64)) ∧
      r'.remaining = s.r.remaining ∧ r'.life = .opened ∧
      (s.r.pos ≤ 7 → r' = s.r) ∧ (s.r.pos = 8 → r'.pos = 0 ∧ r'.fetched = s.r.fetched + 1) ∧
      ∀ t : State, t.r = r' → exec .rPeek t = .next (t.respond (.delivered (if b then 1#64 else 0#64) 0#64)))

/-- R126: R.TRYPEEK is R.PEEK in every state change, and answers as R.PEEK does but for the end of stream, which it
reports as `st = OK, ok = 0`; on an OPEN Reader with a bit to come it answers that bit. -/
def Obligations.TryPeekFollowsPeek : Prop :=
  ∀ s : State, (encode .rTryPeek).word = 0x00000014#32 ∧
    (∃ (t : State) (resp : Response), exec .rPeek s = .next (t.respond resp) ∧
      exec .rTryPeek s = .next (t.respond (if resp = .error .endOfStream then .exhausted else resp))) ∧
    (∀ b rest, s.r.Inv → s.r.life = .opened → s.r.remaining = b :: rest → ∃ r' : Reader,
      exec .rTryPeek s = .next ((s.withReader r').respond (.delivered (if b then 1#64 else 0#64) 0#64)) ∧
      r'.remaining = s.r.remaining ∧ r'.life = .opened)

/-- R127: R.CLOSE releases the source with the bytes not fetched still in it, and answers OK; on an IDLE or CLOSED
Reader it is a no-op that answers OK. On a CLOSED Reader every reading command reports UseAfterClose. Where the
released source goes is the model's (log entry 18): it stays the
attached one where it was, and else goes to the host. -/
def Obligations.ReaderCloses : Prop :=
  ∀ s : State, (encode .rClose).word = 0x0000001F#32 ∧
    (s.r.life ≠ .opened → exec .rClose s = .next (s.respond (.delivered 0#64 0#64))) ∧
    (∀ src, s.r.life = .opened → s.r.src = some src → s.env.src = .lent →
      exec .rClose s = .next (((s.withReader { s.r with life := .closed, src := none }).withSrcPort
        (.attached src)).respond (.delivered 0#64 0#64))) ∧
    (∀ src, s.r.life = .opened → s.r.src = some src → s.env.src ≠ .lent →
      exec .rClose s = .next (((s.withReader { s.r with life := .closed, src := none }).giveSource
        src).respond (.delivered 0#64 0#64))) ∧
    (s.r.life = .closed → ∀ n i, i = .rRead n ∨ i = .rTryRead n ∨ i = .rPeek ∨ i = .rTryPeek →
      exec i s = .next (s.respond (.error .useAfterClose)))

/-- R50: a successful read of n bits moves the Reader's stream position `8 * fetched - 8 + pos` by exactly n, and
R.OPEN leaves it at 0. -/
def Obligations.ReadAdvancesStreamPosition : Prop :=
  (∀ (s : State) (n : Nat) (v : Word) (t : State), s.r.Inv →
    exec (.rRead n) s = .next (t.respond (.delivered v 0#64)) →
      8 * t.r.fetched + t.r.pos = 8 * s.r.fetched + s.r.pos + n) ∧
  (∀ s t : State, exec .rOpen s = .next (t.respond (.delivered 0#64 0#64)) → 8 * t.r.fetched + t.r.pos = 8)

/-- R69 and R276: one R.READ or R.TRYREAD takes at most 8 bytes from the source, one R.PEEK or R.TRYPEEK at most 1;
one W.WRITE or W.WRITEOFF emits at most 8 bytes, one W.CLOSE at most 1. -/
def Obligations.StreamTransferBounds : Prop :=
  (∀ (i : Instr) (n : Nat) (s t : State), s.r.Inv → s.r.life = .opened →
    i = .rRead n ∨ i = .rTryRead n → exec i s = .next t → t.r.fetched ≤ s.r.fetched + 8) ∧
  (∀ (i : Instr) (s t : State), s.r.Inv → s.r.life = .opened → i = .rPeek ∨ i = .rTryPeek → exec i s = .next t →
    t.r.fetched ≤ s.r.fetched + 1) ∧
  (∀ (i : Instr) (a : Word) (n off : Nat) (s t : State), s.w.Inv → s.w.life = .opened →
    i = .wWrite a n ∨ i = .wWriteOff a n off → exec i s = .next t → t.w.emitted ≤ s.w.emitted + 8) ∧
  (∀ s t : State, exec .wClose s = .next t → t.w.emitted ≤ s.w.emitted + 1)

/-- R63: with `SOURCE_GROWS = false`, once the owned source is exhausted it stays so: a step that leaves the
instance OPEN leaves its source as it is. -/
def Obligations.EndOfStreamIsSticky : Prop :=
  ∀ (s t : State) (src : ByteSource), s.r.Inv → s.r.life = .opened → s.r.src = some src → src.bytes = [] →
    src.grows = false → step s = .next t → t.r.life = .opened → t.r.src = some src

/-- R33: `R.cur` changes only when a byte is loaded, and then takes the last loaded byte's value; the bytes loaded leave
the front of the source and join the bytes taken from it (R62, R265). -/
def Obligations.ReaderByteChangesOnlyOnLoad : Prop :=
  ∀ (i : Instr) (s t : State), s.r.Inv → i ≠ .rOpen → exec i s = .next t →
    t.r.cur = s.r.cur ∧ t.r.fetched = s.r.fetched ∨
      ∃ l, l ≠ [] ∧ s.r.pending = l ++ t.r.pending ∧ t.r.fetched = s.r.fetched + l.length ∧
        t.r.cur = l.getLastD s.r.cur ∧
        t.r.src.map ByteSource.taken = s.r.src.map (fun src => src.taken ++ l)

/-! ### Bit Writer -/

/-- R151: W.OPEN starts an instance with an empty sink of its own, from IDLE and from CLOSED alike; on an OPEN
Writer, or with no sink attached, it reports InvalidArgument and nothing changes. -/
def Obligations.WriterOpens : Prop :=
  ∀ s : State, (encode .wOpen).word = 0x00000020#32 ∧
    (s.w.life = .opened → exec .wOpen s = .next (s.respond (.error .invalidArgument))) ∧
    (s.env.sink = false → exec .wOpen s = .next (s.respond (.error .invalidArgument))) ∧
    (s.w.life ≠ .opened → s.env.sink = true →
      exec .wOpen s = .next ((s.withWriter
        { life := .opened, cur := 0#8, pos := 0, sink := some [], emitted := 0 }).respond
          (.delivered 0#64 0#64)))

/-- R152: on an OPEN Writer W.WRITE appends the low n bits of the value, MSB-first, to the bits written; full bytes
are in the sink at once and fewer than 8 bits wait in `W.cur`; only the Writer and the responses change. A count of
0 changes nothing. -/
def Obligations.WriteAppendsField : Prop :=
  ∀ (s : State) (value : Word) (n : Nat), s.w.Inv →
    (encode (.wWrite value n)).word = commandWord 0x21#8 n 0 ∧
    (s.w.life ≠ .opened → exec (.wWrite value n) s = .next (s.respond (.error .useAfterClose))) ∧
    (s.w.life = .opened → 64 < n → exec (.wWrite value n) s = .next (s.respond (.error .invalidArgument))) ∧
    (s.w.life = .opened → n ≤ 64 → ∃ w' : Writer,
      exec (.wWrite value n) s = .next ((s.withWriter w').respond (.delivered 0#64 0#64)) ∧
      w'.written = s.w.written ++ fieldBits n value ∧ w'.pos ≤ 7 ∧ w'.life = .opened ∧
      (∃ l, w'.emittedBytes = s.w.emittedBytes ++ l ∧ w'.emitted = s.w.emitted + l.length) ∧
      (n = 0 → w' = s.w))

/-- R155 and R156: on an OPEN Writer W.WRITEOFF appends the n bits of the value above its low off bits, those above
bit 63 being zeros; a count above 64 or an offset of 64 or more is InvalidArgument, with no effect. -/
def Obligations.WriteOffAppendsField : Prop :=
  ∀ (s : State) (value : Word) (n off : Nat), s.w.Inv →
    (encode (.wWriteOff value n off)).word = commandWord 0x22#8 n off ∧
    (s.w.life ≠ .opened → exec (.wWriteOff value n off) s = .next (s.respond (.error .useAfterClose))) ∧
    (s.w.life = .opened → 64 < n ∨ 64 ≤ off →
      exec (.wWriteOff value n off) s = .next (s.respond (.error .invalidArgument))) ∧
    (s.w.life = .opened → n ≤ 64 → off < 64 → ∃ (w' : Writer) (field : List Bool),
      exec (.wWriteOff value n off) s = .next ((s.withWriter w').respond (.delivered 0#64 0#64)) ∧
      w'.written = s.w.written ++ field ∧ field.length = n ∧
      bitsValue field = value.toNat / 2 ^ off % 2 ^ n ∧
      field.take (off + n - 64) = List.replicate (off + n - 64) false ∧
      w'.pos ≤ 7 ∧ w'.life = .opened ∧
      (∃ l, w'.emittedBytes = s.w.emittedBytes ++ l ∧ w'.emitted = s.w.emitted + l.length) ∧
      (n = 0 → w' = s.w))

/-- R157: W.WRITE of a value and a count up to 64 has the same effect as W.WRITEOFF of them at offset 0. -/
def Obligations.WriteIsWriteOffAtZero : Prop :=
  ∀ (s : State) (value : Word) (n : Nat), n ≤ 64 → exec (.wWrite value n) s = exec (.wWriteOff value n 0) s

/-- R154: the source's two-case description of a chunk gives the byte of R153 in both cases. -/
def Obligations.ChunkPlacementTwoCases : Prop :=
  ∀ (cur : Byte) (v : Word) (pos rem : Nat), pos ≤ 7 → 1 ≤ rem → rem ≤ 64 → v.toNat < 2 ^ rem →
    (rem < 8 - pos →
      placeChunk cur (topBits v rem (min rem (8 - pos))) pos (min rem (8 - pos)) =
        cur ||| (v.setWidth 8 <<< (8 - pos - rem)) ∧ 1 ≤ 8 - pos - rem) ∧
    (8 - pos ≤ rem →
      placeChunk cur (topBits v rem (min rem (8 - pos))) pos (min rem (8 - pos)) =
        cur ||| (v >>> (rem - (8 - pos))).setWidth 8)

/-- R158: W.CLOSE emits the partial byte, if there is one, with its unused low bits zero, and releases the sink; on an
IDLE or CLOSED Writer it emits nothing and answers OK. On a CLOSED Writer every write reports UseAfterClose. Handing
the released sink to the host is the model's
(log entry 2). -/
def Obligations.WriterCloses : Prop :=
  ∀ s : State, (encode .wClose).word = 0x0000002F#32 ∧
    (s.w.life ≠ .opened → exec .wClose s = .next (s.respond (.delivered 0#64 0#64))) ∧
    (∀ sink, s.w.Inv → s.w.life = .opened → s.w.sink = some sink → ∃ out : List Byte,
      exec .wClose s = .next (((s.withWriter
        { life := .closed, cur := 0#8, pos := 0, sink := none, emitted := out.length }).giveSink out).respond
          (.delivered 0#64 0#64)) ∧
      (s.w.pos = 0 → out = sink) ∧ (0 < s.w.pos → out = sink ++ [s.w.cur]) ∧
      bitsOf out = s.w.written ++ List.replicate (8 * out.length - s.w.written.length) false) ∧
    (s.w.life = .closed → ∀ value n off, exec (.wWrite value n) s = .next (s.respond (.error .useAfterClose)) ∧
      exec (.wWriteOff value n off) s = .next (s.respond (.error .useAfterClose)))

/-- R150: every Writer command but W.OPEN and W.CLOSE checks the lifecycle first, then its arguments; a rejected one
changes nothing and emits nothing. -/
def Obligations.WriterRejectsUnchanged : Prop :=
  ∀ (s : State) (i : Instr), i.unit = 2 → i ≠ .wOpen → i ≠ .wClose →
    (s.w.life ≠ .opened → exec i s = .next (s.respond (.error .useAfterClose))) ∧
    (s.w.life = .opened → 64 < i.count ∨ 64 ≤ i.offset →
      exec i s = .next (s.respond (.error .invalidArgument)))

/-- R161: after W.OPEN and any legal writes the sink holds the first ⌊N/8⌋ bytes of the concatenated fields and
`W.pos = N mod 8`; after W.CLOSE it holds exactly ⌈N/8⌉ bytes, the fields' bits followed by zeros. (The
closed instance's sink is read in the host's list, log entry 2.) -/
def Obligations.WriteLaw : Prop :=
  ∀ (s : State) (writes : List Instr), s.w.life ≠ .opened → s.env.sink = true →
    (∀ i ∈ writes, i.isLegalWrite = true) →
    ∃ t u : State, execSeq (.wOpen :: writes) s = .next t ∧ exec .wClose t = .next u ∧
      (let bits := writes.flatMap Instr.writtenBits
       bitsOf t.w.emittedBytes = bits.take (8 * (bits.length / 8)) ∧ t.w.pos = bits.length % 8 ∧
       ∃ sink : List Byte, u.host.sinks = s.host.sinks ++ [sink] ∧ sink.length = (bits.length + 7) / 8 ∧
         bitsOf sink = bits ++ List.replicate (8 * ((bits.length + 7) / 8) - bits.length) false)

/-- R162: values written, with widths up to 64, and the sink's bytes attached as a new source, are read back exactly
by the same widths; then fewer than 8 bits remain, all zero. (The closed instance's sink is read in the host's list,
log entry 2.) -/
def Obligations.WriteReadRoundTrip : Prop :=
  ∀ (s : State) (pairs : List (Word × Nat)), s.w.life ≠ .opened → s.env.sink = true → s.r.life ≠ .opened →
    (∀ p ∈ pairs, p.2 ≤ 64 ∧ p.1.toNat < 2 ^ p.2) →
    ∃ (t : State) (sink : List Byte),
      execSeq (.wOpen :: pairs.map (fun p => .wWrite p.1 p.2) ++ [.wClose]) s = .next t ∧
      t.host.sinks = s.host.sinks ++ [sink] ∧
      ∀ grows : Bool, ∃ t' u : State, hostAct (.attachSource { bytes := sink, grows := grows }) t = .next t' ∧
        execSeq (.rOpen :: pairs.map (fun p => .rRead p.2)) t' = .next u ∧
        u.host.responses = t.host.responses ++
          (.delivered 0#64 0#64 :: pairs.map (fun p => Response.delivered p.1 0#64)) ∧
        u.r.remaining.length < 8 ∧ ∀ b ∈ u.r.remaining, b = false

/-! ### Push Bit Reader -/

/-- R182: P.INIT, legal in every lifecycle state, binds the attached consumer, discards the earlier session and
makes one seed invocation with value 0: a legal answer starts a LIVE session wanting it; an answer outside 1..64
leaves the unit IDLE with InvalidArgument, `P.want` and `P.fail` as they were; with no consumer attached nothing
changes and it is InvalidArgument. Of the rest of the state only the port, and the host's list of released
consumers, can change. The model's own in this: a consumer bound before goes to that list when another was attached
since (log entries 2 and 18); a consumer still bound is seeded in the state it has (log entry 7, from R181); `P.want`
and `P.fail` keep their values after a bad seed (log entry 19). -/
def Obligations.InitSeedsSession : Prop :=
  ∀ s : State, (encode .pInit).word = 0x00000030#32 ∧
    (s.env.cons = .detached → exec .pInit s = .next (s.respond (.error .invalidArgument))) ∧
    (∀ (c c' : Consumer) (w : Byte), s.env.cons.offered s.p.cons = some c → c.ask 0#64 = .width c' w →
      ∃ t : State, exec .pInit s = .next t ∧ t.r = s.r ∧ t.w = s.w ∧ t.env = { s.env with cons := .lent } ∧
        t.host.inbox = s.host.inbox ∧ t.host.sinks = s.host.sinks ∧ t.host.sources = s.host.sources ∧
        (s.env.cons = .lent → t.host.consumers = s.host.consumers) ∧
        (∀ a, s.env.cons = .attached a → t.host.consumers = s.host.consumers ++ s.p.cons.toList) ∧
        (1 ≤ w.toNat ∧ w.toNat ≤ 64 →
          t.p = { life := .live, fail := .ok, acc := 0#64, level := 0, want := w.toNat, cons := some c',
                  inserted := 0 } ∧
          t.host.responses = s.host.responses ++ [.delivered 0#64 0#64]) ∧
        (w.toNat = 0 ∨ 64 < w.toNat →
          t.p = { s.p with life := .idle, acc := 0#64, level := 0, cons := some c', inserted := 0 } ∧
          t.host.responses = s.host.responses ++ [.error .invalidArgument]))

/-- R184: on a LIVE unit whose consumer answers every value with a width in 1..64, a P.INSERT of up to 8 bytes of which
none meets a level of 57 or more (R188) completes. None does where the bytes fit at once (`level + 8n ≤ 64`), where the
width wanted and all answers are at most 57, where the level, the width wanted and all answers are multiples of 8, or
where the level before each byte is at most 56. Then the unit stays LIVE; the consumer has received the new fields, the
first as wide as was wanted, each next one as wide as the consumer answered the one before, and the last answer is the
width now wanted (R183, R44); the bits held before with the inserted bytes' bits are the fields' bits and the bits held
after, fewer than wanted (R45, R191); the accumulator is the bytes shifted in (R183). Only the push reader and the
responses change. -/
def Obligations.InsertCompletes : Prop :=
  ∀ (s : State) (packed : Word) (n : Nat) (c : Consumer), s.p.Inv → s.p.life = .live → n ≤ 8 →
    s.p.cons = some c → c.KeepsSessionAlive →
    (s.p.level + 8 * n ≤ 64 ∨
      s.p.want ≤ 57 ∧ c.Answers (fun w => w.toNat ≤ 57) ∨
      s.p.level % 8 = 0 ∧ s.p.want % 8 = 0 ∧ c.Answers (fun w => w.toNat % 8 = 0) ∨
      ∀ k, k < n → (pSteps askBound s.p.decoder ((unpackBytes packed n).take k)).dec.level ≤ 56) →
    let o := pSteps askBound s.p.decoder (unpackBytes packed n)
    ∃ (p' : Push) (c' : Consumer),
      exec (.pInsert packed n) s = .next ((s.withPush p').respond (.delivered 0#64 0#64)) ∧
      p'.life = .live ∧ p'.fail = s.p.fail ∧ p'.inserted = s.p.inserted + n ∧
      p'.acc = (unpackBytes packed n).foldl (fun (acc : Word) b => (acc <<< 8) ||| zext64 b) s.p.acc ∧
      p'.cons = some c' ∧ c'.behaviour = c.behaviour ∧ c'.received = c.received ++ o.fields ∧
      Answered Consumer.ask c s.p.want o.widths o.fields c' p'.want ∧
      p'.level < p'.want ∧ p'.want ≤ 64 ∧
      s.p.decoder.held ++ bitsOf (unpackBytes packed n) = deliveredBits o.widths o.fields ++ p'.decoder.held

/-- R184, the rejections: IDLE is UseAfterClose, FAILED the stored code, and more than 8 bytes on a LIVE unit
InvalidArgument, in this order, and nothing changes. -/
def Obligations.InsertRejectsUnchanged : Prop :=
  ∀ (s : State) (packed : Word) (n : Nat),
    (s.p.life = .idle → exec (.pInsert packed n) s = .next (s.respond (.error .useAfterClose))) ∧
    (s.p.life = .failed → exec (.pInsert packed n) s = .next (s.respond (.error s.p.fail))) ∧
    (s.p.life = .live → 8 < n → exec (.pInsert packed n) s = .next (s.respond (.error .invalidArgument)))

/-- R186: an insertion that answers an error other than the argument check leaves the unit FAILED with that code,
Overflow or InvalidArgument, and from then on P.INSERT and P.FLUSHBYTE answer the code, change nothing and invoke no
consumer. -/
def Obligations.FailedSessionStaysFailed : Prop :=
  (∀ (s t : State) (packed : Word) (n : Nat) (e : Status), s.p.life = .live → n ≤ 8 →
    exec (.pInsert packed n) s = .next (t.respond (.error e)) →
      t.p.life = .failed ∧ t.p.fail = e ∧ (e = .overflow ∨ e = .invalidArgument)) ∧
  (∀ (s : State) (i : Instr), s.p.life = .failed → i.unit = 3 → i ≠ .pInit →
    exec i s = .next (s.respond (.error s.p.fail)))

/-- R184, R239, the effect a failing insertion leaves, for any consumer: on Overflow, exactly what the bytes before the
failing one do; on an out-of-range answer, the field delivered, the level lowered and `P.want` unchanged. -/
def Obligations.FailingInsertionEffect : Prop :=
  ∀ (σ : Type) (c : σ → Word → Answer σ) (d : Decoder σ) (bytes : List Byte),
    1 ≤ d.want ∧ d.want ≤ 64 → d.level ≤ 64 →
    ((pSteps c d bytes).stop = some .overflow → ∃ done b rest, bytes = done ++ b :: rest ∧
      (pSteps c d done).stop = none ∧ 57 ≤ (pSteps c d done).dec.level ∧
      pSteps c d bytes = { pSteps c d done with stop := some .overflow }) ∧
    ((pSteps c d bytes).stop = some .badWidth → ∃ (before : Decoder σ) (q : σ) (w : Byte),
      before.want ≤ before.level ∧ (w.toNat = 0 ∨ 64 < w.toNat) ∧
      c before.cons (topField before.acc before.level before.want) = .width q w ∧
      (pSteps c d bytes).dec = { before with level := before.level - before.want, cons := q } ∧
      (pSteps c d bytes).fields.getLast? = some (topField before.acc before.level before.want))

/-- R188: a byte overflows exactly at a level of 57 or more; there the wanted width is 58 or more and the level no
multiple of 8; so it never happens while every answered width is at most 57, nor while every one is a multiple of
8. The rule's example overflows at its ninth byte. -/
def Obligations.OverflowCondition : Prop :=
  (∀ (σ : Type) (c : σ → Word → Answer σ) (d : Decoder σ) (b : Byte), 1 ≤ d.want ∧ d.want ≤ 64 →
    ((pStep c d b).stop = some .overflow ↔ 57 ≤ d.level) ∧
    (d.level < d.want → (pStep c d b).stop = some .overflow → 58 ≤ d.want ∧ d.level % 8 ≠ 0)) ∧
  (∀ (σ : Type) (c : σ → Word → Answer σ) (d : Decoder σ) (bytes : List Byte), 1 ≤ d.want ∧ d.level < d.want →
    ((∀ q v q' w, c q v = .width q' w → w.toNat ≤ 57) → d.want ≤ 57 →
      (pSteps c d bytes).stop ≠ some .overflow) ∧
    ((∀ q v q' w, c q v = .width q' w → w.toNat % 8 = 0) → d.want ≤ 64 → d.want % 8 = 0 → d.level % 8 = 0 →
      (pSteps c d bytes).stop ≠ some .overflow)) ∧
  (let c : Unit → Word → Answer Unit := fun _ _ => .width () 64#8
   let o1 := pSteps c ⟨0#64, 0, 3, (), 0⟩ [0xFF#8]
   let o8 := pSteps c ⟨0#64, 0, 3, (), 0⟩ (List.replicate 8 0xFF#8)
   let o9 := pSteps c ⟨0#64, 0, 3, (), 0⟩ (List.replicate 9 0xFF#8)
   o1.stop = none ∧ o1.fields = [7#64] ∧ o1.dec.level = 5 ∧ o8.stop = none ∧
   o8.fields = [7#64] ∧ o8.dec.level = 61 ∧ o9.stop = some .overflow)

/-- R187: inserting `l` and then `l'` makes the same invocations with the same values and leaves the same push
reader as inserting `l ++ l'` at once; a failure of the single command is a failure of the pair at the same byte,
and where the first command fails the second reports the stored code; where the single command never ends, neither
does the pair. -/
def Obligations.ChunkingIndependence : Prop :=
  ∀ (s : State) (l l' : List Byte), s.p.life = .live → l.length + l'.length ≤ 8 →
    (∀ t, exec (insertBytes (l ++ l')) s = .next t → ∃ (t1 t2 : State) (r1 r : Response),
      exec (insertBytes l) s = .next t1 ∧ exec (insertBytes l') t1 = .next t2 ∧ t2.p = t.p ∧
      t.host.responses = s.host.responses ++ [r] ∧ t2.host.responses = s.host.responses ++ [r1, r] ∧
      (r1 = .delivered 0#64 0#64 ∨ r1 = r ∧ t1.p = t.p)) ∧
    (∀ f, exec (insertBytes (l ++ l')) s = .fault f → execSeq [insertBytes l, insertBytes l'] s = .fault f) ∧
    (∀ f, exec (insertBytes (l ++ l')) s = .refused f → execSeq [insertBytes l, insertBytes l'] s = .refused f)

/-- R92 with R187 and R186: P.INSERTN of any number of bytes does what folding the bytes in one by one does. Where that
ends OK, every command of the expansion answers OK and the push reader is the one it leaves. Where it ends in Overflow or
on an out-of-range answer, the expansion still ends: the commands before the failing one answer OK, the failing one and
all later ones report the code, and the push reader is FAILED with the code and the decoder's registers. Where an
invocation never ends, or is broken into, the expansion stops so: that the run then ends in the outcomes
`fault consumerSilent` (R181 calls a silent consumer stuck, not a fault), `refused reentrantCommand` and
`refused resetDuringCommand`, as replies of a consumer, is the model's choice (log entry 16). -/
def Obligations.InsertManyIsOneInsertion : Prop :=
  ∀ (s : State) (bytes : List Byte), s.p.life = .live →
    let o := pSteps askBound s.p.decoder bytes
    let commands := insertManyPseudo bytes
    (o.stop = none → ∃ t : State, execSeq commands s = .next t ∧ t.p = s.p.withDecoder o.dec ∧
      t.host.responses = s.host.responses ++ List.replicate commands.length (.delivered 0#64 0#64)) ∧
    (∀ e, o.stop = some .overflow ∧ e = .overflow ∨ o.stop = some .badWidth ∧ e = .invalidArgument →
      ∃ (t : State) (k : Nat), k < commands.length ∧ execSeq commands s = .next t ∧
        t.p = { s.p.withDecoder o.dec with life := .failed, fail := e } ∧
        t.host.responses = s.host.responses ++ List.replicate k (.delivered 0#64 0#64) ++
          List.replicate (commands.length - k) (.error e)) ∧
    (o.stop = some .silent → execSeq commands s = .fault .consumerSilent) ∧
    (o.stop = some .commandIssued → execSeq commands s = .refused .reentrantCommand) ∧
    (o.stop = some .resetApplied → execSeq commands s = .refused .resetDuringCommand)

/-- R191 with R183 and R44: for any consumer, every delivered field is below 2^width for the width it was extracted with;
the bits held before with the bits of the bytes folded in are the fields' bits, each its width long, and the bits still
held. The first field is as wide as was wanted and each next one as wide as the answer to the one before; after an end
with OK or Overflow the last answer is the width now wanted; any other end is what the consumer did on the last field,
and that field's width stays the one wanted. -/
def Obligations.DeliveredBitsConserved : Prop :=
  ∀ (σ : Type) (c : σ → Word → Answer σ) (d : Decoder σ) (bytes : List Byte),
    1 ≤ d.want ∧ d.want ≤ 64 → d.level ≤ 64 →
    (let o := pSteps c d bytes
     o.widths.length = o.fields.length ∧ (∀ wf ∈ List.zip o.widths o.fields, wf.2.toNat < 2 ^ wf.1) ∧
     d.held ++ bitsOf (bytes.take (o.dec.inserted - d.inserted)) = deliveredBits o.widths o.fields ++ o.dec.held ∧
     (o.stop = none → o.dec.inserted = d.inserted + bytes.length) ∧
     (o.stop = none ∨ o.stop = some .overflow →
       Answered c d.cons d.want o.widths o.fields o.dec.cons o.dec.want) ∧
     (∀ stop, o.stop = some stop → stop ≠ .overflow → ∃ (widths : List Nat) (fields : List Word) (f : Word) (q : σ),
       o.widths = widths ++ [o.dec.want] ∧ o.fields = fields ++ [f] ∧
       Answered c d.cons d.want widths fields q o.dec.want ∧
       (stop = .badWidth → ∃ w, c q f = .width o.dec.cons w ∧ (w.toNat = 0 ∨ 64 < w.toNat)) ∧
       (stop = .silent → c q f = .silent) ∧ (stop = .commandIssued → c q f = .commandIssued) ∧
       (stop = .resetApplied → c q f = .resetApplied)))

/-- R189: every invocation takes at least one bit off the level, so one byte makes at most `level + 8 ≤ 64`
invocations, and n bytes on a level of at most 63 at most `63 + 8n`. -/
def Obligations.InvocationBounds : Prop :=
  ∀ (σ : Type) (c : σ → Word → Answer σ) (d : Decoder σ), 1 ≤ d.want ∧ d.want ≤ 64 → d.level ≤ 63 →
    (∀ b, (pStep c d b).fields.length + (pStep c d b).dec.level ≤ d.level + 8 ∧ (pStep c d b).fields.length ≤ 64) ∧
    (∀ bytes : List Byte, (pSteps c d bytes).fields.length ≤ 63 + 8 * bytes.length)

/-- R185: P.FLUSHBYTE on a LIVE unit drops the oldest `level % 8` valid bits and touches nothing else; IDLE is
UseAfterClose and FAILED the stored code. -/
def Obligations.FlushByteDropsToBoundary : Prop :=
  ∀ s : State, (encode .pFlushByte).word = 0x00000032#32 ∧
    (s.p.life = .idle → exec .pFlushByte s = .next (s.respond (.error .useAfterClose))) ∧
    (s.p.life = .failed → exec .pFlushByte s = .next (s.respond (.error s.p.fail))) ∧
    (s.p.life = .live → ∃ p' : Push,
      exec .pFlushByte s = .next ((s.withPush p').respond (.delivered 0#64 0#64)) ∧
      p' = { s.p with level := s.p.level - s.p.level % 8 } ∧ p'.level % 8 = 0 ∧
      p'.decoder.held = s.p.decoder.held.drop (s.p.level % 8))

/-! ### The whole machine -/

/-- R51: every element after hardware reset. (What is attached after reset, and the model's own lists, are the
model's choice, log entries 1, 2 and 4, and no part of this.) -/
def Obligations.ResetValues : Prop :=
  State.reset.r.life = .idle ∧ State.reset.r.cur = 0#8 ∧ State.reset.r.pos = 8 ∧ State.reset.r.src = none ∧
  State.reset.w.life = .idle ∧ State.reset.w.cur = 0#8 ∧ State.reset.w.pos = 0 ∧ State.reset.w.sink = none ∧
  State.reset.p.life = .idle ∧ State.reset.p.fail.code = 0#3 ∧ State.reset.p.acc = 0#64 ∧ State.reset.p.level = 0 ∧
  State.reset.p.want = 1 ∧ State.reset.p.cons = none

/-- R260, R261: reset between commands puts every unit at its reset value; it answers nothing, the sink of an open
Writer keeps the bytes emitted and loses the partial one, bytes not fetched stay in the released source, and the
consumer is handed back as it is, with no invocation. The model's own in this: what is attached stays attached
(log entry 4), whether a unit held it or not, an ended sink goes to the host's list (log entry 2), and a released
source or consumer stays the attached one where it was and else goes to the host's list (log entries 2 and 18). -/
def Obligations.ResetIsNotClose : Prop :=
  ∀ s : State, ∃ t : State, hostAct .reset s = .next t ∧
    t.r = Reader.reset ∧ t.w = Writer.reset ∧ t.p = Push.reset ∧
    t.host.responses = s.host.responses ∧ t.host.inbox = s.host.inbox ∧
    t.host.sinks = s.host.sinks ++ s.w.sink.toList ∧ t.env.sink = s.env.sink ∧
    (s.r.src = none → t.env.src = s.env.src ∧ t.host.sources = s.host.sources) ∧
    (s.p.cons = none → t.env.cons = s.env.cons ∧ t.host.consumers = s.host.consumers) ∧
    (∀ src, s.r.src = some src → s.env.src = .lent → t.env.src = .attached src ∧ t.host.sources = s.host.sources) ∧
    (∀ src, s.r.src = some src → s.env.src ≠ .lent →
      t.env.src = s.env.src ∧ t.host.sources = s.host.sources ++ [src]) ∧
    (∀ c, s.p.cons = some c → s.env.cons = .lent →
      t.env.cons = .attached c ∧ t.host.consumers = s.host.consumers) ∧
    (∀ c, s.p.cons = some c → s.env.cons ≠ .lent →
      t.env.cons = s.env.cons ∧ t.host.consumers = s.host.consumers ++ [c])

/-- The invariants of R35, R37, R38, R43 to R46 and of the bindings hold at reset. -/
def Obligations.InvariantHoldsAtReset : Prop := State.reset.Inv

/-- The invariants of R35, R37, R38, R43 to R46 and of the bindings hold after every step from a state in which they
hold, whatever the event. -/
def Obligations.StepKeepsInvariant : Prop :=
  ∀ s s' : State, s.Inv → step s = .next s' → s'.Inv

/-- R48, R80, R86, R234: a command that ends returns exactly one response; where `st` is not OK or `ok` is 0 both
results are 0; but for the Try forms `ok` is 1 exactly when `st` is OK; the block never answers FormatError; and only
BB.POP has a second result. -/
def Obligations.OneResponsePerCommand : Prop :=
  ∀ (i : Instr) (s t : State), s.p.Inv → exec i s = .next t → ∃ resp : Response,
    t.host.responses = s.host.responses ++ [resp] ∧
    (resp.st ≠ .ok ∨ resp.ok = false → resp.r0 = 0#64 ∧ resp.r1 = 0#64) ∧
    ((∀ n, i ≠ .rTryRead n) → i ≠ .rTryPeek → (resp.ok = true ↔ resp.st = .ok)) ∧
    (resp.ok = true → resp.st = .ok) ∧ resp.st ≠ .formatError ∧
    (resp.r1 ≠ 0#64 → ∃ host n, i = .bbPop host n)

/-- R247: a command of one unit neither writes nor reads another unit's state: with the other units in any other
state it does the same and leaves them so. The other units' inputs, and the events to come, are untouched too. -/
def Obligations.UnitsAreIndependent : Prop :=
  ∀ (i : Instr) (s t : State) (r : Reader) (w : Writer) (p : Push), exec i s = .next t →
    (i.unit = 1 → t.w = s.w ∧ t.p = s.p ∧ t.env.sink = s.env.sink ∧ t.env.cons = s.env.cons ∧
      t.host.sinks = s.host.sinks ∧ t.host.consumers = s.host.consumers ∧ t.host.inbox = s.host.inbox ∧
      exec i ((s.withWriter w).withPush p) = .next ((t.withWriter w).withPush p)) ∧
    (i.unit = 2 → t.r = s.r ∧ t.p = s.p ∧ t.env = s.env ∧ t.host.sources = s.host.sources ∧
      t.host.consumers = s.host.consumers ∧ t.host.inbox = s.host.inbox ∧
      exec i ((s.withReader r).withPush p) = .next ((t.withReader r).withPush p)) ∧
    (i.unit = 3 → t.r = s.r ∧ t.w = s.w ∧ t.env.src = s.env.src ∧ t.env.sink = s.env.sink ∧
      t.host.sinks = s.host.sinks ∧ t.host.sources = s.host.sources ∧ t.host.inbox = s.host.inbox ∧
      exec i ((s.withReader r).withWriter w) = .next ((t.withReader r).withWriter w))

/-- R39, R128, R159, R180, R260: what can change a lifecycle. Of the commands: R.OPEN and R.CLOSE, W.OPEN and W.CLOSE (so
that a command leaves CLOSED, the one-shot flag, only as a new W.OPEN), P.INIT, and an insertion that fails a LIVE
session. Of the acts of the host and the environment: reset alone, which makes all three IDLE. A word that is no
command changes none. -/
def Obligations.LifecycleChanges : Prop :=
  (∀ (i : Instr) (s t : State), exec i s = .next t →
    (t.r.life ≠ s.r.life →
      i = .rOpen ∧ t.r.life = .opened ∨ i = .rClose ∧ s.r.life = .opened ∧ t.r.life = .closed) ∧
    (t.w.life ≠ s.w.life →
      i = .wOpen ∧ t.w.life = .opened ∨ i = .wClose ∧ s.w.life = .opened ∧ t.w.life = .closed) ∧
    (t.p.life ≠ s.p.life →
      i = .pInit ∧ (t.p.life = .live ∨ t.p.life = .idle) ∨
      (∃ packed n, i = .pInsert packed n) ∧ s.p.life = .live ∧ t.p.life = .failed)) ∧
  (∀ (a : HostAct) (s t : State), hostAct a s = .next t →
    (a = .reset → t.r.life = .idle ∧ t.w.life = .idle ∧ t.p.life = .idle) ∧
    (a ≠ .reset → t.r.life = s.r.life ∧ t.w.life = s.w.life ∧ t.p.life = s.p.life)) ∧
  (∀ (c : Command) (e : Illegal) (s t : State), decode c = .error e → runCommand c s = .next t →
    t.r.life = s.r.life ∧ t.w.life = s.w.life ∧ t.p.life = s.p.life)

/-- R181, R271, R274: a command whose consumer answers every invocation always ends: with every consumer the command
could invoke answering, `exec` answers a next state for every command. -/
def Obligations.CommandsEndIfConsumerAnswers : Prop :=
  ∀ (i : Instr) (s : State), s.p.Inv →
    (∀ c, s.p.cons = some c → c.AlwaysAnswers) →
    (∀ c, s.env.cons = .attached c → c.AlwaysAnswers) →
    ∃ t, exec i s = .next t

/-- R89, R181, R260: the only stops of a command are a consumer that never answers, a command issued during an
invocation and a reset during one, and only P.INIT and P.INSERT can meet them; each is met by P.INIT when that is
what happens at the seed. That a silent consumer (which R181 calls stuck, not a fault) ends the run in the outcome
`fault consumerSilent`, and that the three events are replies of a consumer, is the model's choice (log entry 16). -/
def Obligations.StopsOnlyInsideInvocations : Prop :=
  (∀ (i : Instr) (s : State) (f : Fault), exec i s = .fault f →
    f = .consumerSilent ∧ (i = .pInit ∨ ∃ packed n, i = .pInsert packed n)) ∧
  (∀ (i : Instr) (s : State) (f : Refusal), exec i s = .refused f →
    (f = .reentrantCommand ∨ f = .resetDuringCommand) ∧ (i = .pInit ∨ ∃ packed n, i = .pInsert packed n)) ∧
  (∀ (s : State) (c : Consumer), s.env.cons.offered s.p.cons = some c →
    (c.ask 0#64 = .silent → exec .pInit s = .fault .consumerSilent) ∧
    (c.ask 0#64 = .commandIssued → exec .pInit s = .refused .reentrantCommand) ∧
    (c.ask 0#64 = .resetApplied → exec .pInit s = .refused .resetDuringCommand))

/-- R61, R63, R74: bytes appended to a growing source the Reader owns join the end of its bytes, so that they follow
the remaining bits, and nothing else changes; with `SOURCE_GROWS = false` an append to an owned source, and any other
agent's access to an owned stream, is refused. The model's choice for a stream no OPEN unit owns (log entry 15): an
append adds to the attached source, or does nothing where none is attached, and another agent's access does nothing. -/
def Obligations.OwnedStreamsTakeOnlyAppends : Prop :=
  ∀ s : State,
    (∀ (bytes : List Byte) (src : ByteSource), s.r.life = .opened → s.r.src = some src →
      (src.grows = true →
        hostAct (.growSource bytes) s =
          .next (s.withReader { s.r with src := some { src with bytes := src.bytes ++ bytes } }) ∧
        ({ s.r with src := some { src with bytes := src.bytes ++ bytes } } : Reader).remaining =
          s.r.remaining ++ bitsOf bytes) ∧
      (src.grows = false → hostAct (.growSource bytes) s = .refused .ownedStreamTouched)) ∧
    (∀ (bytes : List Byte), s.r.life ≠ .opened →
      (∀ src, s.env.src = .attached src → hostAct (.growSource bytes) s =
        .next (s.withSrcPort (.attached { src with bytes := src.bytes ++ bytes }))) ∧
      ((∀ src, s.env.src ≠ .attached src) → hostAct (.growSource bytes) s = .next s)) ∧
    (s.r.life = .opened → hostAct (.foreignAccess .source) s = .refused .ownedStreamTouched) ∧
    (s.r.life ≠ .opened → hostAct (.foreignAccess .source) s = .next s) ∧
    (s.w.life = .opened → hostAct (.foreignAccess .sink) s = .refused .ownedStreamTouched) ∧
    (s.w.life ≠ .opened → hostAct (.foreignAccess .sink) s = .next s)

/-! ### Host-side text and pseudo-commands -/

/-- R216: parsing the rendering of a byte list gives the bytes back, and rendering what a rendering parses to gives
the text back. -/
def Obligations.TextRoundTrip : Prop :=
  (∀ bytes : List Byte, parseBinaryString (bytesToText bytes) = .ok bytes) ∧
  (∀ (t : List Char) (bytes : List Byte), (∃ bytes', t = bytesToText bytes') → parseBinaryString t = .ok bytes →
    bytesToText bytes = t)

/-- R217: a rendered value and a rendered byte array differ, by the rule's example; a rendered value parses to its
big-endian byte form, in the number of bytes of R213. -/
def Obligations.RenderedValueParses : Prop :=
  toBinaryString 1#64 = "00000001".toList ∧ bytesToText [0x00#8, 0x01#8] = "00000000 00000001".toList ∧
  ∀ (value : Word) (minBits : Nat), ∃ bytes : List Byte,
    parseBinaryString (toBinaryString value minBits) = .ok bytes ∧
    bytes.length = (max (countUsed value) minBits + 7) / 8 ∧ bitsValue (bitsOf bytes) = value.toNat

/-- R92: the pseudo-commands W.WRITEBIT and R.READBIT are the commands they expand to; P.INSERTN of no byte is
nothing, and else it is P.INSERTs of 1 to 8 bytes whose bytes, in order, are the given ones. -/
def Obligations.PseudoCommandExpansions : Prop :=
  writeBitPseudo true = .wWrite 1#64 1 ∧ writeBitPseudo false = .wWrite 0#64 1 ∧ readBitPseudo = .rRead 1 ∧
  insertManyPseudo [] = [] ∧
  ∀ bytes : List Byte, ∃ chunks : List (List Byte), insertManyPseudo bytes = chunks.map insertBytes ∧
    chunks.flatten = bytes ∧ (∀ chunk ∈ chunks, 1 ≤ chunk.length ∧ chunk.length ≤ 8) ∧
    (∀ chunk ∈ chunks.dropLast, chunk.length = 8)
end

