-- ==== Sys2Proof/Laws/State.lean ====
section
/-! SUPPORT. One lemma per field per update of the state, each true by rfl, so that no proof unfolds a record
update. -/

namespace Sys2Proof.Machine

section WithReader

variable (s : State) (r : Reader)

@[simp] theorem State.withReader_r : (s.withReader r).r = r := rfl
@[simp] theorem State.withReader_w : (s.withReader r).w = s.w := rfl
@[simp] theorem State.withReader_p : (s.withReader r).p = s.p := rfl
@[simp] theorem State.withReader_env : (s.withReader r).env = s.env := rfl
@[simp] theorem State.withReader_host : (s.withReader r).host = s.host := rfl

end WithReader

section WithWriter

variable (s : State) (w : Writer)

@[simp] theorem State.withWriter_r : (s.withWriter w).r = s.r := rfl
@[simp] theorem State.withWriter_w : (s.withWriter w).w = w := rfl
@[simp] theorem State.withWriter_p : (s.withWriter w).p = s.p := rfl
@[simp] theorem State.withWriter_env : (s.withWriter w).env = s.env := rfl
@[simp] theorem State.withWriter_host : (s.withWriter w).host = s.host := rfl

end WithWriter

section WithPush

variable (s : State) (p : Push)

@[simp] theorem State.withPush_r : (s.withPush p).r = s.r := rfl
@[simp] theorem State.withPush_w : (s.withPush p).w = s.w := rfl
@[simp] theorem State.withPush_p : (s.withPush p).p = p := rfl
@[simp] theorem State.withPush_env : (s.withPush p).env = s.env := rfl
@[simp] theorem State.withPush_host : (s.withPush p).host = s.host := rfl

end WithPush

section WithSrcPort

variable (s : State) (port : Port ByteSource)

@[simp] theorem State.withSrcPort_r : (s.withSrcPort port).r = s.r := rfl
@[simp] theorem State.withSrcPort_w : (s.withSrcPort port).w = s.w := rfl
@[simp] theorem State.withSrcPort_p : (s.withSrcPort port).p = s.p := rfl
@[simp] theorem State.withSrcPort_env_src : (s.withSrcPort port).env.src = port := rfl
@[simp] theorem State.withSrcPort_env_sink : (s.withSrcPort port).env.sink = s.env.sink := rfl
@[simp] theorem State.withSrcPort_env_cons : (s.withSrcPort port).env.cons = s.env.cons := rfl
@[simp] theorem State.withSrcPort_host : (s.withSrcPort port).host = s.host := rfl

end WithSrcPort

section WithSinkPort

variable (s : State) (attached : Bool)

@[simp] theorem State.withSinkPort_r : (s.withSinkPort attached).r = s.r := rfl
@[simp] theorem State.withSinkPort_w : (s.withSinkPort attached).w = s.w := rfl
@[simp] theorem State.withSinkPort_p : (s.withSinkPort attached).p = s.p := rfl
@[simp] theorem State.withSinkPort_env_src : (s.withSinkPort attached).env.src = s.env.src := rfl
@[simp] theorem State.withSinkPort_env_sink : (s.withSinkPort attached).env.sink = attached := rfl
@[simp] theorem State.withSinkPort_env_cons : (s.withSinkPort attached).env.cons = s.env.cons := rfl
@[simp] theorem State.withSinkPort_host : (s.withSinkPort attached).host = s.host := rfl

end WithSinkPort

section WithConsPort

variable (s : State) (port : Port Consumer)

@[simp] theorem State.withConsPort_r : (s.withConsPort port).r = s.r := rfl
@[simp] theorem State.withConsPort_w : (s.withConsPort port).w = s.w := rfl
@[simp] theorem State.withConsPort_p : (s.withConsPort port).p = s.p := rfl
@[simp] theorem State.withConsPort_env_src : (s.withConsPort port).env.src = s.env.src := rfl
@[simp] theorem State.withConsPort_env_sink : (s.withConsPort port).env.sink = s.env.sink := rfl
@[simp] theorem State.withConsPort_env_cons : (s.withConsPort port).env.cons = port := rfl
@[simp] theorem State.withConsPort_host : (s.withConsPort port).host = s.host := rfl

end WithConsPort

section WithInbox

variable (s : State) (inbox : List HostEvent)

@[simp] theorem State.withInbox_r : (s.withInbox inbox).r = s.r := rfl
@[simp] theorem State.withInbox_w : (s.withInbox inbox).w = s.w := rfl
@[simp] theorem State.withInbox_p : (s.withInbox inbox).p = s.p := rfl
@[simp] theorem State.withInbox_env : (s.withInbox inbox).env = s.env := rfl
@[simp] theorem State.withInbox_host_inbox : (s.withInbox inbox).host.inbox = inbox := rfl
@[simp] theorem State.withInbox_host_responses : (s.withInbox inbox).host.responses = s.host.responses := rfl
@[simp] theorem State.withInbox_host_sinks : (s.withInbox inbox).host.sinks = s.host.sinks := rfl
@[simp] theorem State.withInbox_host_sources : (s.withInbox inbox).host.sources = s.host.sources := rfl
@[simp] theorem State.withInbox_host_consumers : (s.withInbox inbox).host.consumers = s.host.consumers := rfl

end WithInbox

section GiveSink

variable (s : State) (sink : List Byte)

@[simp] theorem State.giveSink_r : (s.giveSink sink).r = s.r := rfl
@[simp] theorem State.giveSink_w : (s.giveSink sink).w = s.w := rfl
@[simp] theorem State.giveSink_p : (s.giveSink sink).p = s.p := rfl
@[simp] theorem State.giveSink_env : (s.giveSink sink).env = s.env := rfl
@[simp] theorem State.giveSink_host_inbox : (s.giveSink sink).host.inbox = s.host.inbox := rfl
@[simp] theorem State.giveSink_host_responses : (s.giveSink sink).host.responses = s.host.responses := rfl
@[simp] theorem State.giveSink_host_sinks : (s.giveSink sink).host.sinks = s.host.sinks ++ [sink] := rfl
@[simp] theorem State.giveSink_host_sources : (s.giveSink sink).host.sources = s.host.sources := rfl
@[simp] theorem State.giveSink_host_consumers : (s.giveSink sink).host.consumers = s.host.consumers := rfl

end GiveSink

section GiveSource

variable (s : State) (src : ByteSource)

@[simp] theorem State.giveSource_r : (s.giveSource src).r = s.r := rfl
@[simp] theorem State.giveSource_w : (s.giveSource src).w = s.w := rfl
@[simp] theorem State.giveSource_p : (s.giveSource src).p = s.p := rfl
@[simp] theorem State.giveSource_env : (s.giveSource src).env = s.env := rfl
@[simp] theorem State.giveSource_host_inbox : (s.giveSource src).host.inbox = s.host.inbox := rfl
@[simp] theorem State.giveSource_host_responses : (s.giveSource src).host.responses = s.host.responses := rfl
@[simp] theorem State.giveSource_host_sinks : (s.giveSource src).host.sinks = s.host.sinks := rfl
@[simp] theorem State.giveSource_host_sources : (s.giveSource src).host.sources = s.host.sources ++ [src] := rfl
@[simp] theorem State.giveSource_host_consumers : (s.giveSource src).host.consumers = s.host.consumers := rfl

end GiveSource

section GiveConsumer

variable (s : State) (cons : Consumer)

@[simp] theorem State.giveConsumer_r : (s.giveConsumer cons).r = s.r := rfl
@[simp] theorem State.giveConsumer_w : (s.giveConsumer cons).w = s.w := rfl
@[simp] theorem State.giveConsumer_p : (s.giveConsumer cons).p = s.p := rfl
@[simp] theorem State.giveConsumer_env : (s.giveConsumer cons).env = s.env := rfl
@[simp] theorem State.giveConsumer_host_inbox : (s.giveConsumer cons).host.inbox = s.host.inbox := rfl
@[simp] theorem State.giveConsumer_host_responses : (s.giveConsumer cons).host.responses = s.host.responses := rfl
@[simp] theorem State.giveConsumer_host_sinks : (s.giveConsumer cons).host.sinks = s.host.sinks := rfl
@[simp] theorem State.giveConsumer_host_sources : (s.giveConsumer cons).host.sources = s.host.sources := rfl
@[simp] theorem State.giveConsumer_host_consumers : (s.giveConsumer cons).host.consumers = s.host.consumers ++ [cons] := rfl

end GiveConsumer

section Respond

variable (s : State) (resp : Response)

@[simp] theorem State.respond_r : (s.respond resp).r = s.r := rfl
@[simp] theorem State.respond_w : (s.respond resp).w = s.w := rfl
@[simp] theorem State.respond_p : (s.respond resp).p = s.p := rfl
@[simp] theorem State.respond_env : (s.respond resp).env = s.env := rfl
@[simp] theorem State.respond_host_inbox : (s.respond resp).host.inbox = s.host.inbox := rfl
@[simp] theorem State.respond_host_responses : (s.respond resp).host.responses = s.host.responses ++ [resp] := rfl
@[simp] theorem State.respond_host_sinks : (s.respond resp).host.sinks = s.host.sinks := rfl
@[simp] theorem State.respond_host_sources : (s.respond resp).host.sources = s.host.sources := rfl
@[simp] theorem State.respond_host_consumers : (s.respond resp).host.consumers = s.host.consumers := rfl

end Respond

/-! ### Responding commutes with the updates of a unit, and a unit's last update wins -/

section Compose

variable (s : State) (resp : Response) (r r' : Reader) (w w' : Writer) (p p' : Push)

@[simp] theorem State.withReader_self : s.withReader s.r = s := rfl
@[simp] theorem State.withWriter_self : s.withWriter s.w = s := rfl
@[simp] theorem State.withPush_self : s.withPush s.p = s := rfl
@[simp] theorem State.withReader_withReader : (s.withReader r).withReader r' = s.withReader r' := rfl
@[simp] theorem State.withWriter_withWriter : (s.withWriter w).withWriter w' = s.withWriter w' := rfl
@[simp] theorem State.withPush_withPush : (s.withPush p).withPush p' = s.withPush p' := rfl

end Compose

/-- A response tells both the state it was added to and the response. -/
theorem State.respond_inj {s t : State} {resp resp' : Response} (h : s.respond resp = t.respond resp') :
    s = t ∧ resp = resp' := by
  obtain ⟨_, _, _, _, ⟨_, _, _, _, _⟩⟩ := s
  obtain ⟨_, _, _, _, ⟨_, _, _, _, _⟩⟩ := t
  simp only [State.respond, State.mk.injEq, HostSide.mk.injEq] at h
  obtain ⟨rfl, rfl, rfl, rfl, rfl, h, rfl, rfl, rfl⟩ := h
  obtain ⟨rfl, h⟩ := List.append_inj' h rfl
  exact ⟨rfl, by simpa using h⟩

/-! ### The push reader and its decoder (R190) -/

section Decoder

variable (p : Push) (d : Decoder (Option Consumer))

@[simp] theorem Push.decoder_acc : p.decoder.acc = p.acc := rfl
@[simp] theorem Push.decoder_level : p.decoder.level = p.level := rfl
@[simp] theorem Push.decoder_want : p.decoder.want = p.want := rfl
@[simp] theorem Push.decoder_cons : p.decoder.cons = p.cons := rfl
@[simp] theorem Push.decoder_inserted : p.decoder.inserted = p.inserted := rfl
@[simp] theorem Push.withDecoder_life : (p.withDecoder d).life = p.life := rfl
@[simp] theorem Push.withDecoder_fail : (p.withDecoder d).fail = p.fail := rfl
@[simp] theorem Push.withDecoder_acc : (p.withDecoder d).acc = d.acc := rfl
@[simp] theorem Push.withDecoder_level : (p.withDecoder d).level = d.level := rfl
@[simp] theorem Push.withDecoder_want : (p.withDecoder d).want = d.want := rfl
@[simp] theorem Push.withDecoder_cons : (p.withDecoder d).cons = d.cons := rfl
@[simp] theorem Push.withDecoder_inserted : (p.withDecoder d).inserted = d.inserted := rfl
@[simp] theorem Push.decoder_withDecoder : (p.withDecoder d).decoder = d := rfl
@[simp] theorem Push.withDecoder_decoder : p.withDecoder p.decoder = p := rfl
@[simp] theorem Push.withDecoder_withDecoder (d' : Decoder (Option Consumer)) :
    (p.withDecoder d).withDecoder d' = p.withDecoder d' := rfl

end Decoder

end Sys2Proof.Machine
end

