-- ==== Sys2Proof/Laws/Bindings.lean ====
section
/-! SUPPORT. What binding and releasing an agent can do (spec 10_state.md R36, R40; 41_reader.md R127; 42_writer.md R158;
43_push_reader.md R182; 70_reset_and_hazards.md R261). -/

namespace Sys2Proof.Machine

section Release

variable (s : State)

/-- Releasing the source unbinds it and touches nothing of the block beside it (R127). -/
theorem releaseSource_spec :
    (releaseSource s).r = { s.r with src := none } ∧ (releaseSource s).w = s.w ∧ (releaseSource s).p = s.p ∧
      (releaseSource s).env.sink = s.env.sink ∧ (releaseSource s).env.cons = s.env.cons ∧
      (releaseSource s).host.inbox = s.host.inbox ∧ (releaseSource s).host.responses = s.host.responses ∧
      (releaseSource s).host.sinks = s.host.sinks ∧ (releaseSource s).host.consumers = s.host.consumers := by
  unfold releaseSource
  rcases hs : s.r.src with _ | src
  · simp [← hs]
  · rcases s.env.src with _ | a | _ <;> simp

/-- Releasing the sink unbinds it and hands it to the host (R79, R158). -/
theorem releaseSink_spec :
    (releaseSink s).w = { s.w with sink := none } ∧ (releaseSink s).r = s.r ∧ (releaseSink s).p = s.p ∧
      (releaseSink s).env = s.env ∧ (releaseSink s).host.inbox = s.host.inbox ∧
      (releaseSink s).host.responses = s.host.responses ∧ (releaseSink s).host.sources = s.host.sources ∧
      (releaseSink s).host.consumers = s.host.consumers ∧
      (releaseSink s).host.sinks = s.host.sinks ++ s.w.sink.toList := by
  unfold releaseSink
  rcases hs : s.w.sink with _ | sink
  · simp [← hs]
  · simp

/-- Releasing the consumer unbinds it and touches nothing of the block beside it. -/
theorem releaseConsumer_spec :
    (releaseConsumer s).p = { s.p with cons := none } ∧ (releaseConsumer s).r = s.r ∧ (releaseConsumer s).w = s.w ∧
      (releaseConsumer s).env.sink = s.env.sink ∧ (releaseConsumer s).env.src = s.env.src ∧
      (releaseConsumer s).host.inbox = s.host.inbox ∧ (releaseConsumer s).host.responses = s.host.responses ∧
      (releaseConsumer s).host.sinks = s.host.sinks ∧ (releaseConsumer s).host.sources = s.host.sources := by
  unfold releaseConsumer
  rcases hs : s.p.cons with _ | cons
  · simp [← hs]
  · rcases s.env.cons with _ | a | _ <;> simp

/-- What attaching another source, or detaching it, does to the one attached before: the units and the inputs stay
(log entry 20). -/
theorem displaceSource_spec :
    (displaceSource s).r = s.r ∧ (displaceSource s).w = s.w ∧ (displaceSource s).p = s.p ∧
      (displaceSource s).env = s.env ∧ (displaceSource s).host.inbox = s.host.inbox ∧
      (displaceSource s).host.responses = s.host.responses ∧ (displaceSource s).host.sinks = s.host.sinks ∧
      (displaceSource s).host.consumers = s.host.consumers := by
  unfold displaceSource
  rcases s.env.src with _ | a | _ <;> simp

theorem displaceConsumer_spec :
    (displaceConsumer s).r = s.r ∧ (displaceConsumer s).w = s.w ∧ (displaceConsumer s).p = s.p ∧
      (displaceConsumer s).env = s.env ∧ (displaceConsumer s).host.inbox = s.host.inbox ∧
      (displaceConsumer s).host.responses = s.host.responses ∧ (displaceConsumer s).host.sinks = s.host.sinks ∧
      (displaceConsumer s).host.sources = s.host.sources := by
  unfold displaceConsumer
  rcases s.env.cons with _ | a | _ <;> simp

/-- After a release no port says that its agent is bound. -/
theorem releaseSource_port : (s.env.src = .lent → s.r.src.isSome = true) → (releaseSource s).env.src ≠ .lent := by
  intro h
  unfold releaseSource
  rcases hs : s.r.src with _ | src
  · intro hl; simp [hs] at h; exact h hl
  · rcases he : s.env.src with _ | a | _ <;> simp [he]

theorem releaseConsumer_port :
    (s.env.cons = .lent → s.p.cons.isSome = true) → (releaseConsumer s).env.cons ≠ .lent := by
  intro h
  unfold releaseConsumer
  rcases hs : s.p.cons with _ | cons
  · intro hl; simp [hs] at h; exact h hl
  · rcases he : s.env.cons with _ | a | _ <;> simp [he]

/-- Binding the consumer the port offers binds exactly it, and touches nothing of the block beside it (R182). -/
theorem bindConsumer_spec {cons : Consumer} (h : s.env.cons.offered s.p.cons = some cons) :
    (bindConsumer cons s).p = { s.p with cons := some cons } ∧ (bindConsumer cons s).r = s.r ∧
      (bindConsumer cons s).w = s.w ∧ (bindConsumer cons s).env.cons = .lent ∧
      (bindConsumer cons s).env.src = s.env.src ∧ (bindConsumer cons s).env.sink = s.env.sink ∧
      (bindConsumer cons s).host.inbox = s.host.inbox ∧ (bindConsumer cons s).host.responses = s.host.responses ∧
      (bindConsumer cons s).host.sinks = s.host.sinks ∧ (bindConsumer cons s).host.sources = s.host.sources := by
  obtain ⟨hp, hr, hw, hsk, hsr, hi, hre, hsi, hso⟩ := releaseConsumer_spec s
  unfold bindConsumer
  rcases he : s.env.cons with _ | a | _
  · simp [he, Port.offered] at h
  · simp [hr, hw, hsk, hsr, hi, hre, hsi, hso]
  · simp [he]

end Release

/-- Reset puts every element of the block at its value of R51 and hands every bound agent back (R260, R261). -/
theorem resetBlock_units (s : State) :
    (resetBlock s).r = Reader.reset ∧ (resetBlock s).w = Writer.reset ∧ (resetBlock s).p = Push.reset := by
  simp [resetBlock]

end Sys2Proof.Machine
end

