-- ==== Sys2Proof/Laws/Bits.lean ====
section
/-! SUPPORT. Bit strings and the operand forms over them: masks, chunks and fields as bit strings (spec 20_memory.md R67;
00_scope.md R11, R12). -/

namespace Sys2Proof.Machine

/-! ### The value of a bit string -/

theorem bitsValue_foldl (bits : List Bool) (v : Nat) :
    bits.foldl (fun v b => 2 * v + b.toNat) v = v * 2 ^ bits.length + bitsValue bits := by
  induction bits generalizing v with
  | nil => simp [bitsValue]
  | cons b rest ih =>
    rw [bitsValue, List.foldl_cons, List.foldl_cons, ih, ih (2 * 0 + b.toNat), List.length_cons, pow_succ]
    ring

@[simp] theorem bitsValue_nil : bitsValue [] = 0 := rfl

theorem bitsValue_append (l l' : List Bool) : bitsValue (l ++ l') = bitsValue l * 2 ^ l'.length + bitsValue l' := by
  rw [bitsValue, List.foldl_append, bitsValue_foldl l' _, ← bitsValue]

theorem bitsValue_lt (bits : List Bool) : bitsValue bits < 2 ^ bits.length := by
  induction bits using List.reverseRecOn with
  | nil => simp
  | append_singleton l b ih =>
    rw [bitsValue_append, List.length_append]
    have hb : bitsValue [b] < 2 := by cases b <;> decide
    simp only [List.length_singleton, pow_succ, pow_zero]
    omega

/-! ### Lengths -/

@[simp] theorem byteBits_length (b : Byte) : (byteBits b).length = 8 := by simp [byteBits]

@[simp] theorem fieldBits_length (n : Nat) (v : Word) : (fieldBits n v).length = n := by simp [fieldBits]

@[simp] theorem fieldBits_zero (v : Word) : fieldBits 0 v = [] := rfl

@[simp] theorem bitsOf_nil : bitsOf [] = [] := rfl

@[simp] theorem bitsOf_cons (b : Byte) (bs : List Byte) : bitsOf (b :: bs) = byteBits b ++ bitsOf bs := rfl

@[simp] theorem bitsOf_append (l l' : List Byte) : bitsOf (l ++ l') = bitsOf l ++ bitsOf l' := by
  simp [bitsOf]

@[simp] theorem bitsOf_length (bs : List Byte) : (bitsOf bs).length = 8 * bs.length := by
  induction bs with
  | nil => rfl
  | cons b rest ih => simp [ih]; omega

/-! ### Masks (R11) -/

theorem mask_toNat {n : Nat} (h : n ≤ 64) : (mask n).toNat = 2 ^ n - 1 := by
  have := Nat.pow_le_pow_right (n := 2) (by omega) h
  have := Nat.two_pow_pos n
  rw [mask, BitVec.toNat_ofNat]
  exact Nat.mod_eq_of_lt (by omega)

theorem byteMask_toNat {n : Nat} (h : n ≤ 8) : (byteMask n).toNat = 2 ^ n - 1 := by
  have := Nat.pow_le_pow_right (n := 2) (by omega) h
  have := Nat.two_pow_pos n
  rw [byteMask, BitVec.toNat_ofNat]
  exact Nat.mod_eq_of_lt (by omega)

theorem getLsbD_mask (n i : Nat) : (mask n).getLsbD i = (decide (i < n) && decide (i < 64)) := by
  rw [mask, BitVec.getLsbD_ofNat, Nat.testBit_two_pow_sub_one, Bool.and_comm]

theorem getLsbD_byteMask (n i : Nat) : (byteMask n).getLsbD i = (decide (i < n) && decide (i < 8)) := by
  rw [byteMask, BitVec.getLsbD_ofNat, Nat.testBit_two_pow_sub_one, Bool.and_comm]

theorem and_mask_toNat (v : Word) {n : Nat} (h : n ≤ 64) : (v &&& mask n).toNat = v.toNat % 2 ^ n := by
  rw [BitVec.toNat_and, mask_toNat h, Nat.and_two_pow_sub_one_eq_mod]

/-! ### Fields as bit strings -/

theorem fieldBits_getElem {n : Nat} (v : Word) {i : Nat} (h : i < (fieldBits n v).length) :
    (fieldBits n v)[i] = v.getLsbD (n - 1 - i) := by simp [fieldBits]

theorem fieldBits_congr {n : Nat} {v v' : Word} (h : ∀ i < n, v.getLsbD i = v'.getLsbD i) :
    fieldBits n v = fieldBits n v' := by
  refine List.map_congr_left fun i hi => h _ ?_
  have := List.mem_range.mp hi
  omega

/-- A field does not read the bits above it. -/
@[simp] theorem fieldBits_and_mask (n : Nat) (v : Word) : fieldBits n (v &&& mask n) = fieldBits n v := by
  refine fieldBits_congr fun i hi => ?_
  by_cases h : i < 64
  · simp [getLsbD_mask, hi, h]
  · rw [BitVec.getLsbD_of_ge _ _ (Nat.le_of_not_lt h), BitVec.getLsbD_of_ge _ _ (Nat.le_of_not_lt h)]

/-- A field of `m + k` bits is its top `m` bits, then its low `k` bits. -/
theorem fieldBits_add (m k : Nat) (v : Word) : fieldBits (m + k) v = fieldBits m (v >>> k) ++ fieldBits k v := by
  refine List.ext_getElem (by simp) fun i h1 h2 => ?_
  rw [fieldBits_getElem]
  by_cases hi : i < m
  · rw [List.getElem_append_left (by simpa using hi), fieldBits_getElem, BitVec.getLsbD_ushiftRight]
    congr 1
    omega
  · have h3 : i < m + k := by simpa using h1
    rw [List.getElem_append_right (by simpa using Nat.le_of_not_lt hi), fieldBits_getElem, fieldBits_length]
    congr 1
    omega

theorem fieldBits_succ (n : Nat) (v : Word) : fieldBits (n + 1) v = v.getLsbD n :: fieldBits n v := by
  rw [Nat.add_comm, fieldBits_add]
  simp [fieldBits]

/-- The value of a field is the low bits of the word (R67). -/
theorem bitsValue_fieldBits (n : Nat) (v : Word) : bitsValue (fieldBits n v) = v.toNat % 2 ^ n := by
  induction n with
  | zero => simp [Nat.mod_one]
  | succ n ih =>
    rw [fieldBits_succ, ← List.singleton_append, bitsValue_append, fieldBits_length, ih, Nat.mod_pow_succ, ← Nat.toNat_testBit]
    have : bitsValue [v.getLsbD n] = (v.toNat.testBit n).toNat := by
      rw [BitVec.getLsbD]
      cases v.toNat.testBit n <;> rfl
    rw [this]
    ring

/-- A byte's bits from position `pos` on are those of its chunk, then the rest (R122). -/
theorem byteBits_drop {b : Byte} {pos chunk : Nat} (h : pos + chunk ≤ 8) :
    (byteBits b).drop pos = fieldBits chunk (zext64 (takeChunk b pos chunk)) ++ (byteBits b).drop (pos + chunk) := by
  refine List.ext_getElem (by simp; omega) fun i h1 h2 => ?_
  simp only [List.length_drop, byteBits_length] at h1
  by_cases hi : i < chunk
  · rw [List.getElem_append_left (by simpa using hi), fieldBits_getElem]
    simp only [byteBits, List.getElem_drop, List.getElem_map, List.getElem_range, zext64, takeChunk,
      BitVec.getLsbD_setWidth, BitVec.getLsbD_and, BitVec.getLsbD_ushiftRight, getLsbD_byteMask]
    rw [show 8 - pos - chunk + (chunk - 1 - i) = 7 - (pos + i) by omega]
    have h3 : chunk - 1 - i < chunk := by omega
    have h4 : chunk - 1 - i < 8 := by omega
    have h5 : chunk - 1 - i < 64 := by omega
    simp [h3, h4, h5]
  · rw [List.getElem_append_right (by simpa using Nat.le_of_not_lt hi)]
    simp only [byteBits, List.getElem_drop, List.getElem_map, List.getElem_range, fieldBits_length]
    congr 1
    omega

theorem zext64_takeChunk_lt (b : Byte) (pos : Nat) {chunk : Nat} (h : chunk ≤ 8) :
    (zext64 (takeChunk b pos chunk)).toNat < 2 ^ chunk := by
  rw [zext64, takeChunk, BitVec.toNat_setWidth, BitVec.toNat_and, byteMask_toNat h, Nat.and_two_pow_sub_one_eq_mod]
  exact Nat.lt_of_le_of_lt (Nat.mod_le _ _) (Nat.mod_lt _ (Nat.two_pow_pos _))

/-- Shifting in a field appends it to the value's bits. -/
theorem shift_or_toNat (x y : Word) {n : Nat} (hy : y.toNat < 2 ^ n) :
    ((x <<< n) ||| y) = BitVec.ofNat 64 (x.toNat * 2 ^ n + y.toNat) := by
  apply BitVec.eq_of_toNat_eq
  have h1 : x.toNat * 2 ^ n + y.toNat = (x.toNat <<< n) ||| y.toNat := by
    rw [← Nat.shiftLeft_add_eq_or_of_lt hy, Nat.shiftLeft_eq]
  rw [BitVec.toNat_or, BitVec.toNat_shiftLeft, BitVec.toNat_ofNat, h1, Nat.or_mod_two_pow,
    Nat.mod_eq_of_lt (show y.toNat < 2 ^ 64 from y.isLt)]

/-- A gathered prefix, with a chunk of at most 8 more bits shifted in, is the longer prefix (R121). -/
theorem gather_chunk (bits : List Bool) (b : Byte) (pos : Nat) {chunk : Nat} (h : chunk ≤ 8) :
    (BitVec.ofNat 64 (bitsValue bits) <<< chunk) ||| zext64 (takeChunk b pos chunk) =
      BitVec.ofNat 64 (bitsValue (bits ++ fieldBits chunk (zext64 (takeChunk b pos chunk)))) := by
  have hlt := zext64_takeChunk_lt b pos h
  rw [shift_or_toNat _ _ hlt, bitsValue_append, fieldBits_length, bitsValue_fieldBits,
    Nat.mod_eq_of_lt hlt]
  apply BitVec.eq_of_toNat_eq
  rw [BitVec.toNat_ofNat, BitVec.toNat_ofNat, BitVec.toNat_ofNat, Nat.add_mod, Nat.mul_mod, Nat.mod_mod,
    ← Nat.mul_mod, ← Nat.add_mod]

end Sys2Proof.Machine
end

