-- ==== Sys2Proof/Laws/PerInstr.lean ====
section
/-! SUPPORT. The fields of an encoded command (spec 30_encoding.md R81, R82, R84), one lemma per command. -/

namespace Sys2Proof

/-! ### A command word's fields are the ones it was made of -/

theorem opField_commandWord (op : Byte) (n off : Nat) : opField (commandWord op n off) = op := by
  refine BitVec.eq_of_getLsbD_eq fun i hi => ?_
  have h1 : i < 32 := by omega
  have h2 : i < 16 := by omega
  simp [opField, commandWord, hi, h1, h2]

theorem countField_commandWord (op : Byte) {n : Nat} (off : Nat) (h : n < 256) :
    countField (commandWord op n off) = n := by
  have : (commandWord op n off).extractLsb' 8 8 = BitVec.ofNat 8 n := by
    refine BitVec.eq_of_getLsbD_eq fun i hi => ?_
    have h1 : 8 + i < 32 := by omega
    have h2 : 8 + i < 16 := by omega
    simp [commandWord, hi, h1, h2]
  rw [countField, this, BitVec.toNat_ofNat]
  exact Nat.mod_eq_of_lt h

theorem offsetField_commandWord (op : Byte) (n : Nat) {off : Nat} (h : off < 256) :
    offsetField (commandWord op n off) = off := by
  have : (commandWord op n off).extractLsb' 16 8 = BitVec.ofNat 8 off := by
    refine BitVec.eq_of_getLsbD_eq fun i hi => ?_
    have h1 : 16 + i < 32 := by omega
    have h2 : op.getLsbD (16 + i) = false := BitVec.getLsbD_of_ge _ _ (by omega)
    have h3 : (BitVec.ofNat 8 n).getLsbD (16 + i - 8) = false := BitVec.getLsbD_of_ge _ _ (by omega)
    simp [commandWord, hi, h1, h2, h3]
  rw [offsetField, this, BitVec.toNat_ofNat]
  exact Nat.mod_eq_of_lt h

theorem reservedField_commandWord (op : Byte) (n off : Nat) : reservedField (commandWord op n off) = 0 := by
  have : (commandWord op n off).extractLsb' 24 8 = 0#8 := by
    refine BitVec.eq_of_getLsbD_eq fun i hi => ?_
    have h1 : 24 + i < 32 := by omega
    have h2 : op.getLsbD (24 + i) = false := BitVec.getLsbD_of_ge _ _ (by omega)
    have h3 : (BitVec.ofNat 8 n).getLsbD (24 + i - 8) = false := BitVec.getLsbD_of_ge _ _ (by omega)
    have h4 : (BitVec.ofNat 8 off).getLsbD (24 + i - 16) = false := BitVec.getLsbD_of_ge _ _ (by omega)
    simp [commandWord, h1, h2, h3, h4]
  rw [reservedField, this]; rfl

/-! ### The family `EncodedFields` -/

/-- The encoded word holds the command's opcode, COUNT and OFFSET in their fields, and nothing in `RSV`. -/
def Laws.EncodedFields.Statement (i : Instr) : Prop :=
  i.WellFormed → opField (encode i).word = i.opcode ∧ countField (encode i).word = i.count ∧
    offsetField (encode i).word = i.offset ∧ reservedField (encode i).word = 0

namespace Laws.EncodedFields

/-- Every command whose COUNT and OFFSET fit their fields. -/
theorem of_fits {i : Instr} (hn : i.count < 256) (ho : i.offset < 256) : Statement i := fun _ =>
  ⟨opField_commandWord _ _ _, countField_commandWord _ _ hn, offsetField_commandWord _ _ ho,
    reservedField_commandWord _ _ _⟩

theorem zero_fits : 0 < 256 := by decide

theorem bbCountUsed (value : Word) : Statement (.bbCountUsed value) := of_fits zero_fits zero_fits
theorem bbPush (host bits : Word) (n : Nat) : Statement (.bbPush host bits n) := fun h =>
  of_fits ((fitsField_iff n).mp h) zero_fits h
theorem bbPop (host : Word) (n : Nat) : Statement (.bbPop host n) := fun h =>
  of_fits ((fitsField_iff n).mp h) zero_fits h
theorem rOpen : Statement .rOpen := of_fits zero_fits zero_fits
theorem rRead (n : Nat) : Statement (.rRead n) := fun h => of_fits ((fitsField_iff n).mp h) zero_fits h
theorem rTryRead (n : Nat) : Statement (.rTryRead n) := fun h => of_fits ((fitsField_iff n).mp h) zero_fits h
theorem rPeek : Statement .rPeek := of_fits zero_fits zero_fits
theorem rTryPeek : Statement .rTryPeek := of_fits zero_fits zero_fits
theorem rClose : Statement .rClose := of_fits zero_fits zero_fits
theorem wOpen : Statement .wOpen := of_fits zero_fits zero_fits
theorem wWrite (value : Word) (n : Nat) : Statement (.wWrite value n) := fun h =>
  of_fits ((fitsField_iff n).mp h) zero_fits h
theorem wWriteOff (value : Word) (n off : Nat) : Statement (.wWriteOff value n off) := fun h => by
  have h' := h
  simp only [Instr.WellFormed, Instr.wellFormed, Bool.and_eq_true, fitsField_iff] at h'
  exact of_fits h'.1 h'.2 h
theorem wClose : Statement .wClose := of_fits zero_fits zero_fits
theorem pInit : Statement .pInit := of_fits zero_fits zero_fits
theorem pInsert (packed : Word) (n : Nat) : Statement (.pInsert packed n) := fun h =>
  of_fits ((fitsField_iff n).mp h) zero_fits h
theorem pFlushByte : Statement .pFlushByte := of_fits zero_fits zero_fits

end Laws.EncodedFields

end Sys2Proof
end

