-- ==== Sys2Proof/Laws/Push.lean ====
section
/-! SUPPORT. What the push reader's shared operations can do: one consumer invocation (spec 43_push_reader.md R181), the
extraction loop and the per-byte step (R183, R188 to R191), and a sequence of bytes (R184, R187). -/

namespace Sys2Proof.Machine

theorem validWidth_iff (w : Byte) : validWidth w = true ↔ 1 ≤ w.toNat ∧ w.toNat ≤ 64 := by
  simp [validWidth]

/-! ### The accumulator as a bit string (R41) -/

/-- The top field and the bits below it are the valid bits (R183). -/
theorem fieldBits_topField (acc : Word) {level want : Nat} (h : want ≤ level) :
    fieldBits level acc = fieldBits want (topField acc level want) ++ fieldBits (level - want) acc := by
  rw [topField, fieldBits_and_mask, ← fieldBits_add, Nat.add_sub_cancel' h]

theorem topField_lt (acc : Word) (level : Nat) {want : Nat} (h : want ≤ 64) :
    (topField acc level want).toNat < 2 ^ want := by
  rw [topField, and_mask_toNat _ h]
  exact Nat.mod_lt _ (Nat.two_pow_pos _)

theorem fieldBits_zext64 (b : Byte) : fieldBits 8 (zext64 b) = byteBits b := by
  refine List.ext_getElem (by simp) fun i h1 h2 => ?_
  have hi : i < 8 := by simpa using h1
  have h64 : 7 - i < 64 := by omega
  rw [fieldBits_getElem, zext64, BitVec.getLsbD_setWidth]
  simp [byteBits, h64]

/-- Folding a byte in appends its bits to the valid bits (R183). -/
theorem foldByte_held {σ : Type} (d : Decoder σ) (b : Byte) (h : d.level + 8 ≤ 64) :
    (foldByte d b).held = d.held ++ byteBits b := by
  have h1 : fieldBits d.level (((d.acc <<< 8) ||| zext64 b) >>> 8) = fieldBits d.level d.acc := by
    refine fieldBits_congr fun i hi => ?_
    have h64 : 8 + i < 64 := by omega
    have h8 : ¬ 8 + i < 8 := by omega
    simp [zext64, h64, h8, BitVec.getLsbD_eq_getElem (show i < 64 by omega)]
  have h2 : fieldBits 8 ((d.acc <<< 8) ||| zext64 b) = fieldBits 8 (zext64 b) := by
    refine fieldBits_congr fun i hi => ?_
    simp [hi]
  rw [Decoder.held, foldByte, fieldBits_add, h1, h2, fieldBits_zext64, Decoder.held]

theorem Decoder.held_length {σ : Type} (d : Decoder σ) : d.held.length = d.level := fieldBits_length _ _

@[simp] theorem deliveredBits_nil : deliveredBits [] [] = [] := rfl

@[simp] theorem deliveredBits_cons (w : Nat) (f : Word) (ws : List Nat) (fs : List Word) :
    deliveredBits (w :: ws) (f :: fs) = fieldBits w f ++ deliveredBits ws fs := rfl

theorem deliveredBits_append {ws : List Nat} {fs : List Word} (h : ws.length = fs.length) (ws' : List Nat)
    (fs' : List Word) : deliveredBits (ws ++ ws') (fs ++ fs') = deliveredBits ws fs ++ deliveredBits ws' fs' := by
  rw [deliveredBits, List.zipWith_append h, List.flatten_append]; rfl

/-! ### The extraction loop (R183) -/

/-- What a sequence of extractions from a decoder can leave: the delivered fields are the oldest valid bits, every
one below `2^width`, the widths are legal, the first being the one wanted, and only an OK end leaves fewer bits than
wanted. -/
structure Extracted {σ : Type} (bits : List Bool) (d : Decoder σ) (o : StepOut σ) : Prop where
  conserved : bits = deliveredBits o.widths o.fields ++ o.dec.held
  sameLength : o.widths.length = o.fields.length
  legal : ∀ w ∈ o.widths, 1 ≤ w ∧ w ≤ 64
  below : ∀ wf ∈ List.zip o.widths o.fields, wf.2.toNat < 2 ^ wf.1
  first : ∀ w ∈ o.widths.head?, w = d.want
  want : 1 ≤ o.dec.want ∧ o.dec.want ≤ 64
  done : o.stop = none → o.dec.level < o.dec.want

/-- What the extraction loop can do (R183, R189, R191). -/
theorem drain_cases {σ : Type} (c : σ → Word → Answer σ) (fuel : Nat) (d : Decoder σ) (hf : d.level < fuel)
    (hw : 1 ≤ d.want ∧ d.want ≤ 64) :
    Extracted d.held d (drain c fuel d) ∧ (drain c fuel d).stop ≠ some .overflow ∧
      (drain c fuel d).dec.acc = d.acc ∧ (drain c fuel d).dec.level ≤ d.level ∧
      (drain c fuel d).dec.inserted = d.inserted ∧ (drain c fuel d).fields.length ≤ d.level := by
  induction fuel generalizing d with
  | zero => omega
  | succ fuel ih =>
    unfold drain
    by_cases h : d.want ≤ d.level
    · have hbits := fieldBits_topField d.acc h
      have hlt := topField_lt d.acc d.level hw.2
      have one : ∀ q : σ, ∀ stop : Stop, Extracted d.held d
          { dec := { d with level := d.level - d.want, cons := q }, fields := [topField d.acc d.level d.want],
            widths := [d.want], stop := some stop } := fun q stop =>
        { conserved := by simpa [Decoder.held] using hbits, sameLength := rfl, legal := by simpa using hw,
          below := by simpa using hlt, first := by simp, want := hw, done := by simp }
      simp only [h, if_true]
      rcases hc : c d.cons (topField d.acc d.level d.want) with ⟨q, w⟩ | _ | _ | _
      · by_cases hv : validWidth w
        · obtain ⟨he, hs, ha, hl, hi, hn⟩ := ih
            { d with level := d.level - d.want, want := w.toNat, cons := q } (by show d.level - d.want < fuel; omega)
            ((validWidth_iff w).mp hv)
          simp only [hv, if_true]
          refine ⟨⟨?_, ?_, ?_, ?_, by simp, he.want, he.done⟩, hs, ha, ?_, hi, ?_⟩
          · rw [deliveredBits_cons, List.append_assoc, ← he.conserved]; exact hbits
          · simp [he.sameLength]
          · intro w' hw'
            rcases List.mem_cons.mp hw' with rfl | h'
            · exact hw
            · exact he.legal w' h'
          · intro wf hwf
            rcases List.mem_cons.mp (by simpa using hwf) with rfl | h'
            · exact hlt
            · exact he.below wf h'
          · exact hl.trans (Nat.sub_le _ _)
          · simp only [List.length_cons] at hn ⊢; omega
        · simp only [hv]
          exact ⟨one q .badWidth, by simp, rfl, Nat.sub_le _ _, rfl, by simp; omega⟩
      · exact ⟨one d.cons .silent, by simp, rfl, Nat.sub_le _ _, rfl, by simp; omega⟩
      · exact ⟨one d.cons .commandIssued, by simp, rfl, Nat.sub_le _ _, rfl, by simp; omega⟩
      · exact ⟨one d.cons .resetApplied, by simp, rfl, Nat.sub_le _ _, rfl, by simp; omega⟩
    · simp only [h, if_false]
      exact ⟨⟨by simp, rfl, by simp, by simp, by simp, hw, fun _ => by simpa using h⟩, by simp,
        trivial, le_rfl, trivial, by simp⟩

/-- What `PushByte` can do (R183, R188): Overflow with nothing changed, exactly when the level is 57 or more; else
the byte is folded in and fields are extracted. -/
theorem pStep_cases {σ : Type} (c : σ → Word → Answer σ) (d : Decoder σ) (b : Byte)
    (hw : 1 ≤ d.want ∧ d.want ≤ 64) :
    (57 ≤ d.level ∧ pStep c d b = { dec := d, fields := [], widths := [], stop := some .overflow }) ∨
      (d.level ≤ 56 ∧ Extracted (d.held ++ byteBits b) d (pStep c d b) ∧ (pStep c d b).stop ≠ some .overflow ∧
        (pStep c d b).dec.acc = (d.acc <<< 8) ||| zext64 b ∧ (pStep c d b).dec.level ≤ d.level + 8 ∧
        (pStep c d b).dec.inserted = d.inserted + 1 ∧ (pStep c d b).fields.length ≤ d.level + 8) := by
  unfold pStep
  simp only [Config.accWidth_eq]
  by_cases h : 64 < d.level + 8
  · exact .inl ⟨by omega, by simp only [h, if_true]⟩
  · simp only [h, if_false]
    obtain ⟨he, hs, ha, hl, hi, hn⟩ := drain_cases c (d.level + 9) (foldByte d b) (by simp [foldByte]) hw
    rw [foldByte_held d b (by omega)] at he
    exact .inr ⟨by omega, ⟨he.conserved, he.sameLength, he.legal, he.below, he.first, he.want, he.done⟩, hs, ha, hl, hi, hn⟩

/-! ### A sequence of bytes (R184, R187) -/

@[simp] theorem pSteps_nil {σ : Type} (c : σ → Word → Answer σ) (d : Decoder σ) :
    pSteps c d [] = { dec := d, fields := [], widths := [], stop := none } := rfl

theorem pSteps_cons {σ : Type} (c : σ → Word → Answer σ) (d : Decoder σ) (b : Byte) (rest : List Byte) :
    pSteps c d (b :: rest) =
      match (pStep c d b).stop with
      | some _ => pStep c d b
      | none => { pSteps c (pStep c d b).dec rest with
                  fields := (pStep c d b).fields ++ (pSteps c (pStep c d b).dec rest).fields,
                  widths := (pStep c d b).widths ++ (pSteps c (pStep c d b).dec rest).widths } := rfl

/-- Two sequences in a row are one after the other, as far as the first goes (R187). -/
theorem pSteps_append {σ : Type} (c : σ → Word → Answer σ) (d : Decoder σ) (l l' : List Byte) :
    pSteps c d (l ++ l') =
      match (pSteps c d l).stop with
      | some _ => pSteps c d l
      | none => { pSteps c (pSteps c d l).dec l' with
                  fields := (pSteps c d l).fields ++ (pSteps c (pSteps c d l).dec l').fields,
                  widths := (pSteps c d l).widths ++ (pSteps c (pSteps c d l).dec l').widths } := by
  induction l generalizing d with
  | nil => simp
  | cons b rest ih =>
    rw [List.cons_append, pSteps_cons, pSteps_cons]
    rcases hs : (pStep c d b).stop with _ | stop
    · simp only [ih]
      rcases hr : (pSteps c (pStep c d b).dec rest).stop with _ | stop <;> simp [hr]
    · simp [hs]

/-- What an insertion keeps: legal widths, and after an OK end fewer bits than wanted (R44, R45). -/
theorem pSteps_bounds {σ : Type} (c : σ → Word → Answer σ) (d : Decoder σ) (bytes : List Byte)
    (hw : 1 ≤ d.want ∧ d.want ≤ 64) (hl : d.level ≤ 64) :
    (1 ≤ (pSteps c d bytes).dec.want ∧ (pSteps c d bytes).dec.want ≤ 64) ∧ (pSteps c d bytes).dec.level ≤ 64 ∧
      (d.level < d.want → (pSteps c d bytes).stop = none →
        (pSteps c d bytes).dec.level < (pSteps c d bytes).dec.want) := by
  induction bytes generalizing d with
  | nil => exact ⟨hw, hl, fun h _ => h⟩
  | cons b rest ih =>
    rw [pSteps_cons]
    rcases pStep_cases c d b hw with ⟨_, hp⟩ | ⟨h56, he, _, _, hlev, _⟩
    · simp [hp, hw, hl]
    · rcases hs : (pStep c d b).stop with _ | stop
      · obtain ⟨h1, h2, h3⟩ := ih _ he.want (by omega)
        exact ⟨h1, h2, fun _ => h3 (he.done hs)⟩
      · exact ⟨he.want, show (pStep c d b).dec.level ≤ 64 by omega, fun _ h => by simp [hs] at h⟩

/-! ### The widths are the answers (R44, R183) -/

/-- Fields delivered one run after the other. -/
theorem Answered.append {σ : Type} {c : σ → Word → Answer σ} {q q1 q2 : σ} {want want1 want2 : Nat}
    {ws ws' : List Nat} {fs fs' : List Word} (h : Answered c q want ws fs q1 want1)
    (h' : Answered c q1 want1 ws' fs' q2 want2) : Answered c q want (ws ++ ws') (fs ++ fs') q2 want2 := by
  induction ws generalizing q want fs with
  | nil =>
    cases fs with
    | nil => obtain ⟨rfl, rfl⟩ := h; exact h'
    | cons f fs => exact h.elim
  | cons w ws ih =>
    cases fs with
    | nil => exact h.elim
    | cons f fs =>
      obtain ⟨hw, hlt, q3, a, ha, hv, hr⟩ := h
      exact ⟨hw, hlt, q3, a, ha, hv, ih hr⟩

/-- How a sequence of extractions ends: with the widths all answered; or on a last field, extracted with the width
still wanted, to which the consumer gave no legal answer. -/
def Ended {σ : Type} (c : σ → Word → Answer σ) (q : σ) (want : Nat) (o : StepOut σ) : Prop :=
  (o.stop = none ∨ o.stop = some .overflow → Answered c q want o.widths o.fields o.dec.cons o.dec.want) ∧
  (∀ stop, o.stop = some stop → stop ≠ .overflow → ∃ (widths : List Nat) (fields : List Word) (f : Word) (q' : σ),
    o.widths = widths ++ [o.dec.want] ∧ o.fields = fields ++ [f] ∧ Answered c q want widths fields q' o.dec.want ∧
    (stop = .badWidth → ∃ w, c q' f = .width o.dec.cons w ∧ (w.toNat = 0 ∨ 64 < w.toNat)) ∧
    (stop = .silent → c q' f = .silent) ∧ (stop = .commandIssued → c q' f = .commandIssued) ∧
    (stop = .resetApplied → c q' f = .resetApplied))

/-- A run whose widths are answered, and then another. -/
theorem Ended.after {σ : Type} {c : σ → Word → Answer σ} {q q1 : σ} {want want1 : Nat} {ws : List Nat}
    {fs : List Word} {o : StepOut σ} (h : Answered c q want ws fs q1 want1) (h' : Ended c q1 want1 o) :
    Ended c q want { o with fields := fs ++ o.fields, widths := ws ++ o.widths } := by
  refine ⟨fun hs => h.append (h'.1 hs), fun stop hs hn => ?_⟩
  obtain ⟨ws', fs', f, q', h1, h2, h3, h4⟩ := h'.2 stop hs hn
  exact ⟨ws ++ ws', fs ++ fs', f, q', by simp [h1], by simp [h2], h.append h3, h4⟩

theorem drain_ended {σ : Type} (c : σ → Word → Answer σ) (fuel : Nat) (d : Decoder σ)
    (hw : 1 ≤ d.want ∧ d.want ≤ 64) : Ended c d.cons d.want (drain c fuel d) := by
  induction fuel generalizing d with
  | zero => exact ⟨fun _ => ⟨rfl, rfl⟩, fun _ h => by simp [drain] at h⟩
  | succ fuel ih =>
    unfold drain
    by_cases h : d.want ≤ d.level
    · have hlt := topField_lt d.acc d.level hw.2
      simp only [h, if_true]
      rcases hc : c d.cons (topField d.acc d.level d.want) with ⟨q, w⟩ | _ | _ | _
      · by_cases hv : validWidth w
        · have hv' := (validWidth_iff w).mp hv
          simp only [hv, if_true]
          exact Ended.after (ws := [d.want]) (fs := [topField d.acc d.level d.want])
            ⟨rfl, hlt, q, w, hc, hv', rfl, rfl⟩
            (ih { d with level := d.level - d.want, want := w.toNat, cons := q } hv')
        · have hb : w.toNat = 0 ∨ 64 < w.toNat := by have := mt (validWidth_iff w).mpr hv; omega
          simp only [hv]
          refine ⟨by simp, fun stop hs _ => ⟨[], [], _, d.cons, rfl, rfl, ⟨rfl, rfl⟩, ?_⟩⟩
          obtain rfl : Stop.badWidth = stop := by simpa using hs
          exact ⟨fun _ => ⟨w, hc, hb⟩, by simp, by simp, by simp⟩
      all_goals
        refine ⟨by simp, fun stop hs _ => ⟨[], [], _, d.cons, rfl, rfl, ⟨rfl, rfl⟩, ?_⟩⟩
        simp only [Option.some.injEq] at hs
        subst hs
        simp [hc]
    · simp only [h, if_false]
      exact ⟨fun _ => ⟨rfl, rfl⟩, fun _ h => by simp at h⟩

theorem pStep_ended {σ : Type} (c : σ → Word → Answer σ) (d : Decoder σ) (b : Byte)
    (hw : 1 ≤ d.want ∧ d.want ≤ 64) : Ended c d.cons d.want (pStep c d b) := by
  unfold pStep
  split
  · exact ⟨fun _ => ⟨rfl, rfl⟩, fun stop h hn => by simp at h; exact absurd h.symm hn⟩
  · exact drain_ended c (d.level + 9) (foldByte d b) hw

theorem pSteps_ended {σ : Type} (c : σ → Word → Answer σ) (d : Decoder σ) (bytes : List Byte)
    (hw : 1 ≤ d.want ∧ d.want ≤ 64) : Ended c d.cons d.want (pSteps c d bytes) := by
  induction bytes generalizing d with
  | nil => exact ⟨fun _ => ⟨rfl, rfl⟩, fun _ h => by simp at h⟩
  | cons b rest ih =>
    have h1 := pStep_ended c d b hw
    rw [pSteps_cons]
    rcases pStep_cases c d b hw with ⟨_, hp⟩ | ⟨_, he, _⟩
    · simpa only [hp] using h1
    · rcases hs : (pStep c d b).stop with _ | stop
      · exact Ended.after (h1.1 (.inl hs)) (ih _ he.want)
      · exact h1

/-! ### The bound consumer (R181) -/

/-- What one invocation of a consumer given as data can do: an answer records the delivery and keeps the response
function. -/
theorem Consumer.ask_width {c c' : Consumer} {v : Word} {w : Byte} (h : c.ask v = .width c' w) :
    c'.behaviour = c.behaviour ∧ c'.received = c.received ++ [v] := by
  unfold Consumer.ask at h
  split at h <;> cases h
  exact ⟨rfl, rfl⟩

/-- A consumer that answers so answers the next value so, and goes on answering so (R271). -/
theorem Consumer.Answers.ask {P : Byte → Prop} {c : Consumer} (h : c.Answers P) (v : Word) :
    ∃ c' w, c.ask v = .width c' w ∧ P w ∧ c'.Answers P := by
  obtain ⟨c', w, ha, hw⟩ := h [] c rfl v
  exact ⟨c', w, ha, hw, fun vs c2 h2 => h (v :: vs) c2 (by simpa only [Consumer.after, ha] using h2)⟩

/-- The bound consumer answers as it does itself. -/
@[simp] theorem askBound_some (c : Consumer) (v : Word) :
    askBound (some c) v =
      match c.ask v with
      | .width c' w => .width (some c') w
      | .silent => .silent
      | .commandIssued => .commandIssued
      | .resetApplied => .resetApplied := rfl

/-- The bound consumer stays bound through an extraction, and where the command goes on it has received exactly
the fields delivered (R181, R190). -/
theorem drain_askBound (fuel : Nat) (d : Decoder (Option Consumer)) (c : Consumer) (hc : d.cons = some c) :
    ∃ c', (drain askBound fuel d).dec.cons = some c' ∧ c'.behaviour = c.behaviour ∧
      ((drain askBound fuel d).stop = none ∨ (drain askBound fuel d).stop = some .badWidth →
        c'.received = c.received ++ (drain askBound fuel d).fields) := by
  induction fuel generalizing d c with
  | zero => exact ⟨c, hc, rfl, fun _ => by simp [drain]⟩
  | succ fuel ih =>
    unfold drain
    by_cases h : d.want ≤ d.level
    · simp only [h, if_true, hc, askBound_some]
      rcases ha : c.ask (topField d.acc d.level d.want) with ⟨c1, w⟩ | _ | _ | _
      · obtain ⟨hr, hd⟩ := Consumer.ask_width ha
        by_cases hv : validWidth w
        · obtain ⟨c2, h1, h2, h3⟩ := ih
            { d with level := d.level - d.want, want := w.toNat, cons := some c1 } c1 rfl
          simp only [hv, if_true]
          refine ⟨c2, h1, h2.trans hr, fun hs => ?_⟩
          rw [h3 hs, hd, List.append_assoc, List.singleton_append]
        · simp only [hv]
          exact ⟨c1, rfl, hr, fun _ => hd⟩
      · exact ⟨c, rfl, rfl, fun hs => by simp at hs⟩
      · exact ⟨c, rfl, rfl, fun hs => by simp at hs⟩
      · exact ⟨c, rfl, rfl, fun hs => by simp at hs⟩
    · simp only [h, if_false]
      exact ⟨c, hc, rfl, fun _ => by simp⟩

theorem pStep_askBound (d : Decoder (Option Consumer)) (b : Byte) (c : Consumer) (hc : d.cons = some c) :
    ∃ c', (pStep askBound d b).dec.cons = some c' ∧ c'.behaviour = c.behaviour ∧
      ((pStep askBound d b).stop = none ∨ (pStep askBound d b).stop = some .badWidth →
        c'.received = c.received ++ (pStep askBound d b).fields) := by
  unfold pStep
  split
  · exact ⟨c, hc, rfl, fun hs => by simp at hs⟩
  · exact drain_askBound (d.level + 9) (foldByte d b) c hc

theorem pSteps_askBound (d : Decoder (Option Consumer)) (bytes : List Byte) (c : Consumer) (hc : d.cons = some c) :
    ∃ c', (pSteps askBound d bytes).dec.cons = some c' ∧ c'.behaviour = c.behaviour := by
  induction bytes generalizing d c with
  | nil => exact ⟨c, hc, rfl⟩
  | cons b rest ih =>
    obtain ⟨c1, h1, h2, _⟩ := pStep_askBound d b c hc
    rw [pSteps_cons]
    rcases hs : (pStep askBound d b).stop with _ | stop
    · obtain ⟨c2, h3, h4⟩ := ih _ c1 h1
      exact ⟨c2, h3, h4.trans h2⟩
    · exact ⟨c1, h1, h2⟩

/-- How an insertion can end with a next state (R184): OK, or one of the two session-ending errors; the state is the
one before with the decoder's registers, a failed session's lifecycle and code, and one response. -/
theorem endInsert_cases {o : StepOut (Option Consumer)} {s t : State} (h : endInsert o s = .next t) :
    (o.stop = none ∧ t = (s.withPush (s.p.withDecoder o.dec)).respond (.delivered 0#64 0#64)) ∨
      ∃ e, (o.stop = some .overflow ∧ e = .overflow ∨ o.stop = some .badWidth ∧ e = .invalidArgument) ∧
        t = (s.withPush { s.p.withDecoder o.dec with life := .failed, fail := e }).respond (.error e) := by
  unfold endInsert at h
  rcases hs : o.stop with _ | _ | _ | _ | _ | _ <;>
    simp only [hs, finish, failSession, raise, Host.Outcome.next.injEq, reduceCtorEq] at h
  · exact .inl ⟨rfl, h.symm⟩
  · exact .inr ⟨_, .inl ⟨rfl, rfl⟩, h.symm⟩
  · exact .inr ⟨_, .inr ⟨rfl, rfl⟩, h.symm⟩

/-- An insertion with at most 8 bytes on a LIVE unit runs the decoder on its bytes (R184). -/
theorem execPInsert_live {s : State} {packed : Word} {n : Nat} (hl : s.p.life = .live) (hn : n ≤ 8) :
    execPInsert packed n s = endInsert (pSteps askBound s.p.decoder (unpackBytes packed n)) s := by
  simp only [execPInsert, hl, Config.maxInsert_eq, if_neg (Nat.not_lt.mpr hn)]

end Sys2Proof.Machine
end

