-- ==== Sys2Proof/Laws/Reader.lean ====
section
/-! SUPPORT. What the Reader's shared operations can do: fetching a byte (spec 20_memory.md R62), the lazy load (41_reader.md R125)
and the read loop (R121, R124, R129). -/

namespace Sys2Proof.Machine

/-- The Reader took these bytes, in order, from the front of its source, and nothing else of it changed but the
cursor: `R.cur` holds the last byte taken, or what it held (R33, R62). -/
structure Reader.Took (r : Reader) (bytes : List Byte) (r' : Reader) : Prop where
  life : r'.life = r.life
  grows : r'.src.map ByteSource.grows = r.src.map ByteSource.grows
  taken : r'.src.map ByteSource.taken = r.src.map (fun src => src.taken ++ bytes)
  pending : r.pending = bytes ++ r'.pending
  fetched : r'.fetched = r.fetched + bytes.length
  cur : r'.cur = bytes.getLastD r.cur

theorem Reader.Took.refl (r : Reader) : r.Took [] r :=
  ⟨rfl, rfl, by simp, rfl, rfl, rfl⟩

theorem Reader.Took.trans {r r' r'' : Reader} {l l' : List Byte} (h : r.Took l r') (h' : r'.Took l' r'') :
    r.Took (l ++ l') r'' where
  life := h'.life.trans h.life
  grows := h'.grows.trans h.grows
  taken := by
    have h1 := h.taken
    have h2 := h'.taken
    rcases hs : r.src with _ | a <;> rcases hs' : r'.src with _ | b <;> simp_all
  pending := by rw [h.pending, h'.pending, List.append_assoc]
  fetched := by rw [h'.fetched, h.fetched, List.length_append]; omega
  cur := by
    rw [h'.cur, h.cur]
    induction l' using List.reverseRecOn with
    | nil => simp
    | append_singleton l' b _ => simp [← List.append_assoc, List.getLastD_eq_getLast?]

/-- The cursor's position is no part of what the Reader took. -/
theorem Reader.Took.withPos {r r' : Reader} {l : List Byte} (h : r.Took l r') (pos : Nat) :
    r.Took l { r' with pos := pos } := ⟨h.life, h.grows, h.taken, h.pending, h.fetched, h.cur⟩

theorem Reader.Took.isSome {r r' : Reader} {l : List Byte} (h : r.Took l r') : r'.src.isSome = r.src.isSome := by
  have := congrArg Option.isSome h.grows
  simpa using this

/-- `SrcFetch` answers EOS exactly when nothing is pending, and else takes the first pending byte (R62, R63). -/
theorem srcFetch_cases (r : Reader) :
    (srcFetch r = none ∧ r.pending = []) ∨
      ∃ src b rest, r.src = some src ∧ src.bytes = b :: rest ∧
        srcFetch r = some (b, { r with
          src := some { src with bytes := rest, taken := src.taken ++ [b] }, fetched := r.fetched + 1 }) := by
  unfold srcFetch Reader.pending
  rcases hs : r.src with _ | src
  · exact .inl ⟨rfl, rfl⟩
  · rcases hb : src.bytes with _ | ⟨b, rest⟩
    · exact .inl ⟨by simp only [hb], hb⟩
    · exact .inr ⟨src, b, rest, rfl, hb, by simp only [hb]⟩

theorem Reader.remaining_length (r : Reader) : r.remaining.length = (8 - r.pos) + 8 * r.pending.length := by
  simp [Reader.remaining]

/-- The lazy load: nothing to load, or a loaded Reader at the same stream position, having taken at most one
byte, and one exactly when the cursor stood at the end of its byte (R125, R49). -/
theorem loadByte_cases (r : Reader) (h : r.pos ≤ 8) :
    (loadByte r = none ∧ r.pos = 8 ∧ r.pending = []) ∨
      ∃ r' l, loadByte r = some r' ∧ r.Took l r' ∧ r'.pos ≤ 7 ∧ r'.remaining = r.remaining ∧
        (r.pos = 8 ∧ l.length = 1 ∧ r'.pos = 0 ∨ r.pos ≤ 7 ∧ l = [] ∧ r' = r) := by
  unfold loadByte
  by_cases hp : r.pos = 8
  · rcases srcFetch_cases r with ⟨hf, hn⟩ | ⟨src, b, rest, hs, hb, hf⟩
    · exact .inl ⟨by simp [hp, hf], hp, hn⟩
    · refine .inr ⟨{ r with
          cur := b, pos := 0, src := some { src with bytes := rest, taken := src.taken ++ [b] }
          fetched := r.fetched + 1 },
        [b], by simp only [hp, hf, if_true], ⟨rfl, by simp [hs], by simp [hs], ?_, rfl, rfl⟩, by simp, ?_, .inl ⟨hp, rfl, rfl⟩⟩
      · simp [Reader.pending, hs, hb]
      · simp [Reader.remaining, Reader.pending, hs, hb, hp]
  · exact .inr ⟨r, [], by simp [hp], .refl r, by omega, rfl, .inr ⟨by omega, rfl, rfl⟩⟩

/-- A loaded Reader with a chunk consumed has that much less before it. -/
theorem Reader.remaining_chunk (r : Reader) {chunk : Nat} (h : r.pos + chunk ≤ 8) :
    r.remaining = fieldBits chunk (zext64 (takeChunk r.cur r.pos chunk)) ++
      ({ r with pos := r.pos + chunk } : Reader).remaining := by
  simp only [Reader.remaining, byteBits_drop h, List.append_assoc, Reader.pending]

/-- What a read of `rem` bits can do, with the bits `bits` gathered before (R121, R124, R129): it delivers the
gathered bits and the next `rem`, or, with fewer to come, meets the end of the source and keeps what it took. -/
theorem readLoop_cases (fuel rem : Nat) (bits : List Bool) (r : Reader) (hf : rem ≤ fuel) (hp : r.pos ≤ 8) :
    (∃ l, r.Took l (readLoop fuel rem (BitVec.ofNat 64 (bitsValue bits)) r).reader) ∧
      (rem ≤ r.remaining.length →
        (readLoop fuel rem (BitVec.ofNat 64 (bitsValue bits)) r).field =
          some (BitVec.ofNat 64 (bitsValue (bits ++ r.remaining.take rem))) ∧
        (readLoop fuel rem (BitVec.ofNat 64 (bitsValue bits)) r).reader.remaining = r.remaining.drop rem ∧
        (readLoop fuel rem (BitVec.ofNat 64 (bitsValue bits)) r).reader.pos ≤ 8) ∧
      (r.remaining.length < rem →
        (readLoop fuel rem (BitVec.ofNat 64 (bitsValue bits)) r).field = none ∧
        (readLoop fuel rem (BitVec.ofNat 64 (bitsValue bits)) r).reader.pos = 8 ∧
        (readLoop fuel rem (BitVec.ofNat 64 (bitsValue bits)) r).reader.pending = []) := by
  induction fuel generalizing rem bits r with
  | zero =>
    obtain rfl : rem = 0 := by omega
    exact ⟨⟨[], .refl r⟩, fun _ => by simp [readLoop, hp], fun h => by omega⟩
  | succ fuel ih =>
    by_cases hr : rem = 0
    · subst hr
      exact ⟨⟨[], by simpa [readLoop] using .refl r⟩, fun _ => by simp [readLoop, hp], fun h => by omega⟩
    · rcases loadByte_cases r hp with ⟨hl, hp8, hn⟩ | ⟨r1, l1, hl, ht, hp1, hrem, _⟩
      · have hlen : r.remaining.length = 0 := by simp [Reader.remaining_length, hp8, hn]
        simp only [readLoop, hr, if_false, hl]
        exact ⟨⟨[], .refl r⟩, fun h => by omega, fun _ => ⟨by trivial, hp8, hn⟩⟩
      · have hc : min rem (8 - r1.pos) ≤ 8 := by omega
        have hpc : r1.pos + min rem (8 - r1.pos) ≤ 8 := by omega
        simp only [readLoop, hr, if_false, hl]
        rw [gather_chunk bits r1.cur r1.pos hc]
        obtain ⟨⟨l2, ht2⟩, hok, heos⟩ := ih (rem - min rem (8 - r1.pos))
          (bits ++ fieldBits (min rem (8 - r1.pos)) (zext64 (takeChunk r1.cur r1.pos (min rem (8 - r1.pos)))))
          { r1 with pos := r1.pos + min rem (8 - r1.pos) } (by omega) hpc
        have hsplit := r1.remaining_chunk hpc
        have hlen := congrArg List.length hsplit
        rw [List.length_append, fieldBits_length, hrem] at hlen
        refine ⟨⟨l1 ++ l2, ht.trans ⟨ht2.life, ht2.grows, ht2.taken, ht2.pending, ht2.fetched, ht2.cur⟩⟩, fun h => ?_,
          fun h => heos (by omega)⟩
        have hle : min rem (8 - r1.pos) ≤ rem := Nat.min_le_left _ _
        obtain ⟨h1, h2, h3⟩ := hok (by omega)
        refine ⟨h1.trans ?_, h2.trans ?_, h3⟩
        · rw [List.append_assoc, ← hrem, hsplit, List.take_append, fieldBits_length,
            List.take_of_length_le (l := fieldBits _ _) (by rw [fieldBits_length]; exact hle)]
        · rw [← hrem, hsplit, List.drop_append, fieldBits_length,
            List.drop_of_length_le (l := fieldBits _ _) (by rw [fieldBits_length]; exact hle), List.nil_append]

/-- What `ReadCore(n)` can do (R121, R124, R129). -/
theorem readCore_cases (n : Nat) (r : Reader) (hp : r.pos ≤ 8) :
    (∃ l, r.Took l (readCore n r).reader) ∧
      (n ≤ r.remaining.length →
        (readCore n r).field = some (BitVec.ofNat 64 (bitsValue (r.remaining.take n))) ∧
        (readCore n r).reader.remaining = r.remaining.drop n ∧ (readCore n r).reader.pos ≤ 8) ∧
      (r.remaining.length < n →
        (readCore n r).field = none ∧ (readCore n r).reader.pos = 8 ∧ (readCore n r).reader.pending = []) := by
  simpa [readCore] using readLoop_cases n n [] r le_rfl hp

/-- A read keeps the Reader's invariant (R35). -/
theorem readCore_inv (n : Nat) (r : Reader) (h : r.Inv) : (readCore n r).reader.Inv := by
  obtain ⟨⟨l, ht⟩, hok, heos⟩ := readCore_cases n r h.1
  refine ⟨?_, by rw [ht.life, ht.isSome]; exact h.2⟩
  rcases Nat.lt_or_ge r.remaining.length n with hn | hn
  · exact (heos hn).2.1.le
  · exact (hok hn).2.2

/-- A load keeps the Reader's invariant. -/
theorem loadByte_inv {r r' : Reader} (h : r.Inv) (hl : loadByte r = some r') : r'.Inv := by
  rcases loadByte_cases r h.1 with ⟨hn, _⟩ | ⟨r1, l, hs, ht, hp, _⟩
  · rw [hn] at hl; cases hl
  · obtain rfl : r1 = r' := by rw [hs] at hl; exact Option.some.inj hl
    exact ⟨by omega, by rw [ht.life, ht.isSome]; exact h.2⟩

/-- The next bit of a loaded Reader is the first of its remaining bit string (R34, R125). -/
theorem nextBit_eq_head (r : Reader) (h : r.pos ≤ 7) :
    nextBit r = BitVec.ofNat 64 (bitsValue (r.remaining.take 1)) := by
  have hc : r.pos + 1 ≤ 8 := by omega
  have hb := zext64_takeChunk_lt r.cur r.pos (chunk := 1) (by omega)
  rw [r.remaining_chunk hc, List.take_append_of_le_length (by simp), List.take_of_length_le (by simp),
    bitsValue_fieldBits, Nat.mod_eq_of_lt hb, BitVec.ofNat_toNat, BitVec.setWidth_eq, nextBit, takeChunk]
  congr 2
  rw [show 8 - r.pos - 1 = 7 - r.pos by omega]

end Sys2Proof.Machine
end

