-- ==== Sys2Proof/Laws/Writer.lean ====
section
/-! SUPPORT. What the Writer's shared operations can do: emitting a byte (spec 20_memory.md R64), the write loop (42_writer.md
R153, R161) and the flush of the partial byte (R158). -/

namespace Sys2Proof.Machine

/-- The bits of a byte below position `k` are zero. -/
theorem and_byteMask_eq_zero (b : Byte) (k : Nat) :
    b &&& byteMask k = 0#8 ↔ ∀ i < k, b.getLsbD i = false := by
  constructor
  · intro h i hi
    by_cases h8 : i < 8
    · have := congrArg (fun x : Byte => x.getLsbD i) h
      rw [BitVec.getLsbD_and, getLsbD_byteMask, decide_eq_true hi, decide_eq_true h8] at this
      simpa using this
    · exact BitVec.getLsbD_of_ge _ _ (Nat.le_of_not_lt h8)
  · intro h
    refine BitVec.eq_of_getLsbD_eq fun i hi => ?_
    by_cases hk : i < k
    · simp [h i hk]
    · simp [getLsbD_byteMask, hk]

theorem byteBits_getElem (b : Byte) {i : Nat} (h : i < (byteBits b).length) :
    (byteBits b)[i] = b.getLsbD (7 - i) := by simp [byteBits]

theorem topBits_getLsbD_of_ge (v : Word) (rem : Nat) {chunk i : Nat} (h : chunk ≤ i) :
    (topBits v rem chunk).getLsbD i = false := by
  simp [topBits, getLsbD_mask, Nat.not_lt.mpr h]

/-- The bit of a byte after a chunk is placed (R153). -/
theorem getLsbD_placeChunk (cur : Byte) (bits : Word) (pos chunk j : Nat) (hj : j < 8) :
    (placeChunk cur bits pos chunk).getLsbD j =
      (cur.getLsbD j || (decide (8 - pos - chunk ≤ j) && bits.getLsbD (j - (8 - pos - chunk)))) := by
  by_cases h : 8 - pos - chunk ≤ j
  · simp [placeChunk, hj, h, Nat.not_lt.mpr h]
  · simp [placeChunk, hj, h]

/-- Placing a chunk appends its bits to those already placed, and the rest of the byte stays zero (R37, R153). -/
theorem placeChunk_bits (cur : Byte) (bits : Word) (pos chunk : Nat) (hpc : pos + chunk ≤ 8)
    (hz : cur &&& byteMask (8 - pos) = 0#8) (hb : ∀ i, chunk ≤ i → bits.getLsbD i = false) :
    (byteBits (placeChunk cur bits pos chunk)).take (pos + chunk) =
        (byteBits cur).take pos ++ fieldBits chunk bits ∧
      placeChunk cur bits pos chunk &&& byteMask (8 - (pos + chunk)) = 0#8 := by
  rw [and_byteMask_eq_zero] at hz
  constructor
  · refine List.ext_getElem (by simp; omega) fun i h1 h2 => ?_
    have hi : i < pos + chunk := by simp at h1; omega
    rw [List.getElem_take, byteBits_getElem, getLsbD_placeChunk _ _ _ _ _ (by omega)]
    by_cases hp : i < pos
    · have hl : i < ((byteBits cur).take pos).length := by simp; omega
      rw [List.getElem_append_left hl, List.getElem_take, byteBits_getElem]
      rw [hb (7 - i - (8 - pos - chunk)) (by omega)]
      simp
    · have hl : ((byteBits cur).take pos).length ≤ i := by simp; omega
      rw [List.getElem_append_right hl, fieldBits_getElem, hz (7 - i) (by omega)]
      have hlen : ((byteBits cur).take pos).length = pos := by simp; omega
      have hge : 8 - pos - chunk ≤ 7 - i := by omega
      simp only [hlen, hge, decide_true, Bool.true_and, Bool.false_or]
      congr 1
      omega
  · rw [and_byteMask_eq_zero]
    intro i hi
    rw [getLsbD_placeChunk _ _ _ _ _ (by omega), hz i (by omega)]
    have : ¬ 8 - pos - chunk ≤ i := by omega
    simp [this]

/-- The Writer emitted these bytes, in order, and keeps its lifecycle and its binding (R64). -/
structure Writer.Gave (w : Writer) (bytes : List Byte) (w' : Writer) : Prop where
  life : w'.life = w.life
  sink : w'.sink = w.sink.map (fun sink => sink ++ bytes)
  emitted : w'.emitted = w.emitted + bytes.length

theorem Writer.Gave.refl (w : Writer) : w.Gave [] w := ⟨rfl, by cases w.sink <;> simp, rfl⟩

theorem Writer.Gave.trans {w w' w'' : Writer} {l l' : List Byte} (h : w.Gave l w') (h' : w'.Gave l' w'') :
    w.Gave (l ++ l') w'' where
  life := h'.life.trans h.life
  sink := by rw [h'.sink, h.sink, Option.map_map]; cases w.sink <;> simp
  emitted := by rw [h'.emitted, h.emitted, List.length_append]; omega

theorem Writer.Gave.isSome {w w' : Writer} {l : List Byte} (h : w.Gave l w') : w'.sink.isSome = w.sink.isSome := by
  rw [h.sink, Option.isSome_map]

theorem Writer.Gave.emittedBytes {w w' : Writer} {l : List Byte} (h : w.Gave l w') (hs : w.sink.isSome = true) :
    w'.emittedBytes = w.emittedBytes ++ l := by
  obtain ⟨sink, hs⟩ := Option.isSome_iff_exists.mp hs
  simp [Writer.emittedBytes, h.sink, hs]

/-- A Writer with a sink, its cursor inside the byte and the unplaced bits zero (R37, R38). -/
structure Writer.Ready (w : Writer) : Prop where
  sink : w.sink.isSome = true
  pos : w.pos ≤ 7
  zero : w.cur &&& byteMask (8 - w.pos) = 0#8

/-- The flush of a full byte (R153): the written bits are the same, and the cursor is inside a byte again. -/
theorem flushFull_cases (w : Writer) (hs : w.sink.isSome = true) (hp : w.pos ≤ 8)
    (hz : w.cur &&& byteMask (8 - w.pos) = 0#8) :
    (flushFull w).Ready ∧ (flushFull w).written = w.written ∧ ∃ l, w.Gave l (flushFull w) := by
  unfold flushFull
  by_cases h : w.pos = 8
  · have hg : w.Gave [w.cur] { sinkEmit w.cur w with cur := 0#8, pos := 0 } := ⟨rfl, rfl, rfl⟩
    rw [if_pos h]
    refine ⟨⟨hg.isSome.trans hs, by simp, by simp⟩, ?_, [w.cur], hg⟩
    simp only [Writer.written, hg.emittedBytes hs, bitsOf_append, h, bitsOf_cons, bitsOf_nil, List.take_zero]
    rw [List.take_of_length_le (by simp)]
    simp
  · rw [if_neg h]
    exact ⟨⟨hs, by omega, hz⟩, rfl, [], .refl w⟩

/-- One turn of the write loop places the top chunk and leaves the rest of the field. -/
theorem fieldBits_topBits (v : Word) {rem chunk : Nat} (h : chunk ≤ rem) :
    fieldBits rem v = fieldBits chunk (topBits v rem chunk) ++ fieldBits (rem - chunk) (v &&& mask (rem - chunk)) := by
  rw [topBits, fieldBits_and_mask, fieldBits_and_mask, ← fieldBits_add, Nat.add_sub_cancel' h]

/-- What `WriteBits` can do (R153): the field's bits follow the bits written before. -/
theorem writeLoop_cases (fuel rem : Nat) (v : Word) (w : Writer) (hf : rem ≤ fuel) (hw : w.Ready) :
    (writeLoop fuel rem v w).Ready ∧ (writeLoop fuel rem v w).written = w.written ++ fieldBits rem v ∧
      ∃ l, w.Gave l (writeLoop fuel rem v w) := by
  induction fuel generalizing rem v w with
  | zero =>
    obtain rfl : rem = 0 := by omega
    exact ⟨hw, by simp [writeLoop], [], .refl w⟩
  | succ fuel ih =>
    by_cases hr : rem = 0
    · subst hr
      exact ⟨by simpa [writeLoop] using hw, by simp [writeLoop], [], by simpa [writeLoop] using .refl w⟩
    · simp only [writeLoop, hr, if_false]
      have hle : min rem (8 - w.pos) ≤ rem := Nat.min_le_left _ _
      have hp := hw.pos
      have hpc : w.pos + min rem (8 - w.pos) ≤ 8 := by omega
      obtain ⟨hbits, hzero⟩ := placeChunk_bits w.cur (topBits v rem (min rem (8 - w.pos))) w.pos
        (min rem (8 - w.pos)) hpc hw.zero (fun i hi => topBits_getLsbD_of_ge v rem hi)
      obtain ⟨hready, hwritten, l1, hg1⟩ := flushFull_cases
        { w with cur := placeChunk w.cur (topBits v rem (min rem (8 - w.pos))) w.pos (min rem (8 - w.pos)),
                 pos := w.pos + min rem (8 - w.pos) } hw.sink hpc hzero
      obtain ⟨hready2, hwritten2, l2, hg2⟩ := ih (rem - min rem (8 - w.pos))
        (v &&& mask (rem - min rem (8 - w.pos))) _ (by omega) hready
      have hg1' : w.Gave l1 _ := ⟨hg1.life, hg1.sink, hg1.emitted⟩
      refine ⟨hready2, ?_, l1 ++ l2, hg1'.trans hg2⟩
      rw [hwritten2, hwritten, fieldBits_topBits v hle]
      simp only [Writer.written, Writer.emittedBytes, hbits, List.append_assoc]

/-- `WriteBits(v, n)` (R153, R161). -/
theorem writeBits_cases (v : Word) (n : Nat) (w : Writer) (hw : w.Ready) :
    (writeBits v n w).Ready ∧ (writeBits v n w).written = w.written ++ fieldBits n v ∧
      ∃ l, w.Gave l (writeBits v n w) := writeLoop_cases n n v w le_rfl hw

/-- An OPEN Writer that meets its invariant is ready. -/
theorem Writer.Inv.ready {w : Writer} (h : w.Inv) (ho : w.life = .opened) : w.Ready :=
  ⟨h.2.2.1.mp ho, h.1, h.2.1⟩

/-- A write keeps the Writer's invariant (R37, R38). -/
theorem writeBits_inv (v : Word) (n : Nat) {w : Writer} (h : w.Inv) (ho : w.life = .opened) : (writeBits v n w).Inv := by
  have hw := h.ready ho
  obtain ⟨hr, _, l, hg⟩ := writeBits_cases v n w hw
  refine ⟨hr.pos, hr.zero, by rw [hg.life, hg.isSome]; exact h.2.2.1, fun _ => ?_⟩
  rw [hg.emitted, hg.emittedBytes hw.sink, h.2.2.2 ho, List.length_append]

/-- The flush of W.CLOSE (R158): the partial byte, if there is one, and only it; then both registers are zero. -/
theorem flushPartial_cases (w : Writer) :
    (flushPartial w).cur = 0#8 ∧ (flushPartial w).pos = 0 ∧
      (w.pos = 0 → w.Gave [] (flushPartial w)) ∧ (0 < w.pos → w.Gave [w.cur] (flushPartial w)) := by
  unfold flushPartial
  by_cases h : 0 < w.pos
  · rw [if_pos h]
    exact ⟨rfl, rfl, fun h0 => by omega, fun _ => ⟨rfl, rfl, rfl⟩⟩
  · rw [if_neg h]
    exact ⟨rfl, rfl, fun _ => ⟨rfl, (Writer.Gave.refl w).sink, rfl⟩, fun h0 => absurd h0 h⟩

end Sys2Proof.Machine
end

