-- ==== Sys2Proof/Tests/Slice0.lean ====
section
/-! SUPPORT. The model's own tests: decoding of words written out from the spec's encoding, the WellFormed smoke test,
one-step results from the vectors of spec 95_test_vectors.md, and for every statement with hypotheses a named witness
that meets them. -/

namespace Sys2Proof.Tests

open Sys2Proof Sys2Proof.Machine

/-! ### Small states -/

/-- A consumer with one reply, whatever it is given. -/
def replyConsumer (reply : Reply ConsumerTerm) : Consumer := ⟨0, .rules [⟨.const 1, reply, .state⟩], []⟩

/-- A consumer that answers `k` to every invocation. -/
def constConsumer (k : Nat) : Consumer := replyConsumer (.width (.const k))

/-- Spec 95 P3's Elias gamma consumer: 0 before the seed, and then `1 + 2z` in mode Z and `2 + 2z` in mode P. -/
def gammaConsumer : Consumer :=
  let z : ConsumerTerm := .div (.sub .state (.const 1)) (.const 2)
  let inZ : ConsumerTerm := .mod .state (.const 2)
  ⟨0, .rules [
    ⟨.eq .state (.const 0), .width (.const 1), .const 1⟩,
    ⟨.mul inZ (.eq .value (.const 0)), .width (.const 1), .add .state (.const 2)⟩,
    ⟨.eq .state (.const 1), .width (.const 1), .state⟩,
    ⟨inZ, .width z, .add .state (.const 1)⟩,
    ⟨.const 1, .width (.const 1), .const 1⟩], []⟩

/-- An OPEN Reader with this byte, position and source. -/
def withR (cur : Byte) (pos : Nat) (bytes : List Byte) (s : State := State.reset) : State :=
  { s with r := ⟨.opened, cur, pos, some { bytes := bytes }, 0⟩, env := { s.env with src := .lent } }

/-- An OPEN Writer with this byte, position and sink. -/
def withW (cur : Byte) (pos : Nat) (sink : List Byte) (s : State := State.reset) : State :=
  { s with w := ⟨.opened, cur, pos, some sink, sink.length⟩, env := { s.env with sink := true } }

/-- A push unit bound to this consumer. -/
def withP (life : PushLife) (fail : Status) (acc : Word) (level want : Nat) (c : Consumer)
    (s : State := State.reset) : State :=
  { s with p := ⟨life, fail, acc, level, want, some c, 0⟩, env := { s.env with cons := .lent } }

/-- The last response. -/
def reply (o : Result) : Option Response :=
  match o with
  | .next s => s.host.responses.getLast?
  | .fault _ => none
  | .refused _ => none

/-- What a next state shows. -/
def seen {α : Type} (f : State → α) (o : Result) : Option α :=
  match o with
  | .next s => some (f s)
  | .fault _ => none
  | .refused _ => none

/-- The decoded command. -/
def decoded (c : Command) : Option Instr :=
  match decode c with
  | .ok i => some i
  | .error _ => none

/-- The reader's `cur`, `pos` and source. -/
def readerShows (s : State) : Byte × Nat × List Byte := (s.r.cur, s.r.pos, s.r.pending)

/-- The writer's `cur`, `pos` and sink. -/
def writerShows (s : State) : Byte × Nat × List Byte := (s.w.cur, s.w.pos, s.w.emittedBytes)

/-- The push unit's `acc`, `level`, `want`, `life`, and what its consumer received. -/
def pushShows (s : State) : Word × Nat × Nat × PushLife × List Word :=
  (s.p.acc, s.p.level, s.p.want, s.p.life, (s.p.cons.map Consumer.received).getD [])

/-- `OK/1/r0/r1`. -/
abbrev done (r0 r1 : Word) : Option Response := some (.delivered r0 r1)

/-- `E/0/0/0`. -/
abbrev err (e : Status) : Option Response := some (.error e)

/-! ### Decoding words written out from the encoding (R81, R84): RSV, OFFSET, COUNT, OP -/

theorem test_decodeBbCountUsed : decoded ⟨0x00000001#32, 22#64, 9#64⟩ = some (.bbCountUsed 22#64) := by decide
theorem test_decodeBbPush : decoded ⟨0x00000202#32, 5#64, 2#64⟩ = some (.bbPush 5#64 2#64 2) := by decide
theorem test_decodeBbPop : decoded ⟨0x00004003#32, 7#64, 9#64⟩ = some (.bbPop 7#64 64) := by decide
theorem test_decodeROpen : decoded ⟨0x00000010#32, 3#64, 4#64⟩ = some (.rOpen) := by decide
theorem test_decodeRRead : decoded ⟨0x00000911#32, 3#64, 4#64⟩ = some (.rRead 9) := by decide
theorem test_decodeRTryRead : decoded ⟨0x0000FF12#32, 3#64, 4#64⟩ = some (.rTryRead 255) := by decide
theorem test_decodeRPeek : decoded ⟨0x00000013#32, 0#64, 0#64⟩ = some (.rPeek) := by decide
theorem test_decodeRTryPeek : decoded ⟨0x00000014#32, 0#64, 0#64⟩ = some (.rTryPeek) := by decide
theorem test_decodeRClose : decoded ⟨0x0000001F#32, 0#64, 0#64⟩ = some (.rClose) := by decide
theorem test_decodeWOpen : decoded ⟨0x00000020#32, 0#64, 0#64⟩ = some (.wOpen) := by decide
theorem test_decodeWWrite : decoded ⟨0x00000221#32, 255#64, 0#64⟩ = some (.wWrite 255#64 2) := by decide
theorem test_decodeWWriteOff : decoded ⟨0x00040822#32, 0xABCD#64, 0#64⟩ = some (.wWriteOff 0xABCD#64 8 4) := by decide
theorem test_decodeWClose : decoded ⟨0x0000002F#32, 0#64, 0#64⟩ = some (.wClose) := by decide
theorem test_decodePInit : decoded ⟨0x00000030#32, 0#64, 0#64⟩ = some (.pInit) := by decide
theorem test_decodePInsert : decoded ⟨0x00000231#32, 0xA640#64, 0#64⟩ = some (.pInsert 0xA640#64 2) := by decide
theorem test_decodePFlushByte : decoded ⟨0x00000032#32, 0#64, 0#64⟩ = some (.pFlushByte) := by decide

/-- Spec 95 section 2: the words that match no row, with the reason of R87. -/
theorem test_decodeRejects :
    [0x00000000#32, 0x00000004#32, 0x00000101#32, 0x00010001#32, 0x01000001#32, 0x00000040#32, 0x0000011F#32,
      0x00010321#32].map (fun w => match decode ⟨w, 0#64, 0#64⟩ with | .ok _ => none | .error e => some e) =
    [some .unassignedFunction, some .unassignedFunction, some .countNotUsed, some .offsetNotUsed, some .reservedBits,
      some .reservedUnit, some .countNotUsed, some .offsetNotUsed] := by decide

/-- The operands as the table numbers them: the word in bits 31..0, `A` from bit 32, `B` from bit 96 (R80). -/
theorem test_tableWordOperands :
    decodeTableWord 160 (0x00000202 + 5 * 2 ^ 32 + 2 * 2 ^ 96) = some (.bbPush 5#64 2#64 2) ∧
      decodeTableWord 32 (0x00000202 + 5 * 2 ^ 32) = some (.bbPush 0#64 0#64 2) ∧
      decodeTableWord 32 0x0000011F = none := by decide

/-- R88 and spec 95 section 2: `P.INSERT 1,2,3,4,5,6,7,8` puts byte 0x01 first. -/
theorem test_insertPacking :
    encode (insertBytes [1#8, 2#8, 3#8, 4#8, 5#8, 6#8, 7#8, 8#8]) = ⟨0x00000831#32, 0x0102030405060708#64, 0#64⟩ ∧
      unpackBytes 0x0102030405060708#64 8 = [1#8, 2#8, 3#8, 4#8, 5#8, 6#8, 7#8, 8#8] ∧
      unpackBytes 0xFFA640#64 2 = [0xA6#8, 0x40#8] := by decide

/-! ### WellFormed refuses a field that does not fit -/

theorem test_wellFormedRefusesCount :
    [Instr.bbPush 0#64 0#64 256, .bbPop 0#64 256, .rRead 256, .rTryRead 256, .wWrite 0#64 256, .wWriteOff 0#64 256 0,
      .pInsert 0#64 256].all (fun i => !i.wellFormed) = true := by decide

theorem test_wellFormedRefusesOffset : (Instr.wWriteOff 0#64 255 256).wellFormed = false := by decide

theorem test_wellFormedTakesOutOfRangeCounts :
    [Instr.rRead 65, .wWriteOff 0#64 255 255, .pInsert 0#64 9].all Instr.wellFormed = true := by decide

/-! ### One-step results (spec 95 sections 3 to 6) -/

/-- 95 section 3. -/
theorem test_countUsed :
    reply (exec (.bbCountUsed 0#64) State.reset) = done 1#64 0#64 ∧
      reply (exec (.bbCountUsed 0x8000000000000000#64) State.reset) = done 64#64 0#64 ∧
      reply (exec (.bbCountUsed 0x100#64) State.reset) = done 9#64 0#64 := by
  decide

/-- 95 section 3. -/
theorem test_push :
    reply (exec (.bbPush 0x8000000000000000#64 1#64 1) State.reset) = done 1#64 0#64 ∧
      reply (exec (.bbPush 5#64 3#64 2) State.reset) = done 0x17#64 0#64 := by
  decide

/-- 95 section 3. -/
theorem test_pushEdges :
    reply (exec (.bbPush 0x1234#64 0xABCD#64 64) State.reset) = done 0xABCD#64 0#64 ∧
      reply (exec (.bbPush 0x1234#64 0xABCD#64 0) State.reset) = done 0x1234#64 0#64 ∧
      reply (exec (.bbPush 1#64 1#64 65) State.reset) = err .invalidArgument := by
  decide

/-- 95 section 3. -/
theorem test_pop :
    reply (exec (.bbPop 0xDEADBEEF#64 8) State.reset) = done 0xEF#64 0xDEADBE#64 ∧
      reply (exec (.bbPop 0xDEADBEEF#64 64) State.reset) = done 0xDEADBEEF#64 0#64 := by
  decide

/-- 95 section 3. -/
theorem test_popEdges :
    reply (exec (.bbPop 0x1234#64 0) State.reset) = done 0#64 0x1234#64 ∧
      reply (exec (.bbPop 0xDEADBEEF#64 200) State.reset) = err .invalidArgument := by
  decide

/-- 95 R-14, R-15, R-16. -/
theorem test_rOpen :
    seen readerShows (exec .rOpen { State.reset with env := { State.reset.env with src := .attached { bytes := [1#8] } } }) =
      some (0#8, 8, [1#8]) ∧ reply (exec .rOpen State.reset) = err .invalidArgument ∧
      reply (exec .rOpen (withR 0#8 8 [])) = err .invalidArgument := by
  decide

/-- 95 R-1, second read. -/
theorem test_rReadAcrossBytes :
    reply (exec (.rRead 8) (withR 0xA5#8 4 [0x3C#8])) = done 0x53#64 0#64 ∧
      seen readerShows (exec (.rRead 8) (withR 0xA5#8 4 [0x3C#8])) = some (0x3C#8, 4, []) := by
  decide

/-- 95 R-8, and section 8 (argument before stream access). -/
theorem test_rReadEndOfStream :
    reply (exec (.rRead 12) (withR 0#8 8 [0xF0#8])) = err .endOfStream ∧
      seen readerShows (exec (.rRead 12) (withR 0#8 8 [0xF0#8])) = some (0xF0#8, 8, []) ∧
      reply (exec (.rRead 65) (withR 0#8 8 [])) = err .invalidArgument := by
  decide

/-- 95 R-9. -/
theorem test_rTryRead :
    reply (exec (.rTryRead 12) (withR 0#8 8 [0xF0#8])) = some .exhausted ∧
      seen readerShows (exec (.rTryRead 12) (withR 0#8 8 [0xF0#8])) = some (0xF0#8, 8, []) := by
  decide

/-- 95 R-10. -/
theorem test_rPeek :
    reply (exec .rPeek (withR 0#8 8 [0x80#8])) = done 1#64 0#64 ∧
      seen readerShows (exec .rPeek (withR 0#8 8 [0x80#8])) = some (0x80#8, 0, []) ∧
      reply (exec .rPeek (withR 0x80#8 1 [])) = done 0#64 0#64 := by
  decide

/-- 95 R-10 and R-11. -/
theorem test_rTryPeek :
    reply (exec .rTryPeek (withR 0x80#8 8 [])) = some .exhausted ∧
      reply (exec .rTryPeek (withR 0x80#8 0 [])) = done 1#64 0#64 ∧
      reply (exec .rTryPeek State.reset) = err .useAfterClose := by
  decide

/-- 95 R-14: the source still holds its byte. -/
theorem test_rClose :
    seen (fun s => (s.r.life, s.r.src, s.env.src)) (exec .rClose (withR 0#8 8 [1#8])) =
      some (.closed, none, .attached { bytes := [1#8] }) ∧
      seen (fun s => s.r.life) (exec .rClose State.reset) = some .idle := by
  decide

/-- 95 W-13. -/
theorem test_wOpen :
    seen writerShows (exec .wOpen { State.reset with env := { State.reset.env with sink := true } }) = some (0#8, 0, []) ∧
      reply (exec .wOpen State.reset) = err .invalidArgument ∧ reply (exec .wOpen (withW 0#8 0 [])) = err .invalidArgument := by
  decide

/-- 95 W-2. -/
theorem test_wWrite :
    seen writerShows (exec (.wWrite 0xABC#64 12) (withW 0#8 0 [])) = some (0xC0#8, 4, [0xAB#8]) := by
  decide

/-- 95 W-10. -/
theorem test_wWriteUnaligned :
    seen writerShows (exec (.wWrite 0xFFFFFFFFFFFFFFFF#64 64) (withW 0x80#8 1 [])) =
      some (0x80#8, 1, List.replicate 8 0xFF#8) := by
  decide

/-- 95 W-5 and W-4. -/
theorem test_wWriteOff :
    seen writerShows (exec (.wWriteOff 0x8000000000000000#64 4 60) (withW 0#8 0 [])) = some (0x80#8, 4, []) ∧
      seen writerShows (exec (.wWriteOff 0x1234#64 8 4) (withW 0#8 0 [])) = some (0#8, 0, [0x23#8]) := by
  decide

/-- 95 W-6 and W-8. -/
theorem test_wWriteOffPastTheTop :
    seen writerShows (exec (.wWriteOff 0xFF#64 8 63) (withW 0#8 0 [])) = some (0#8, 0, [0#8]) ∧
      reply (exec (.wWriteOff 0xFF#64 8 64) (withW 0#8 0 [])) = err .invalidArgument := by
  decide

/-- 95 W-2 and W-13. -/
theorem test_wClose :
    seen (fun s => (s.w.life, s.w.sink, s.host.sinks)) (exec .wClose (withW 0xC0#8 4 [0xAB#8])) =
      some (.closed, none, [[0xAB#8, 0xC0#8]]) ∧
      reply (exec .wClose State.reset) = done 0#64 0#64 := by
  decide

/-- 95 section 6: the seed 0. -/
theorem test_pInit :
    seen pushShows (exec .pInit { State.reset with env := { State.reset.env with cons := .attached (constConsumer 64) } }) =
      some (0#64, 0, 64, .live, [0#64]) := by
  decide

/-- 95 P-14 and P-17. -/
theorem test_pInitRejects :
    reply (exec .pInit { State.reset with env := { State.reset.env with cons := .attached (constConsumer 65) } }) =
      err .invalidArgument ∧
      seen pushShows (exec .pInit { State.reset with env := { State.reset.env with cons := .attached (constConsumer 65) } }) =
      some (0#64, 0, 1, .idle, [0#64]) ∧ reply (exec .pInit State.reset) = err .invalidArgument := by
  decide

/-- 95, the chunking check of P-2. -/
theorem test_pInsert :
    seen pushShows (exec (.pInsert 0xFF00#64 2) (withP .live .ok 0#64 0 3 (constConsumer 3))) =
      some (0xFF00#64, 1, 3, .live, [7#64, 7#64, 6#64, 0#64, 0#64]) := by
  decide

/-- 95 P-13, P-11 and section 8. -/
theorem test_pInsertFails :
    seen pushShows (exec (.pInsert 0x80FF#64 2) (withP .live .ok 0#64 0 1 (constConsumer 0))) =
      some (0x80#64, 7, 1, .failed, [1#64]) ∧
      reply (exec (.pInsert 0xFF#64 1) (withP .live .ok 0xFF#64 61 64 (constConsumer 64))) = err .overflow ∧
      reply (exec (.pInsert 0xFF#64 9) (withP .failed .overflow 0xFF#64 61 64 (constConsumer 64))) = err .overflow := by
  decide

/-- 95 P-3. -/
theorem test_pFlushByte :
    seen pushShows (exec .pFlushByte (withP .live .ok 0xFF#64 2 3 (constConsumer 3))) = some (0xFF#64, 0, 3, .live, []) := by
  decide

/-- 95 P-5 and P-15. -/
theorem test_pFlushByteOnABoundary :
    seen pushShows (exec .pFlushByte (withP .live .ok 0xAB#64 8 12 (constConsumer 12))) =
      some (0xAB#64, 8, 12, .live, []) ∧
      reply (exec .pFlushByte State.reset) = err .useAfterClose := by
  decide

/-- 95 P3: the 15 deliveries, and `z = 4` at the end. -/
theorem test_pInsertGamma :
    seen (fun s => (s.p.cons.map fun c => (c.state, c.received), s.p.level, s.p.want))
      (exec (.pInsert 0xA640#64 2) (withP .live .ok 0#64 0 1 { gammaConsumer with state := 1 })) =
      some (some (9, [1#64, 0#64, 1#64, 0#64, 0#64, 1#64, 1#64, 0#64, 0#64, 1#64, 0#64, 0#64, 0#64, 0#64, 0#64]), 0, 1) := by
  decide

/-- R265. -/
theorem test_readerRecordsTheBytesTaken :
    seen (fun s => s.r.src) (exec (.rRead 8) (withR 0xA5#8 4 [0x3C#8, 1#8])) =
      some (some { bytes := [1#8], taken := [0x3C#8] }) := by
  decide

/-- Log entry 20. -/
theorem test_attachingGivesTheOldSourceBack :
    seen (fun s => (s.env.src, s.host.sources))
      (hostAct (.attachSource { bytes := [2#8] }) (State.reset.withSrcPort (.attached { bytes := [1#8] }))) =
      some (.attached { bytes := [2#8] }, [{ bytes := [1#8] }]) := by
  decide

/-- 95 W-14. -/
theorem test_resetLosesThePartialByte :
    seen (fun s => (s.w, s.host.sinks)) (hostAct .reset (withW 0x20#8 3 [])) = some (Writer.reset, [[]]) := by
  decide

/-- The command placed by `withFetchWord` is the one the next step runs. -/
theorem test_withFetchWord (s : State) (nbits w : Nat) (i : Instr) (h : decode (commandOfBits nbits w) = .ok i) :
    step (s.withFetchWord nbits w) = exec i s := by
  simp only [step, State.withFetchWord, State.withInbox, runCommand, h]

/-- The same for a word that matches no row. -/
theorem test_withFetchWordIllegal :
    reply (step (State.reset.withFetchWord 32 0x0000011F)) = err .illegalCommand := by decide

/-! ### Host-side text and assembler (spec 95 section 7; 30_encoding.md R91, R92) -/

/-- 95 section 7. -/
theorem test_bytesToText :
    bytesToText [0xFF#8, 0x80#8] = "11111111 10000000".toList ∧ bytesToText [] = [] := by
  decide

/-- 95 section 7. -/
theorem test_toBinaryString :
    toBinaryString 0#64 = "00000000".toList ∧ toBinaryString 0x1FF#64 = "00000001 11111111".toList ∧
      toBinaryString 1#64 9 = "00000000 00000001".toList ∧ toBinaryString 1#64 0 = "00000001".toList := by
  decide

/-- 95 section 7. -/
theorem test_parseBinaryString :
    parseBinaryString "________".toList = .ok [0#8] ∧ parseBinaryString "1111111_".toList = .ok [0xFE#8] ∧
      parseBinaryString "11000000\t01000000\r\n".toList = .ok [0xC0#8, 0x40#8] ∧
      parseBinaryString "0".toList = .error .formatError ∧ parseBinaryString "0000000a".toList = .error .formatError := by
  decide

/-- R91, R92. -/
theorem test_assembleLine :
    assembleLine "W.WRITEOFF 0xABCD, 8, 4 ; off".toList = some [.wWriteOff 0xABCD#64 8 4] ∧
      assembleLine "P.INSERT 0xA6, 0x40".toList = some [.pInsert 0xA640#64 2] ∧
      assembleLine "P.INSERT".toList = some [.pInsert 0#64 0] ∧ assembleLine "; note".toList = some [] ∧
      assembleLine "R.READ 256".toList = none ∧ assembleLine "W.WRITEBIT true".toList = some [.wWrite 1#64 1] := by
  decide

/-! ### Witnesses: for each statement with hypotheses, concrete states and operands that meet all of them -/

/-- An answer of a step is a next state. -/
def goesOn (o : Result) : Bool := (seen id o).isSome

/-- A state with nothing bound and every input attached. -/
def ready : State :=
  { State.reset with env := { src := .attached { bytes := [0xA5#8, 0x3C#8] }, sink := true, cons := .attached (constConsumer 64) } }

theorem witness_DecodeUndoesEncode :
    (Instr.wWriteOff 0xABCD#64 255 255).WellFormed ∧ (Instr.pInsert 1#64 0).WellFormed := by decide

theorem witness_EncodeUndoesDecode :
    decode ⟨0x00FFFF22#32, 5#64, 6#64⟩ = .ok (.wWriteOff 5#64 255 255) ∧
      decode ⟨0x0000FF02#32, 5#64, 6#64⟩ = .ok (.bbPush 5#64 6#64 255) := ⟨rfl, rfl⟩

/-- A row and a word that matches it; a word that matches no row. -/
theorem witness_DecodingByTheOneMatchingRow :
    (∃ row ∈ opcodeTable, row.hits 0x00FFFF22#32 = true) ∧
      (∀ row ∈ opcodeTable, row.hits 0x00010321#32 = false) := by decide

/-- Each cause of R87, at a boundary. -/
theorem witness_IllegalWordsExactly :
    [0x01000001#32, 0x00000040#32, 0x00000000#32, 0x00000004#32, 0x00000015#32, 0x0000001E#32, 0x00000023#32,
      0x0000002E#32, 0x00000033#32, 0x0000011F#32, 0x00010321#32].all
        (fun w => (decoded ⟨w, 0#64, 0#64⟩).isNone) = true ∧ (decoded ⟨0x0000FF31#32, 0#64, 0#64⟩).isSome = true := by
  decide

theorem witness_UnnamedOperandsIgnored :
    decode ⟨0x00000911#32, 1#64, 2#64⟩ = .ok (.rRead 9) ∧
      ((Instr.rRead 9).operandA.isSome = true → (1#64 : Word) = 7#64) ∧
      ((Instr.rRead 9).operandB.isSome = true → (2#64 : Word) = 8#64) ∧
      decode ⟨0x00000203#32, 1#64, 2#64⟩ = .ok (.bbPop 1#64 2) ∧
      ((Instr.bbPop 1#64 2).operandA.isSome = true → (1#64 : Word) = 1#64) ∧
      ((Instr.bbPop 1#64 2).operandB.isSome = true → (2#64 : Word) = 8#64) := by
  refine ⟨rfl, ?_, ?_, rfl, ?_, ?_⟩ <;> decide

theorem witness_InsertOperandPacking :
    (8 ≤ 8 ∧ 7 < 8) ∧ (1 ≤ 8 ∧ 0xFFA6#64 ≠ 0xA6#64 ∧ (0xFFA6#64).toNat % 2 ^ (8 * 1) = (0xA6#64).toNat % 2 ^ (8 * 1)) ∧
      (List.replicate 8 0xFF#8).length ≤ 8 := by decide

theorem witness_StepRunsDecodedCommand :
    (∃ (s : State) (c : Command), s.host.inbox = .command c :: [] ∧ decode c = .ok (.rRead 64)) ∧
      (∃ (s : State) (c : Command) (e : Illegal), s.host.inbox = .command c :: [] ∧ decode c = .error e) ∧
      (∃ (s : State) (a : HostAct), s.host.inbox = .act a :: []) ∧ State.reset.host.inbox = [] :=
  ⟨⟨State.reset.withInbox [.command ⟨0x00004011#32, 0#64, 0#64⟩], _, rfl, rfl⟩,
    ⟨State.reset.withInbox [.command ⟨0x0000011F#32, 0#64, 0#64⟩], _, .countNotUsed, rfl, rfl⟩,
    ⟨State.reset.withInbox [.act .reset], .reset, rfl⟩, rfl⟩

/-- Nothing attached, something attached, and something bound. -/
theorem witness_AttachmentActs :
    State.reset.env.src = .detached ∧ State.reset.env.cons = .detached ∧
      ready.env.src = .attached { bytes := [0xA5#8, 0x3C#8] } ∧ ready.env.cons = .attached (constConsumer 64) ∧
      (withR 0#8 8 []).env.src = .lent ∧ (withP .live .ok 0#64 0 1 (constConsumer 1)).env.cons = .lent := by decide

/-- For CountUsedLaws, PushResult, PopResult, PopUndoesPush and BitBufferWritesOnlyResponse: counts at both ends, and the
first out of range. -/
theorem witness_BitBufferCounts :
    (1 ≤ 1 ∧ 1 ≤ 64) ∧ (1 ≤ 64 ∧ 64 ≤ 64) ∧ 0 < (1#64 : Word).toNat ∧ 0 ≤ 64 ∧ 64 < 65 ∧
      (Instr.bbPush 0#64 0#64 65).unit = 0 ∧ 64 < (Instr.bbPop 0#64 65).count := by decide

theorem witness_ReaderOpens :
    (withR 0#8 8 []).r.life = .opened ∧ State.reset.env.src = .detached ∧
      ready.r.life ≠ .opened ∧ ready.env.src = .attached { bytes := [0xA5#8, 0x3C#8] } := by decide

/-- All 64 bits are there; one bit is asked for and none is there; no bit is asked for. -/
theorem witness_ReadTakesFirstBits :
    ((withR 0#8 8 (List.replicate 8 0xFF#8)).r.Inv ∧ (withR 0#8 8 (List.replicate 8 0xFF#8)).r.life = .opened ∧ 64 ≤ 64 ∧
      64 ≤ (withR 0#8 8 (List.replicate 8 0xFF#8)).r.remaining.length) ∧
    ((withR 0#8 8 []).r.Inv ∧ (withR 0#8 8 []).r.life = .opened ∧ (withR 0#8 8 []).r.remaining.length < 1) := by decide

theorem witness_ReadAtEndOfStream :
    (withR 0xA5#8 4 [0x3C#8]).r.Inv ∧ (withR 0xA5#8 4 [0x3C#8]).r.life = .opened ∧ 13 ≤ 64 ∧
      (withR 0xA5#8 4 [0x3C#8]).r.remaining.length < 13 ∧ 1 ≤ 64 ∧ 64 ≤ 64 := by decide

theorem witness_ReaderRejectsUnchanged :
    State.reset.r.life ≠ .opened ∧ (withR 0#8 8 []).r.life = .opened ∧ 64 < 65 := by decide

/-- For PeekShowsNextBit and TryPeekFollowsPeek: a Reader that is not OPEN; no bit left; a bit left in the byte, and a byte to fetch. -/
theorem witness_Peeks :
    State.reset.r.Inv ∧ State.reset.r.life ≠ .opened ∧
      ((withR 0#8 8 []).r.Inv ∧ (withR 0#8 8 []).r.life = .opened ∧ (withR 0#8 8 []).r.remaining = []) ∧
      ((withR 1#8 7 []).r.Inv ∧ (withR 1#8 7 []).r.remaining = true :: [] ∧ (withR 1#8 7 []).r.pos ≤ 7) ∧
      ((withR 1#8 8 [0x80#8]).r.Inv ∧ (withR 1#8 8 [0x80#8]).r.remaining = true :: List.replicate 7 false ∧
        (withR 1#8 8 [0x80#8]).r.pos = 8) := by decide

theorem witness_ReaderCloses :
    State.reset.r.life ≠ .opened ∧
      ((withR 0#8 8 [1#8]).r.life = .opened ∧ (withR 0#8 8 [1#8]).r.src = some { bytes := [1#8] } ∧
        (withR 0#8 8 [1#8]).env.src = .lent) ∧
      (((withR 0#8 8 [1#8]).withSrcPort .detached).r.life = .opened ∧
        ((withR 0#8 8 [1#8]).withSrcPort .detached).r.src = some { bytes := [1#8] } ∧
        ((withR 0#8 8 [1#8]).withSrcPort .detached).env.src ≠ .lent) ∧
      (State.reset.withReader { Reader.reset with life := .closed }).r.life = .closed := by decide

theorem witness_ReadAdvancesStreamPosition :
    (withR 0xA5#8 4 [0x3C#8]).r.Inv ∧
      (∃ (v : Word) (t : State), exec (.rRead 8) (withR 0xA5#8 4 [0x3C#8]) = .next (t.respond (.delivered v 0#64))) ∧
      ∃ t : State, exec .rOpen ready = .next (t.respond (.delivered 0#64 0#64)) :=
  ⟨by decide, ⟨_, (withR 0xA5#8 4 [0x3C#8]).withReader (readCore 8 (withR 0xA5#8 4 [0x3C#8]).r).reader, rfl⟩,
    ⟨(ready.withReader ⟨.opened, 0#8, 8, some { bytes := [0xA5#8, 0x3C#8] }, 0⟩).withSrcPort .lent, rfl⟩⟩

theorem witness_StreamTransferBounds :
    (withR 1#8 8 (List.replicate 8 1#8)).r.Inv ∧ (withR 1#8 8 (List.replicate 8 1#8)).r.life = .opened ∧
      goesOn (exec (.rRead 64) (withR 1#8 8 (List.replicate 8 1#8))) = true ∧
      goesOn (exec .rPeek (withR 1#8 8 (List.replicate 8 1#8))) = true ∧
      (withW 0x80#8 7 []).w.Inv ∧ (withW 0x80#8 7 []).w.life = .opened ∧
      goesOn (exec (.wWrite 1#64 64) (withW 0x80#8 7 [])) = true ∧ goesOn (exec .wClose (withW 0x80#8 7 [])) = true := by
  decide

theorem witness_EndOfStreamIsSticky :
    ((withR 1#8 8 []).withInbox [.command ⟨0x00000111#32, 0#64, 0#64⟩]).r.Inv ∧
      ((withR 1#8 8 []).withInbox [.command ⟨0x00000111#32, 0#64, 0#64⟩]).r.src = some { bytes := [] } ∧
      seen (fun t => t.r.life) (step ((withR 1#8 8 []).withInbox [.command ⟨0x00000111#32, 0#64, 0#64⟩])) =
        some .opened := by decide

theorem witness_ReaderByteChangesOnlyOnLoad :
    (withR 1#8 8 [2#8, 3#8]).r.Inv ∧ Instr.rRead 9 ≠ .rOpen ∧
      seen (fun t => t.r.cur) (exec (.rRead 9) (withR 1#8 8 [2#8, 3#8])) = some 3#8 := by decide

theorem witness_WriterOpens :
    (withW 0#8 0 []).w.life = .opened ∧ State.reset.env.sink = false ∧
      ready.w.life ≠ .opened ∧ ready.env.sink = true := by decide

/-- For WriteAppendsField, WriteOffAppendsField, WriteIsWriteOffAtZero and WriterRejectsUnchanged: a Writer that is not
OPEN; an OPEN one with 7 bits waiting, at counts 0, 64 and 65 and offsets 63 and 64. -/
theorem witness_Writes :
    (State.reset.w.Inv ∧ State.reset.w.life ≠ .opened) ∧
      ((withW 0x80#8 7 [1#8]).w.Inv ∧ (withW 0x80#8 7 [1#8]).w.life = .opened) ∧
      (0 ≤ 64 ∧ 64 ≤ 64 ∧ 64 < 65 ∧ 63 < 64 ∧ 64 ≤ 64) ∧
      (Instr.wWriteOff 0#64 65 0).unit = 2 ∧ Instr.wWriteOff 0#64 65 0 ≠ .wOpen ∧ Instr.wWriteOff 0#64 65 0 ≠ .wClose ∧
      64 < (Instr.wWriteOff 0#64 65 0).count ∧ 64 ≤ (Instr.wWriteOff 0#64 1 64).offset := by decide

theorem witness_ChunkPlacementTwoCases :
    (0 ≤ 7 ∧ 1 ≤ 7 ∧ 7 ≤ 64 ∧ (0x7F#64).toNat < 2 ^ 7 ∧ 7 < 8 - 0) ∧
      (7 ≤ 7 ∧ 1 ≤ 64 ∧ 64 ≤ 64 ∧ (0xFFFFFFFFFFFFFFFF#64).toNat < 2 ^ 64 ∧ 8 - 7 ≤ 64) := by decide

theorem witness_WriterCloses :
    State.reset.w.life ≠ .opened ∧
      ((withW 0#8 0 [1#8]).w.Inv ∧ (withW 0#8 0 [1#8]).w.life = .opened ∧ (withW 0#8 0 [1#8]).w.sink = some [1#8] ∧
        (withW 0#8 0 [1#8]).w.pos = 0) ∧
      ((withW 0xFE#8 7 [1#8]).w.Inv ∧ (withW 0xFE#8 7 [1#8]).w.life = .opened ∧
        (withW 0xFE#8 7 [1#8]).w.sink = some [1#8] ∧ 0 < (withW 0xFE#8 7 [1#8]).w.pos) ∧
      (State.reset.withWriter { Writer.reset with life := .closed }).w.life = .closed := by decide

/-- For WriteLaw and WriteReadRoundTrip: writes like spec 95 P4's, from a state ready for both streams. -/
theorem witness_WriteLawAndRoundTrip :
    ready.w.life ≠ .opened ∧ ready.env.sink = true ∧ ready.r.life ≠ .opened ∧
      (∀ i ∈ [Instr.wWrite 5#64 3, .wWriteOff 0xFF#64 64 63, .wWrite 0#64 0], i.isLegalWrite = true) ∧
      (∀ p ∈ [(5#64, 3), (0x3FF#64, 10), (0#64, 0), (0xFFFFFFFFFFFFFFFF#64, 64)],
        (p : Word × Nat).2 ≤ 64 ∧ p.1.toNat < 2 ^ p.2) := by decide

/-- No consumer; answers at both ends of 1..64 and just outside; the consumer attached and lent. -/
theorem witness_InitSeedsSession :
    State.reset.env.cons = .detached ∧
      ready.env.cons.offered ready.p.cons = some (constConsumer 64) ∧
      (withP .live .ok 0#64 0 1 (constConsumer 1)).env.cons.offered (withP .live .ok 0#64 0 1 (constConsumer 1)).p.cons =
        some (constConsumer 1) ∧
      ([1, 64, 0, 65].map fun k => (constConsumer k).ask 0#64) =
        [1, 64, 0, 65].map fun k => Answer.width { constConsumer k with received := [0#64] } (BitVec.ofNat 8 k) := by
  decide

/-- A consumer that answers `k` to everything answers so for ever. -/
theorem constConsumer_answers {P : Byte → Prop} (k : Nat) (h : P (BitVec.ofNat 8 k)) : (constConsumer k).Answers P := by
  have key : ∀ (vs : List Word) (c c' : Consumer), c.behaviour = (constConsumer k).behaviour → c.after vs = some c' →
      ∀ v, ∃ c'' w, c'.ask v = .width c'' w ∧ P w := by
    intro vs
    induction vs with
    | nil =>
      intro c c' hb ha v
      obtain rfl : c = c' := Option.some.inj ha
      exact ⟨{ c with received := c.received ++ [v] }, _, by
        obtain ⟨_, _, _⟩ := c
        subst hb
        rfl, h⟩
    | cons v vs ih =>
      intro c c' hb ha
      refine ih { c with received := c.received ++ [v] } c' hb ?_
      obtain ⟨_, _, _⟩ := c
      subst hb
      exact ha
  exact fun vs c' ha v => key vs (constConsumer k) c' rfl ha v

/-- Each of the four cases, at its end: eight bytes on an empty unit that wants 64 bits; a level of 56 with widths of
57; a level of 56 with widths of 64; levels read off. -/
theorem witness_InsertCompletes :
    ((withP .live .ok 0#64 0 64 (constConsumer 64)).p.Inv ∧ (withP .live .ok 0#64 0 64 (constConsumer 64)).p.life = .live ∧
      8 ≤ 8 ∧ (withP .live .ok 0#64 0 64 (constConsumer 64)).p.cons = some (constConsumer 64) ∧
      (constConsumer 64).KeepsSessionAlive ∧ (withP .live .ok 0#64 0 64 (constConsumer 64)).p.level + 8 * 8 ≤ 64) ∧
    ((withP .live .ok 0#64 56 57 (constConsumer 57)).p.Inv ∧ (constConsumer 57).KeepsSessionAlive ∧
      (withP .live .ok 0#64 56 57 (constConsumer 57)).p.want ≤ 57 ∧ (constConsumer 57).Answers (fun w => w.toNat ≤ 57)) ∧
    ((withP .live .ok 0#64 56 64 (constConsumer 64)).p.Inv ∧
      (withP .live .ok 0#64 56 64 (constConsumer 64)).p.level % 8 = 0 ∧
      (withP .live .ok 0#64 56 64 (constConsumer 64)).p.want % 8 = 0 ∧
      (constConsumer 64).Answers (fun w => w.toNat % 8 = 0)) ∧
    ((withP .live .ok 0#64 0 60 (constConsumer 60)).p.Inv ∧ (constConsumer 60).KeepsSessionAlive ∧
      ∀ k, k < 8 → (pSteps askBound (withP .live .ok 0#64 0 60 (constConsumer 60)).p.decoder
        ((unpackBytes 0x0102030405060708#64 8).take k)).dec.level ≤ 56) := by
  refine ⟨⟨by decide, rfl, by decide, rfl, constConsumer_answers 64 (by decide), by decide⟩,
    ⟨by decide, constConsumer_answers 57 (by decide), by decide, constConsumer_answers 57 (by decide)⟩,
    ⟨by decide, by decide, by decide, constConsumer_answers 64 (by decide)⟩,
    by decide, constConsumer_answers 60 (by decide), by decide⟩

theorem witness_InsertRejectsUnchanged :
    State.reset.p.life = .idle ∧ (withP .failed .overflow 0#64 61 64 (constConsumer 64)).p.life = .failed ∧
      (withP .live .ok 0#64 0 64 (constConsumer 64)).p.life = .live ∧ 8 < 9 := by decide

theorem witness_FailedSessionStaysFailed :
    ((withP .live .ok 0#64 61 64 (constConsumer 64)).p.life = .live ∧ 8 ≤ 8 ∧
      ∃ t : State, exec (.pInsert 0#64 8) (withP .live .ok 0#64 61 64 (constConsumer 64)) =
        .next (t.respond (.error .overflow))) ∧
    ((withP .failed .overflow 0#64 61 64 (constConsumer 64)).p.life = .failed ∧ Instr.pFlushByte.unit = 3 ∧
      Instr.pFlushByte ≠ .pInit) :=
  ⟨⟨rfl, le_rfl, withP .failed .overflow 0#64 61 64 (constConsumer 64), rfl⟩, rfl, rfl, by decide⟩

/-- An answer for every value: the consumer of the statements about any consumer. -/
def always (k : Byte) : Unit → Word → Answer Unit := fun _ _ => .width () k

/-- An overflow at the least level that overflows; an answer of 0 and one of 65. -/
theorem witness_FailingInsertionEffect :
    ((1 ≤ 58 ∧ 58 ≤ 64) ∧ 57 ≤ 64 ∧ (pSteps (always 64#8) ⟨0#64, 57, 58, (), 0⟩ [1#8]).stop = some .overflow) ∧
      (pSteps (always 0#8) ⟨0#64, 0, 1, (), 0⟩ [0x80#8]).stop = some .badWidth ∧
      (pSteps (always 65#8) ⟨0#64, 0, 1, (), 0⟩ [0x80#8]).stop = some .badWidth := by decide

theorem witness_OverflowCondition :
    ((1 ≤ 58 ∧ 58 ≤ 64) ∧ 57 < 58 ∧ (pStep (always 64#8) ⟨0#64, 57, 58, (), 0⟩ 1#8).stop = some .overflow) ∧
      (∀ (q : Unit) (v : Word) (q' : Unit) (w : Byte), always 57#8 q v = .width q' w → w.toNat ≤ 57) ∧
      (∀ (q : Unit) (v : Word) (q' : Unit) (w : Byte), always 64#8 q v = .width q' w → w.toNat % 8 = 0) ∧
      (1 ≤ 57 ∧ 56 < 57 ∧ 57 ≤ 57) ∧ (1 ≤ 64 ∧ 56 < 64 ∧ 64 ≤ 64 ∧ 64 % 8 = 0 ∧ 56 % 8 = 0) := by
  refine ⟨by decide, fun _ _ _ w h => ?_, fun _ _ _ w h => ?_, by decide, by decide⟩ <;> (cases h; decide)

/-- The single insertion answers; it is stuck; it is refused. -/
theorem witness_ChunkingIndependence :
    ((withP .live .ok 0#64 0 3 (constConsumer 3)).p.life = .live ∧ [0xFF#8].length + (List.replicate 7 0#8).length ≤ 8 ∧
      goesOn (exec (insertBytes ([0xFF#8] ++ List.replicate 7 0#8)) (withP .live .ok 0#64 0 3 (constConsumer 3))) = true) ∧
    exec (insertBytes ([0xFF#8] ++ [0#8])) (withP .live .ok 0#64 0 3 (replyConsumer .silent)) = .fault .consumerSilent ∧
    exec (insertBytes ([0xFF#8] ++ [0#8])) (withP .live .ok 0#64 0 3 (replyConsumer .commandIssued)) =
      .refused .reentrantCommand := ⟨by decide, rfl, rfl⟩

/-- Nine bytes: all go in; the ninth overflows; the first answer is no width; and the three other ends. -/
theorem witness_InsertManyIsOneInsertion :
    ((withP .live .ok 0#64 0 3 (constConsumer 3)).p.life = .live ∧
      (pSteps askBound (withP .live .ok 0#64 0 3 (constConsumer 3)).p.decoder (List.replicate 9 0xA5#8)).stop = none) ∧
    (pSteps askBound (withP .live .ok 0#64 0 3 (constConsumer 64)).p.decoder (List.replicate 9 0xFF#8)).stop =
      some .overflow ∧
    [replyConsumer (.width (.const 65)), replyConsumer .silent, replyConsumer .commandIssued,
      replyConsumer .resetApplied].map (fun c =>
        (pSteps askBound (withP .live .ok 0#64 0 3 c).p.decoder (List.replicate 9 0xFF#8)).stop) =
      [some .badWidth, some .silent, some .commandIssued, some .resetApplied] := by decide

/-- For DeliveredBitsConserved and InvocationBounds: the widths and levels at their ends. -/
theorem witness_DecoderBounds : ((1 ≤ 1 ∧ 1 ≤ 64) ∧ 0 ≤ 63) ∧ ((1 ≤ 64 ∧ 64 ≤ 64) ∧ 63 ≤ 63 ∧ 64 ≤ 64) := by decide

theorem witness_FlushByteDropsToBoundary :
    State.reset.p.life = .idle ∧ (withP .failed .overflow 0#64 61 64 (constConsumer 64)).p.life = .failed ∧
      (withP .live .ok 0#64 63 64 (constConsumer 64)).p.life = .live := by decide

theorem witness_ResetIsNotClose :
    ready.r.src = none ∧ ready.p.cons = none ∧
    (withR 1#8 3 [2#8]).r.src = some { bytes := [2#8] } ∧ (withR 1#8 3 [2#8]).env.src = .lent ∧
      ((withR 1#8 3 [2#8]).withSrcPort .detached).r.src = some { bytes := [2#8] } ∧
      ((withR 1#8 3 [2#8]).withSrcPort .detached).env.src ≠ .lent ∧
      (withP .live .ok 0#64 0 1 (constConsumer 1)).p.cons = some (constConsumer 1) ∧
      (withP .live .ok 0#64 0 1 (constConsumer 1)).env.cons = .lent ∧
      ((withP .live .ok 0#64 0 1 (constConsumer 1)).withConsPort .detached).p.cons = some (constConsumer 1) ∧
      ((withP .live .ok 0#64 0 1 (constConsumer 1)).withConsPort .detached).env.cons ≠ .lent := by decide

/-- A state in which all three units are at work, and a command to come. -/
def busy : State :=
  (withR 1#8 7 [2#8] (withW 0x80#8 1 [3#8] (withP .live .ok 0#64 2 3 (constConsumer 3)))).withInbox
    [.command ⟨0x00000831#32, 0x0102030405060708#64, 0#64⟩]

theorem witness_StepKeepsInvariant : busy.Inv ∧ goesOn (step busy) = true := by decide

theorem witness_OneResponsePerCommand :
    busy.p.Inv ∧ goesOn (exec (.rTryRead 64) busy) = true ∧ goesOn (exec (.bbPop 5#64 1) busy) = true := by decide

theorem witness_UnitsAreIndependent :
    ((Instr.rRead 9).unit = 1 ∧ goesOn (exec (.rRead 9) busy) = true) ∧
      ((Instr.wWrite 1#64 9).unit = 2 ∧ goesOn (exec (.wWrite 1#64 9) busy) = true) ∧
      ((Instr.pInsert 1#64 8).unit = 3 ∧ goesOn (exec (.pInsert 1#64 8) busy) = true) := by decide

/-- Every change of a lifecycle that the statement allows happens somewhere. -/
theorem witness_LifecycleChanges :
    seen (fun t => (ready.r.life, t.r.life)) (exec .rOpen ready) = some (.idle, .opened) ∧
      seen (fun t => (busy.r.life, t.r.life)) (exec .rClose busy) = some (.opened, .closed) ∧
      seen (fun t => (ready.w.life, t.w.life)) (exec .wOpen ready) = some (.idle, .opened) ∧
      seen (fun t => (busy.w.life, t.w.life)) (exec .wClose busy) = some (.opened, .closed) ∧
      seen (fun t => (ready.p.life, t.p.life)) (exec .pInit ready) = some (.idle, .live) ∧
      seen (fun t => t.p.life) (exec (.pInsert 0#64 1) (withP .live .ok 0#64 57 58 (constConsumer 1))) =
        some .failed ∧
      seen (fun t => (t.r.life, t.w.life, t.p.life)) (hostAct .reset busy) = some (.idle, .idle, .idle) ∧
      (goesOn (hostAct .detachSource busy) = true ∧ HostAct.detachSource ≠ .reset) ∧
      (decoded ⟨0x0000011F#32, 0#64, 0#64⟩ = none ∧ goesOn (runCommand ⟨0x0000011F#32, 0#64, 0#64⟩ busy) = true) := by
  decide

theorem witness_CommandsEndIfConsumerAnswers :
    (busy.p.Inv ∧ (∀ c, busy.p.cons = some c → c.AlwaysAnswers) ∧ (∀ c, busy.env.cons = .attached c → c.AlwaysAnswers)) ∧
      (ready.p.Inv ∧ (∀ c, ready.p.cons = some c → c.AlwaysAnswers) ∧
        (∀ c, ready.env.cons = .attached c → c.AlwaysAnswers)) :=
  ⟨⟨by decide, fun _ h => Option.some.inj h ▸ constConsumer_answers 3 trivial, fun _ h => by cases h⟩,
    by decide, fun _ h => (by cases h), fun _ h => Port.attached.inj h ▸ constConsumer_answers 64 trivial⟩

/-- The three replies at the seed, on the attached consumer. -/
theorem witness_StopsOnlyInsideInvocations :
    exec .pInit (ready.withConsPort (.attached (replyConsumer .silent))) = .fault .consumerSilent ∧
      exec .pInit (ready.withConsPort (.attached (replyConsumer .commandIssued))) = .refused .reentrantCommand ∧
      exec .pInit (ready.withConsPort (.attached (replyConsumer .resetApplied))) = .refused .resetDuringCommand ∧
      (replyConsumer .silent).ask 0#64 = .silent ∧ (replyConsumer .commandIssued).ask 0#64 = .commandIssued ∧
      (replyConsumer .resetApplied).ask 0#64 = .resetApplied := ⟨rfl, rfl, rfl, rfl, rfl, rfl⟩

theorem witness_OwnedStreamsTakeOnlyAppends :
    (busy.r.life = .opened ∧ busy.r.src = some { bytes := [2#8] } ∧ busy.w.life = .opened) ∧
      (busy.withReader { busy.r with src := some { bytes := [], grows := true } }).r.life = .opened ∧
      (busy.withReader { busy.r with src := some { bytes := [], grows := true } }).r.src = some { bytes := [], grows := true } ∧
      (ready.r.life ≠ .opened ∧ ready.w.life ≠ .opened ∧ ready.env.src = .attached { bytes := [0xA5#8, 0x3C#8] }) ∧
      State.reset.r.life ≠ .opened ∧ State.reset.env.src = .detached := by decide

theorem witness_TextRoundTrip :
    (∃ bytes', "11111111 10000000".toList = bytesToText bytes') ∧
      parseBinaryString "11111111 10000000".toList = .ok [0xFF#8, 0x80#8] := ⟨⟨[0xFF#8, 0x80#8], by decide⟩, by decide⟩

/-- P.INSERTN of nine bytes: a chunk of eight and one of one. -/
theorem witness_PseudoCommandExpansions :
    insertManyPseudo (List.replicate 9 1#8) = [List.replicate 8 1#8, [1#8]].map insertBytes := by decide

end Sys2Proof.Tests
end

section
/-! Attaching and detaching an agent (spec 00_scope.md R8, 70_reset_and_hazards.md R263): what each act of the host
does, and what becomes of the agent attached before (log entries 14 and 20). -/

namespace Sys2Proof.Machine

section Displace
variable {s : State}

theorem displaceSource_of_attached {old : ByteSource} (h : s.env.src = .attached old) :
    displaceSource s = s.giveSource old := by
  simp only [displaceSource, h]

theorem displaceSource_of_not_attached (h : ∀ old, s.env.src ≠ .attached old) :
    displaceSource s = s := by
  unfold displaceSource
  split
  case h_1 old hold => exact absurd hold (h old)
  case h_2 => rfl
  case h_3 => rfl

theorem displaceConsumer_of_attached {old : Consumer} (h : s.env.cons = .attached old) :
    displaceConsumer s = s.giveConsumer old := by
  simp only [displaceConsumer, h]

theorem displaceConsumer_of_not_attached (h : ∀ old, s.env.cons ≠ .attached old) :
    displaceConsumer s = s := by
  unfold displaceConsumer
  split
  case h_1 old hold => exact absurd hold (h old)
  case h_2 => rfl
  case h_3 => rfl

end Displace

section HostAct
variable (s : State)

@[simp] theorem hostAct_attachSource (src : ByteSource) :
    hostAct (.attachSource src) s = .next ((displaceSource s).withSrcPort (.attached src)) := rfl

@[simp] theorem hostAct_detachSource :
    hostAct .detachSource s = .next ((displaceSource s).withSrcPort .detached) := rfl

@[simp] theorem hostAct_attachConsumer (cons : Consumer) :
    hostAct (.attachConsumer cons) s = .next ((displaceConsumer s).withConsPort (.attached cons)) := rfl

@[simp] theorem hostAct_detachConsumer :
    hostAct .detachConsumer s = .next ((displaceConsumer s).withConsPort .detached) := rfl

@[simp] theorem hostAct_attachSink : hostAct .attachSink s = .next (s.withSinkPort true) := rfl

@[simp] theorem hostAct_detachSink : hostAct .detachSink s = .next (s.withSinkPort false) := rfl

end HostAct

/-- Settles O60: each act displaces the agent its input offered, if any, and then sets that input. -/
theorem attachmentActs : Obligations.AttachmentActs := by
  intro s
  refine ⟨fun src hfree => ?sourceFree, fun src old hold => ?sourceAttached, fun cons hfree => ?consumerFree,
    fun cons old hold => ?consumerAttached, hostAct_attachSink s, hostAct_detachSink s⟩
  case sourceFree => simp [displaceSource_of_not_attached hfree]
  case sourceAttached => simp [displaceSource_of_attached hold]
  case consumerFree => simp [displaceConsumer_of_not_attached hfree]
  case consumerAttached => simp [displaceConsumer_of_attached hold]

end Sys2Proof.Machine
end

section
/-! What a command and an act can do to the state, each said once (spec 40_bitbuffer.md R100, 41_reader.md R120 to R127,
42_writer.md R150 to R158, 43_push_reader.md R182 to R186, 20_memory.md R61): the invariant and the lifecycles are read
off from these. -/

namespace Sys2Proof.Machine

/-! ### The loops leave the lifecycles alone -/

theorem loadByte_life {r r' : Reader} (h : loadByte r = some r') : r'.life = r.life := by
  unfold loadByte at h
  split at h
  · rcases srcFetch_cases r with ⟨hf, _⟩ | ⟨src, b, rest, _, _, hf⟩ <;> rw [hf] at h <;> cases h
    rfl
  · cases h
    rfl

theorem readLoop_life (fuel rem : Nat) (acc : Word) (r : Reader) :
    (readLoop fuel rem acc r).reader.life = r.life := by
  induction fuel generalizing rem acc r with
  | zero => rfl
  | succ fuel ih =>
    unfold readLoop
    split
    · rfl
    · split
      case h_1 => rfl
      case h_2 hl => exact (ih _ _ _).trans (loadByte_life hl :)

theorem readCore_life (n : Nat) (r : Reader) : (readCore n r).reader.life = r.life := readLoop_life n n 0#64 r

theorem flushFull_life (w : Writer) : (flushFull w).life = w.life := by
  unfold flushFull
  split <;> rfl

theorem writeLoop_life (fuel rem : Nat) (v : Word) (w : Writer) : (writeLoop fuel rem v w).life = w.life := by
  induction fuel generalizing rem v w with
  | zero => rfl
  | succ fuel ih =>
    unfold writeLoop
    split
    · rfl
    · exact (ih _ _ _).trans (flushFull_life _)

theorem writeBits_life (v : Word) (n : Nat) (w : Writer) : (writeBits v n w).life = w.life := writeLoop_life n n v w

/-! ### What a command can do -/

/-- The state in which R.CLOSE answers on an OPEN Reader (R127). -/
def closeReader (s : State) : State := (releaseSource s).withReader { (releaseSource s).r with life := .closed }

/-- The state in which W.CLOSE answers on an OPEN Writer (R158). -/
def closeWriter (s : State) : State :=
  let s1 := releaseSink (s.withWriter (flushPartial s.w))
  s1.withWriter { s1.w with life := .closed }

/-- What the decoder of a LIVE unit leaves of a P.INSERT (R184). -/
def insertOut (s : State) (packed : Word) (n : Nat) : StepOut (Option Consumer) :=
  pSteps askBound s.p.decoder (unpackBytes packed n)

/-- The states in which a command can answer, its response apart. -/
inductive Effect (s : State) : Instr → State → Prop
  /-- nothing changes: a BitBuffer command (R100), a rejection, a close with nothing open, a Try form with no bit -/
  | unchanged (i : Instr) : Effect s i s
  /-- R.OPEN binds the source offered (R120) -/
  | rOpens {src : ByteSource} (hc : s.r.life ≠ .opened) (hb : s.env.src.offered s.r.src = some src) : Effect s .rOpen
      ((s.withReader { life := .opened, cur := 0#8, pos := 8, src := some src, fetched := 0 }).withSrcPort .lent)
  /-- a read, whether it delivers or meets the end of the source (R121, R123, R124) -/
  | reads {i : Instr} {n : Nat} (hi : i = .rRead n ∨ i = .rTryRead n) (ho : s.r.life = .opened) (hn : n ≤ 64) :
      Effect s i (s.withReader (readCore n s.r).reader)
  /-- a peek on a Reader that is or can be loaded (R125, R126) -/
  | peeks {i : Instr} {r' : Reader} (hi : i = .rPeek ∨ i = .rTryPeek) (ho : s.r.life = .opened)
      (hl : loadByte s.r = some r') : Effect s i (s.withReader r')
  /-- R.CLOSE on an OPEN Reader (R127) -/
  | rCloses (ho : s.r.life = .opened) : Effect s .rClose (closeReader s)
  /-- W.OPEN starts with an empty sink (R151) -/
  | wOpens (hc : s.w.life ≠ .opened) (hs : s.env.sink = true) : Effect s .wOpen
      (s.withWriter { life := .opened, cur := 0#8, pos := 0, sink := some [], emitted := 0 })
  /-- a legal write of the operand's bits from the offset up, which is 0 for W.WRITE (R152, R155) -/
  | writes {i : Instr} {a : Word} {n off : Nat}
      (hi : i = .wWrite a n ∧ off = 0 ∨ i = .wWriteOff a n off ∧ off < 64) (ho : s.w.life = .opened) (hn : n ≤ 64) :
      Effect s i (s.withWriter (writeBits ((a >>> off) &&& mask n) n s.w))
  /-- W.CLOSE on an OPEN Writer (R158) -/
  | wCloses (ho : s.w.life = .opened) : Effect s .wClose (closeWriter s)
  /-- P.INIT whose seed answer is a width (R182) -/
  | seeds {cons : Consumer} (hb : s.env.cons.offered s.p.cons = some cons) {cons' : Consumer} {w : Byte}
      (ha : cons.ask 0#64 = .width cons' w) (hv : validWidth w = true) : Effect s .pInit
      ((bindConsumer cons s).withPush
        { life := .live, fail := .ok, acc := 0#64, level := 0, want := w.toNat, cons := some cons', inserted := 0 })
  /-- P.INIT whose seed answer is no width (R182) -/
  | seedFails {cons : Consumer} (hb : s.env.cons.offered s.p.cons = some cons) {cons' : Consumer} {w : Byte}
      (ha : cons.ask 0#64 = .width cons' w) (hv : validWidth w = false) : Effect s .pInit
      ((bindConsumer cons s).withPush
        { s.p with life := .idle, acc := 0#64, level := 0, cons := some cons', inserted := 0 })
  /-- an insertion that ends OK (R184) -/
  | inserts {packed : Word} {n : Nat} (hl : s.p.life = .live) (hn : n ≤ 8) (hs : (insertOut s packed n).stop = none) :
      Effect s (.pInsert packed n) (s.withPush (s.p.withDecoder (insertOut s packed n).dec))
  /-- an insertion that ends the session (R184, R186) -/
  | insertFails {packed : Word} {n : Nat} {e : Status} (hl : s.p.life = .live) (hn : n ≤ 8)
      (he : (insertOut s packed n).stop = some .overflow ∧ e = .overflow ∨
        (insertOut s packed n).stop = some .badWidth ∧ e = .invalidArgument) : Effect s (.pInsert packed n)
      (s.withPush { s.p.withDecoder (insertOut s packed n).dec with life := .failed, fail := e })
  /-- P.FLUSHBYTE on a LIVE unit (R185) -/
  | flushes (hl : s.p.life = .live) : Effect s .pFlushByte (s.withPush { s.p with level := s.p.level - s.p.level % 8 })

/-- The command, where it ends, answers in a state of which `E` holds. -/
def EndsIn (E : State → Prop) (res : Result) : Prop :=
  ∀ t, res = .next t → ∃ (s1 : State) (resp : Response), t = s1.respond resp ∧ E s1

section EndsIn
variable {E : State → Prop} {s : State}

theorem endsIn_respond (resp : Response) (h : E s) : EndsIn E (.next (s.respond resp)) := by
  intro t ht
  cases ht
  exact ⟨s, resp, rfl, h⟩

theorem endsIn_finish {r0 r1 : Word} (h : E s) : EndsIn E (finish r0 r1 s) := endsIn_respond _ h

theorem endsIn_finishExhausted (h : E s) : EndsIn E (finishExhausted s) := endsIn_respond _ h

theorem endsIn_raise {e : Status} (h : E s) : EndsIn E (raise e s) := endsIn_respond _ h

theorem endsIn_fault (f : Fault) : EndsIn E (.fault f) := fun _ ht => nomatch ht

theorem endsIn_refused (r : Refusal) : EndsIn E (.refused r) := fun _ ht => nomatch ht

end EndsIn

section Commands
variable (s : State)

theorem execBbCountUsed_ends (value : Word) : EndsIn (Effect s (.bbCountUsed value)) (execBbCountUsed value s) :=
  endsIn_finish (.unchanged _)

theorem execBbPush_ends (host bits : Word) (n : Nat) :
    EndsIn (Effect s (.bbPush host bits n)) (execBbPush host bits n s) := by
  unfold execBbPush
  split
  · exact endsIn_raise (.unchanged _)
  · exact endsIn_finish (.unchanged _)

theorem execBbPop_ends (host : Word) (n : Nat) : EndsIn (Effect s (.bbPop host n)) (execBbPop host n s) := by
  unfold execBbPop
  split
  · exact endsIn_raise (.unchanged _)
  · exact endsIn_finish (.unchanged _)

theorem execROpen_ends : EndsIn (Effect s .rOpen) (execROpen s) := by
  unfold execROpen
  split
  case isTrue => exact endsIn_raise (.unchanged _)
  case isFalse hc =>
    split
    case h_1 => exact endsIn_raise (.unchanged _)
    case h_2 hb => exact endsIn_finish (.rOpens hc hb)

theorem execRRead_ends (n : Nat) : EndsIn (Effect s (.rRead n)) (execRRead n s) := by
  unfold execRRead
  split
  case isTrue => exact endsIn_raise (.unchanged _)
  case isFalse ho =>
    split
    case isTrue => exact endsIn_raise (.unchanged _)
    case isFalse hn =>
      have e : Effect s _ (s.withReader (readCore n s.r).reader) :=
        .reads (.inl rfl) (not_not.mp ho) (Nat.le_of_not_lt hn)
      dsimp only
      split
      · exact endsIn_raise e
      · exact endsIn_finish e

theorem execRTryRead_ends (n : Nat) : EndsIn (Effect s (.rTryRead n)) (execRTryRead n s) := by
  unfold execRTryRead
  split
  case isTrue => exact endsIn_raise (.unchanged _)
  case isFalse ho =>
    split
    case isTrue => exact endsIn_raise (.unchanged _)
    case isFalse hn =>
      have e : Effect s _ (s.withReader (readCore n s.r).reader) :=
        .reads (.inr rfl) (not_not.mp ho) (Nat.le_of_not_lt hn)
      dsimp only
      split
      · exact endsIn_finishExhausted e
      · exact endsIn_finish e

theorem execRPeek_ends : EndsIn (Effect s .rPeek) (execRPeek s) := by
  unfold execRPeek
  split
  case isTrue => exact endsIn_raise (.unchanged _)
  case isFalse ho =>
    split
    case h_1 => exact endsIn_raise (.unchanged _)
    case h_2 hl => exact endsIn_finish (.peeks (.inl rfl) (not_not.mp ho) hl)

theorem execRTryPeek_ends : EndsIn (Effect s .rTryPeek) (execRTryPeek s) := by
  unfold execRTryPeek
  split
  case isTrue => exact endsIn_raise (.unchanged _)
  case isFalse ho =>
    split
    case h_1 => exact endsIn_finishExhausted (.unchanged _)
    case h_2 hl => exact endsIn_finish (.peeks (.inr rfl) (not_not.mp ho) hl)

theorem execRClose_ends : EndsIn (Effect s .rClose) (execRClose s) := by
  unfold execRClose
  split
  case isTrue ho => exact endsIn_finish (.rCloses ho)
  case isFalse => exact endsIn_finish (.unchanged _)

theorem execWOpen_ends : EndsIn (Effect s .wOpen) (execWOpen s) := by
  unfold execWOpen
  split
  case isTrue => exact endsIn_raise (.unchanged _)
  case isFalse hc =>
    split
    case isTrue => exact endsIn_raise (.unchanged _)
    case isFalse hs => exact endsIn_finish (.wOpens hc (Bool.eq_true_of_not_eq_false hs))

theorem execWWrite_ends (value : Word) (n : Nat) : EndsIn (Effect s (.wWrite value n)) (execWWrite value n s) := by
  unfold execWWrite
  split
  case isTrue => exact endsIn_raise (.unchanged _)
  case isFalse ho =>
    split
    case isTrue => exact endsIn_raise (.unchanged _)
    case isFalse hn =>
      rw [← BitVec.ushiftRight_zero value]
      exact endsIn_finish (.writes (.inl ⟨rfl, rfl⟩) (not_not.mp ho) (Nat.le_of_not_lt hn))

theorem execWWriteOff_ends (value : Word) (n off : Nat) :
    EndsIn (Effect s (.wWriteOff value n off)) (execWWriteOff value n off s) := by
  unfold execWWriteOff
  split
  case isTrue => exact endsIn_raise (.unchanged _)
  case isFalse ho =>
    split
    case isTrue => exact endsIn_raise (.unchanged _)
    case isFalse hrange =>
      obtain ⟨hn, hoff⟩ := not_or.mp hrange
      exact endsIn_finish (.writes (.inr ⟨rfl, Nat.lt_of_not_le hoff⟩) (not_not.mp ho) (Nat.le_of_not_lt hn))

theorem execWClose_ends : EndsIn (Effect s .wClose) (execWClose s) := by
  unfold execWClose
  split
  case isTrue ho => exact endsIn_finish (.wCloses ho)
  case isFalse => exact endsIn_finish (.unchanged _)

theorem execPInit_ends : EndsIn (Effect s .pInit) (execPInit s) := by
  unfold execPInit
  split
  case h_1 => exact endsIn_raise (.unchanged _)
  case h_2 cons hb =>
    obtain ⟨hp, _⟩ := bindConsumer_spec s hb
    dsimp only
    split
    case h_1 ha =>
      rw [hp]
      split
      case isTrue hv => exact endsIn_finish (.seeds hb ha hv)
      case isFalse hv => exact endsIn_raise (.seedFails hb ha (Bool.eq_false_of_not_eq_true hv))
    case h_2 => exact endsIn_fault _
    case h_3 => exact endsIn_refused _
    case h_4 => exact endsIn_refused _

theorem execPInsert_ends (packed : Word) (n : Nat) :
    EndsIn (Effect s (.pInsert packed n)) (execPInsert packed n s) := by
  unfold execPInsert
  split
  case h_1 => exact endsIn_raise (.unchanged _)
  case h_2 => exact endsIn_raise (.unchanged _)
  case h_3 hl =>
    split
    case isTrue => exact endsIn_raise (.unchanged _)
    case isFalse hn =>
      intro t ht
      rcases endInsert_cases ht with ⟨hs, rfl⟩ | ⟨e, he, rfl⟩
      · exact ⟨_, _, rfl, .inserts hl (Nat.le_of_not_lt hn) hs⟩
      · exact ⟨_, _, rfl, .insertFails hl (Nat.le_of_not_lt hn) he⟩

theorem execPFlushByte_ends : EndsIn (Effect s .pFlushByte) (execPFlushByte s) := by
  unfold execPFlushByte
  split
  case h_1 => exact endsIn_raise (.unchanged _)
  case h_2 => exact endsIn_raise (.unchanged _)
  case h_3 hl => exact endsIn_finish (.flushes hl)

end Commands

/-- A command that ends has one of the effects listed, and gives one response. -/
theorem exec_ends (i : Instr) (s : State) : EndsIn (Effect s i) (exec i s) := by
  cases i with
  | bbCountUsed value => exact execBbCountUsed_ends s value
  | bbPush host bits n => exact execBbPush_ends s host bits n
  | bbPop host n => exact execBbPop_ends s host n
  | rOpen => exact execROpen_ends s
  | rRead n => exact execRRead_ends s n
  | rTryRead n => exact execRTryRead_ends s n
  | rPeek => exact execRPeek_ends s
  | rTryPeek => exact execRTryPeek_ends s
  | rClose => exact execRClose_ends s
  | wOpen => exact execWOpen_ends s
  | wWrite value n => exact execWWrite_ends s value n
  | wWriteOff value n off => exact execWWriteOff_ends s value n off
  | wClose => exact execWClose_ends s
  | pInit => exact execPInit_ends s
  | pInsert packed n => exact execPInsert_ends s packed n
  | pFlushByte => exact execPFlushByte_ends s

theorem exec_effect {i : Instr} {s t : State} (h : exec i s = .next t) :
    ∃ (s1 : State) (resp : Response), t = s1.respond resp ∧ Effect s i s1 := exec_ends i s t h

/-! ### What an act can do -/

/-- What every act but reset keeps: the Writer, the push reader and the Reader but for bytes appended to its source;
and no input comes to say that its agent is bound (R8, R61). -/
structure UnitsKept (s t : State) : Prop where
  life : t.r.life = s.r.life
  pos : t.r.pos = s.r.pos
  bound : t.r.src.isSome = s.r.src.isSome
  writer : t.w = s.w
  push : t.p = s.p
  srcPort : t.env.src = .lent → s.env.src = .lent
  consPort : t.env.cons = .lent → s.env.cons = .lent

theorem UnitsKept.of_eq {s t : State} (hr : t.r = s.r) (hw : t.w = s.w) (hp : t.p = s.p) (he : t.env = s.env) :
    UnitsKept s t :=
  ⟨by rw [hr], by rw [hr], by rw [hr], hw, hp, fun hl => he ▸ hl, fun hl => he ▸ hl⟩

theorem UnitsKept.refl (s : State) : UnitsKept s s := .of_eq rfl rfl rfl rfl

theorem UnitsKept.withInbox (s : State) (inbox : List HostEvent) : UnitsKept s (s.withInbox inbox) :=
  .of_eq rfl rfl rfl rfl

theorem UnitsKept.withSinkPort (s : State) (attached : Bool) : UnitsKept s (s.withSinkPort attached) :=
  ⟨rfl, rfl, rfl, rfl, rfl, id, id⟩

theorem UnitsKept.withSrcPort {s t : State} (h : UnitsKept s t) {port : Port ByteSource} (hp : port ≠ .lent) :
    UnitsKept s (t.withSrcPort port) :=
  ⟨h.life, h.pos, h.bound, h.writer, h.push, fun hl => absurd hl hp, h.consPort⟩

theorem UnitsKept.withConsPort {s t : State} (h : UnitsKept s t) {port : Port Consumer} (hp : port ≠ .lent) :
    UnitsKept s (t.withConsPort port) :=
  ⟨h.life, h.pos, h.bound, h.writer, h.push, h.srcPort, fun hl => absurd hl hp⟩

theorem UnitsKept.displaceSource (s : State) : UnitsKept s (displaceSource s) := by
  obtain ⟨hr, hw, hp, henv, _⟩ := displaceSource_spec s
  exact .of_eq hr hw hp henv

theorem UnitsKept.displaceConsumer (s : State) : UnitsKept s (displaceConsumer s) := by
  obtain ⟨hr, hw, hp, henv, _⟩ := displaceConsumer_spec s
  exact .of_eq hr hw hp henv

theorem growSource_kept {bytes : List Byte} {s t : State} (h : growSource bytes s = .next t) : UnitsKept s t := by
  unfold growSource at h
  split at h
  · split at h
    case h_1 => cases h; exact .refl s
    case h_2 src hs =>
      split at h <;> cases h
      exact ⟨rfl, rfl, by simp [hs], rfl, rfl, id, id⟩
  · split at h <;> cases h
    · exact (UnitsKept.refl s).withSrcPort (by simp)
    · exact .refl s
    · exact .refl s

theorem foreignAccess_eq {ch : Channel} {s t : State} (h : foreignAccess ch s = .next t) : t = s := by
  cases ch with
  | source | sink =>
    simp only [foreignAccess] at h
    split at h <;> cases h
    rfl

theorem hostAct_kept {a : HostAct} {s t : State} (ha : a ≠ .reset) (h : hostAct a s = .next t) : UnitsKept s t := by
  cases a with
  | reset => exact absurd rfl ha
  | attachSource src => cases h; exact (UnitsKept.displaceSource s).withSrcPort (by simp)
  | detachSource => cases h; exact (UnitsKept.displaceSource s).withSrcPort (by simp)
  | growSource bytes => exact growSource_kept h
  | attachSink => cases h; exact .withSinkPort s true
  | detachSink => cases h; exact .withSinkPort s false
  | attachConsumer cons => cases h; exact (UnitsKept.displaceConsumer s).withConsPort (by simp)
  | detachConsumer => cases h; exact (UnitsKept.displaceConsumer s).withConsPort (by simp)
  | foreignAccess ch => rw [foreignAccess_eq h]; exact .refl s

end Sys2Proof.Machine
end

section
/-! The machine invariant (spec 10_state.md R35, R37, R38, R43 to R46): it holds at reset, and every effect of a command
and every act keeps it. -/

namespace Sys2Proof.Machine

/-! ### Updates that keep the invariant -/

section Keeps
variable {s : State}

theorem State.Inv.withReader (h : s.Inv) {r' : Reader} (hr' : r'.Inv) (hl : r'.life = s.r.life) :
    (s.withReader r').Inv := by
  obtain ⟨hr, hw, hp, hsrc, hcons⟩ := h
  exact ⟨hr', hw, hp, fun he => hr'.2.mp (hl.trans (hr.2.mpr (hsrc he))), hcons⟩

theorem State.Inv.withWriter (h : s.Inv) {w' : Writer} (hw' : w'.Inv) : (s.withWriter w').Inv :=
  ⟨h.1, hw', h.2.2⟩

theorem State.Inv.withPush (h : s.Inv) {p' : Push} (hp' : p'.Inv)
    (hb : s.p.cons.isSome = true → p'.cons.isSome = true) : (s.withPush p').Inv := by
  obtain ⟨hr, hw, hp, hsrc, hcons⟩ := h
  exact ⟨hr, hw, hp', hsrc, fun he => hb (hcons he)⟩

theorem UnitsKept.inv {t : State} (k : UnitsKept s t) (h : s.Inv) : t.Inv := by
  obtain ⟨hr, hw, hp, hsrc, hcons⟩ := h
  refine ⟨?reader, k.writer ▸ hw, k.push ▸ hp, fun he => k.bound.trans (hsrc (k.srcPort he)), ?consumer⟩
  case reader => simpa only [Reader.Inv, k.life, k.pos, k.bound] using hr
  case consumer => simpa only [k.push] using fun he => hcons (k.consPort he)

end Keeps

/-! ### Opening and closing -/

section Streams
variable (s : State)

theorem closeReader_spec : (closeReader s).r = { s.r with life := .closed, src := none } ∧ (closeReader s).w = s.w ∧
    (closeReader s).p = s.p ∧ (closeReader s).env.cons = s.env.cons := by
  obtain ⟨hr, hw, hp, _, hcons, _⟩ := releaseSource_spec s
  simp [closeReader, hr, hw, hp, hcons]

theorem closeWriter_spec : (closeWriter s).w = { flushPartial s.w with life := .closed, sink := none } ∧
    (closeWriter s).r = s.r ∧ (closeWriter s).p = s.p ∧ (closeWriter s).env = s.env := by
  obtain ⟨hw, hr, hp, henv, _⟩ := releaseSink_spec (s.withWriter (flushPartial s.w))
  simp [closeWriter, hw, hr, hp, henv]

variable {s}

theorem closeReader_inv (h : s.Inv) : (closeReader s).Inv := by
  obtain ⟨hr, hw, hp, hsrc, hcons⟩ := h
  obtain ⟨hr', hw', hp', hcons'⟩ := closeReader_spec s
  have hport : (closeReader s).env.src ≠ .lent := releaseSource_port s hsrc
  refine ⟨?_, hw' ▸ hw, hp' ▸ hp, fun he => absurd he hport, ?_⟩
  · rw [hr']
    exact ⟨hr.1, by simp⟩
  · simpa only [hp', hcons'] using hcons

theorem closeWriter_inv (h : s.Inv) : (closeWriter s).Inv := by
  obtain ⟨hr, hw, hp, henv⟩ := h
  obtain ⟨hw', hr', hp', henv'⟩ := closeWriter_spec s
  obtain ⟨hcur, hpos, _⟩ := flushPartial_cases s.w
  refine ⟨hr' ▸ hr, ?_, hp' ▸ hp, by simpa only [Env.Inv, hr', hp', henv'] using henv⟩
  rw [hw']
  simp [Writer.Inv, hcur, hpos]

end Streams

/-! ### Sessions -/

section Sessions
variable {s : State}

/-- A session on a consumer just bound keeps the invariant, where its registers do (R182). -/
theorem bindConsumer_inv (h : s.Inv) {cons : Consumer} (hb : s.env.cons.offered s.p.cons = some cons) {p' : Push}
    (hp' : p'.Inv) (hc : p'.cons.isSome = true) : ((bindConsumer cons s).withPush p').Inv := by
  obtain ⟨hr, hw, _, hsrc, _⟩ := h
  obtain ⟨_, hr', hw', _, hsrc', _⟩ := bindConsumer_spec s hb
  refine ⟨?_, ?_, hp', ?_, fun _ => hc⟩
  · simpa only [State.withPush_r, hr'] using hr
  · simpa only [State.withPush_w, hw'] using hw
  · simpa only [State.withPush_env, State.withPush_r, hr', hsrc'] using hsrc

/-- What an insertion on a LIVE unit keeps: the ranges, the bound consumer and, after an OK end, fewer bits than
wanted (R43 to R45). -/
theorem insertOut_bounds (hp : s.p.Inv) (hl : s.p.life = .live) (packed : Word) (n : Nat) :
    (insertOut s packed n).dec.level ≤ 64 ∧
      (1 ≤ (insertOut s packed n).dec.want ∧ (insertOut s packed n).dec.want ≤ 64) ∧
      (insertOut s packed n).dec.cons.isSome = true ∧
      ((insertOut s packed n).stop = none → (insertOut s packed n).dec.level < (insertOut s packed n).dec.want) := by
  obtain ⟨hlevel, hwant, hfull, hbound, _⟩ := hp
  obtain ⟨c, hc⟩ := Option.isSome_iff_exists.mp (hbound (by simp [hl]))
  obtain ⟨hwant', hlevel', hfull'⟩ := pSteps_bounds askBound s.p.decoder (unpackBytes packed n) hwant hlevel
  obtain ⟨c', hc', _⟩ := pSteps_askBound s.p.decoder (unpackBytes packed n) c hc
  exact ⟨hlevel', hwant', Option.isSome_iff_exists.mpr ⟨c', hc'⟩, hfull' (hfull hl)⟩

end Sessions

/-! ### Every step keeps the invariant -/

theorem Effect.inv {s s1 : State} {i : Instr} (e : Effect s i s1) (h : s.Inv) : s1.Inv := by
  have ⟨hr, hw, hp, _, hcons⟩ := h
  cases e with
  | unchanged => exact h
  | rOpens => exact ⟨by simp [Reader.Inv], hw, hp, fun _ => rfl, hcons⟩
  | reads => exact h.withReader (readCore_inv _ s.r hr) (readCore_life _ s.r)
  | peeks _ _ hl => exact h.withReader (loadByte_inv hr hl) (loadByte_life hl)
  | rCloses => exact closeReader_inv h
  | wOpens => exact h.withWriter (by simp [Writer.Inv, Writer.emittedBytes])
  | writes _ ho => exact h.withWriter (writeBits_inv _ _ hw ho)
  | wCloses => exact closeWriter_inv h
  | seeds hb _ hv =>
    have hwant := (validWidth_iff _).mp hv
    exact bindConsumer_inv h hb ⟨by simp, hwant, fun _ => hwant.1, fun _ => rfl, by simp⟩ rfl
  | seedFails hb => exact bindConsumer_inv h hb ⟨by simp, hp.2.1, by simp, by simp, by simp⟩ rfl
  | @inserts packed n hl _ hs =>
    obtain ⟨hlevel, hwant, hbound, hfull⟩ := insertOut_bounds hp hl packed n
    exact h.withPush ⟨hlevel, hwant, fun _ => hfull hs, fun _ => hbound, by simp [hl]⟩ fun _ => hbound
  | @insertFails packed n e hl _ he =>
    obtain ⟨hlevel, hwant, hbound, _⟩ := insertOut_bounds hp hl packed n
    exact h.withPush ⟨hlevel, hwant, by simp, fun _ => hbound, fun _ => he.imp And.right And.right⟩ fun _ => hbound
  | flushes =>
    obtain ⟨hlevel, hwant, hfull, hbound, hfail⟩ := hp
    exact h.withPush ⟨(Nat.sub_le _ _).trans hlevel, hwant, fun hl => (Nat.sub_le _ _).trans_lt (hfull hl), hbound,
      hfail⟩ id

theorem exec_inv {i : Instr} {s t : State} (h : s.Inv) (he : exec i s = .next t) : t.Inv := by
  obtain ⟨s1, resp, rfl, e⟩ := exec_effect he
  exact e.inv h

theorem runCommand_inv {c : Command} {s t : State} (h : s.Inv) (hc : runCommand c s = .next t) : t.Inv := by
  unfold runCommand at hc
  split at hc
  · exact exec_inv h hc
  · cases hc
    exact h

theorem resetUnits_inv : Reader.reset.Inv ∧ Writer.reset.Inv ∧ Push.reset.Inv := by decide

/-- Reset unbinds every agent, so that no input says its agent is bound (R260). -/
theorem resetBlock_inv {s : State} (h : s.Inv) : (resetBlock s).Inv := by
  obtain ⟨_, _, _, hsrc, hcons⟩ := h
  obtain ⟨hr, hw, hp⟩ := resetBlock_units s
  obtain ⟨hrInv, hwInv, hpInv⟩ := resetUnits_inv
  obtain ⟨_, _, hpush, _, hcons1, _⟩ := releaseSource_spec s
  obtain ⟨_, _, hpush2, henv2, _⟩ := releaseSink_spec (releaseSource s)
  obtain ⟨_, _, _, _, hsrc3, _⟩ := releaseConsumer_spec (releaseSink (releaseSource s))
  have hsrcPort : (resetBlock s).env.src ≠ .lent := by
    simpa [resetBlock, hsrc3, henv2] using releaseSource_port s hsrc
  have hconsPort : (resetBlock s).env.cons ≠ .lent :=
    releaseConsumer_port (releaseSink (releaseSource s)) (by simpa [henv2, hpush2, hcons1, hpush] using hcons)
  exact ⟨hr ▸ hrInv, hw ▸ hwInv, hp ▸ hpInv, fun he => absurd he hsrcPort, fun he => absurd he hconsPort⟩

theorem hostAct_inv {a : HostAct} {s t : State} (h : s.Inv) (ha : hostAct a s = .next t) : t.Inv := by
  by_cases hreset : a = .reset
  · subst hreset
    cases ha
    exact resetBlock_inv h
  · exact (hostAct_kept hreset ha).inv h

/-- Settles O50: a command keeps the invariant by its effect, an act by what it keeps, and reset by unbinding
every agent. -/
theorem stepKeepsInvariant : Obligations.StepKeepsInvariant := by
  intro s s' h hstep
  unfold step at hstep
  split at hstep
  case h_1 => cases hstep; exact h
  case h_2 rest _ => exact runCommand_inv ((UnitsKept.withInbox s rest).inv h) hstep
  case h_3 rest _ => exact hostAct_inv ((UnitsKept.withInbox s rest).inv h) hstep

/-- Settles O49: every unit at its reset value meets its invariant, and nothing is bound. -/
theorem invariantHoldsAtReset : Obligations.InvariantHoldsAtReset := by
  obtain ⟨hr, hw, hp⟩ := resetUnits_inv
  exact ⟨hr, hw, hp, by simp [State.reset], by simp [State.reset]⟩

end Sys2Proof.Machine
end

section
/-! What the Reader's commands do to its cursor (spec 10_state.md R33, R50), what changes a lifecycle (R39, R128, R159,
R180, R260), and the reset values (R51). -/

namespace Sys2Proof.Machine

/-! ### The stream position (R50) -/

theorem raise_ne_delivered (e : Status) (s t : State) (r0 r1 : Word) :
    raise e s ≠ .next (t.respond (.delivered r0 r1)) := by
  intro h
  obtain ⟨_, hresp⟩ := State.respond_inj (Host.Outcome.next.inj h)
  simp [Response.error, Response.delivered] at hresp

theorem finish_eq_delivered {s t : State} {r0 r1 v0 v1 : Word}
    (h : finish r0 r1 s = .next (t.respond (.delivered v0 v1))) : t = s :=
  (State.respond_inj (Host.Outcome.next.inj h)).1.symm

/-- An R.READ that delivers is one that found its bits, and leaves the Reader of `ReadCore` (R121). -/
theorem execRRead_delivered {s t : State} {n : Nat} {v : Word}
    (h : execRRead n s = .next (t.respond (.delivered v 0#64))) :
    (readCore n s.r).field.isSome = true ∧ t.r = (readCore n s.r).reader := by
  unfold execRRead at h
  split at h
  · exact absurd h (raise_ne_delivered _ _ _ _ _)
  · split at h
    · exact absurd h (raise_ne_delivered _ _ _ _ _)
    · dsimp only at h
      split at h
      case h_1 => exact absurd h (raise_ne_delivered _ _ _ _ _)
      case h_2 hfield => exact ⟨by simp [hfield], by rw [finish_eq_delivered h, State.withReader_r]⟩

/-- An R.OPEN that delivers leaves the cursor before the first byte of the source (R52, R120). -/
theorem execROpen_delivered {s t : State} (h : execROpen s = .next (t.respond (.delivered 0#64 0#64))) :
    t.r.fetched = 0 ∧ t.r.pos = 8 := by
  unfold execROpen at h
  split at h
  · exact absurd h (raise_ne_delivered _ _ _ _ _)
  · split at h
    case h_1 => exact absurd h (raise_ne_delivered _ _ _ _ _)
    case h_2 => rw [finish_eq_delivered h]; exact ⟨rfl, rfl⟩

/-- A read that finds its bits moves the stream position by their number. -/
theorem readCore_position {n : Nat} {r : Reader} (hp : r.pos ≤ 8) (h : (readCore n r).field.isSome = true) :
    8 * (readCore n r).reader.fetched + (readCore n r).reader.pos = 8 * r.fetched + r.pos + n := by
  obtain ⟨⟨l, took⟩, hok, heos⟩ := readCore_cases n r hp
  have hn : n ≤ r.remaining.length := by
    by_contra hn
    simp [(heos (Nat.lt_of_not_le hn)).1] at h
  obtain ⟨_, hrest, hpos⟩ := hok hn
  have hbits : (readCore n r).reader.remaining.length = r.remaining.length - n := by rw [hrest, List.length_drop]
  have hbytes : r.pending.length = l.length + (readCore n r).reader.pending.length := by
    rw [took.pending, List.length_append]
  have hfetched := took.fetched
  rw [Reader.remaining_length] at hn
  rw [Reader.remaining_length, Reader.remaining_length] at hbits
  omega

/-- Settles O23: the remaining bits fall by n, and the bytes taken account for the rest. -/
theorem readAdvancesStreamPosition : Obligations.ReadAdvancesStreamPosition := by
  refine ⟨fun s n v t hinv h => ?_, fun s t h => ?_⟩
  · obtain ⟨hfield, hr⟩ := execRRead_delivered h
    rw [hr]
    exact readCore_position hinv.1 hfield
  · obtain ⟨hfetched, hpos⟩ := execROpen_delivered h
    omega

/-! ### The byte being consumed (R33) -/

/-- But for R.OPEN and R.CLOSE, all a command does to the Reader is to take bytes from its source and move the
cursor (R62). -/
theorem Effect.took {s s1 : State} {i : Instr} (e : Effect s i s1) (hp : s.r.pos ≤ 8) (hopen : i ≠ .rOpen)
    (hclose : i ≠ .rClose) : ∃ l, s.r.Took l s1.r := by
  cases e with
  | rOpens => exact absurd rfl hopen
  | rCloses => exact absurd rfl hclose
  | @reads _ n _ => exact (readCore_cases n s.r hp).1
  | peeks _ _ hl =>
    rcases loadByte_cases s.r hp with ⟨hn, _⟩ | ⟨r1, l, hs, took, _⟩
    · rw [hn] at hl
      cases hl
    · rw [hs] at hl
      cases hl
      exact ⟨l, took⟩
  | wCloses =>
    obtain ⟨_, hr, _⟩ := closeWriter_spec s
    exact ⟨[], hr ▸ .refl s.r⟩
  | seeds hb | seedFails hb =>
    obtain ⟨_, hr, _⟩ := bindConsumer_spec s hb
    rw [State.withPush_r, hr]
    exact ⟨[], .refl s.r⟩
  | unchanged | wOpens | writes | inserts | insertFails | flushes => exact ⟨[], .refl s.r⟩

/-- Settles O26: a command but R.OPEN takes a list of bytes from the source; where it is empty the byte stays. -/
theorem readerByteChangesOnlyOnLoad : Obligations.ReaderByteChangesOnlyOnLoad := by
  intro i s t hinv hopen h
  obtain ⟨s1, resp, rfl, e⟩ := exec_effect h
  by_cases hclose : i = .rClose
  · subst hclose
    cases e with
    | unchanged => exact .inl ⟨rfl, rfl⟩
    | reads hi => simp at hi
    | peeks hi => simp at hi
    | writes hi => simp at hi
    | rCloses =>
      obtain ⟨hr, _⟩ := closeReader_spec s
      exact .inl (by simp [hr])
  · obtain ⟨l, took⟩ := e.took hinv.1 hopen hclose
    by_cases hl : l = []
    · subst hl
      exact .inl ⟨took.cur, took.fetched⟩
    · exact .inr ⟨l, hl, took.pending, took.fetched, took.cur, took.taken⟩

/-! ### The lifecycles (R39, R128, R159, R180, R260) -/

theorem Effect.reader_life {s s1 : State} {i : Instr} (e : Effect s i s1) : s1.r.life = s.r.life ∨
    i = .rOpen ∧ s1.r.life = .opened ∨ i = .rClose ∧ s.r.life = .opened ∧ s1.r.life = .closed := by
  cases e with
  | rOpens => exact .inr (.inl ⟨rfl, rfl⟩)
  | rCloses ho => exact .inr (.inr ⟨rfl, ho, rfl⟩)
  | @reads _ n _ => exact .inl (readCore_life n s.r)
  | peeks _ _ hl => exact .inl (loadByte_life hl)
  | wCloses =>
    obtain ⟨_, hr, _⟩ := closeWriter_spec s
    exact .inl (by rw [hr])
  | seeds hb | seedFails hb =>
    obtain ⟨_, hr, _⟩ := bindConsumer_spec s hb
    exact .inl (by rw [State.withPush_r, hr])
  | unchanged | wOpens | writes | inserts | insertFails | flushes => exact .inl rfl

theorem Effect.writer_life {s s1 : State} {i : Instr} (e : Effect s i s1) : s1.w.life = s.w.life ∨
    i = .wOpen ∧ s1.w.life = .opened ∨ i = .wClose ∧ s.w.life = .opened ∧ s1.w.life = .closed := by
  cases e with
  | wOpens => exact .inr (.inl ⟨rfl, rfl⟩)
  | wCloses ho => exact .inr (.inr ⟨rfl, ho, rfl⟩)
  | writes => exact .inl (writeBits_life _ _ s.w)
  | rCloses =>
    obtain ⟨_, hw, _⟩ := closeReader_spec s
    exact .inl (by rw [hw])
  | seeds hb | seedFails hb =>
    obtain ⟨_, _, hw, _⟩ := bindConsumer_spec s hb
    exact .inl (by rw [State.withPush_w, hw])
  | unchanged | rOpens | reads | peeks | inserts | insertFails | flushes => exact .inl rfl

theorem Effect.push_life {s s1 : State} {i : Instr} (e : Effect s i s1) : s1.p.life = s.p.life ∨
    i = .pInit ∧ (s1.p.life = .live ∨ s1.p.life = .idle) ∨
    (∃ packed n, i = .pInsert packed n) ∧ s.p.life = .live ∧ s1.p.life = .failed := by
  cases e with
  | seeds => exact .inr (.inl ⟨rfl, .inl rfl⟩)
  | seedFails => exact .inr (.inl ⟨rfl, .inr rfl⟩)
  | @insertFails packed n _ hl => exact .inr (.inr ⟨⟨packed, n, rfl⟩, hl, rfl⟩)
  | rCloses =>
    obtain ⟨_, _, hp, _⟩ := closeReader_spec s
    exact .inl (by rw [hp])
  | wCloses =>
    obtain ⟨_, _, hp, _⟩ := closeWriter_spec s
    exact .inl (by rw [hp])
  | unchanged | rOpens | reads | peeks | wOpens | writes | inserts | flushes => exact .inl rfl

/-- Settles O53: by the effects of a command on each lifecycle, and what every act but reset keeps. -/
theorem lifecycleChanges : Obligations.LifecycleChanges := by
  refine ⟨fun i s t h => ?command, fun a s t h => ⟨fun hreset => ?reset, fun hreset => ?act⟩,
    fun c e s t hd h => ?illegal⟩
  case command =>
    obtain ⟨s1, resp, rfl, e⟩ := exec_effect h
    exact ⟨e.reader_life.resolve_left, e.writer_life.resolve_left, e.push_life.resolve_left⟩
  case reset =>
    subst hreset
    cases h
    obtain ⟨hr, hw, hp⟩ := resetBlock_units s
    exact ⟨hr ▸ rfl, hw ▸ rfl, hp ▸ rfl⟩
  case act =>
    have k := hostAct_kept hreset h
    exact ⟨k.life, by rw [k.writer], by rw [k.push]⟩
  case illegal =>
    simp only [runCommand, hd] at h
    cases h
    exact ⟨rfl, rfl, rfl⟩

/-! ### Reset (R51) -/

/-- Settles O47: the reset state is written down with these values. -/
theorem resetValues : Obligations.ResetValues :=
  ⟨rfl, rfl, rfl, rfl, rfl, rfl, rfl, rfl, rfl, rfl, rfl, rfl, rfl, rfl⟩

end Sys2Proof.Machine
end

section
/-! The two byte channels: what an append or another agent's access does to a stream (spec 20_memory.md R61, R63, R74), why
an exhausted source that does not grow stays exhausted (R63), and how many bytes one command moves (R69, R276). -/

namespace Sys2Proof.Machine

/-! ### Acts on a stream, owned and not (R61, R74) -/

section Acts
variable {s : State}

theorem growSource_owned_growing (bytes : List Byte) {src : ByteSource} (ho : s.r.life = .opened)
    (hs : s.r.src = some src) (hg : src.grows = true) :
    growSource bytes s = .next (s.withReader { s.r with src := some (src.append bytes) }) := by
  simp only [growSource, ho, hs, hg, if_true]

theorem growSource_owned_fixed (bytes : List Byte) {src : ByteSource} (ho : s.r.life = .opened)
    (hs : s.r.src = some src) (hg : src.grows = false) : growSource bytes s = .refused .ownedStreamTouched := by
  simp [growSource, ho, hs, hg]

theorem growSource_attached (bytes : List Byte) {src : ByteSource} (hc : s.r.life ≠ .opened)
    (he : s.env.src = .attached src) :
    growSource bytes s = .next (s.withSrcPort (.attached (src.append bytes))) := by
  simp only [growSource, if_neg hc, he]

theorem growSource_not_attached (bytes : List Byte) (hc : s.r.life ≠ .opened) (he : ∀ src, s.env.src ≠ .attached src) :
    growSource bytes s = .next s := by
  simp only [growSource, if_neg hc]
  split
  case h_1 src hsrc => exact absurd hsrc (he src)
  case h_2 => rfl
  case h_3 => rfl

theorem foreignAccess_source_owned (ho : s.r.life = .opened) :
    foreignAccess .source s = .refused .ownedStreamTouched := if_pos ho

theorem foreignAccess_source_free (hc : s.r.life ≠ .opened) : foreignAccess .source s = .next s := if_neg hc

theorem foreignAccess_sink_owned (ho : s.w.life = .opened) :
    foreignAccess .sink s = .refused .ownedStreamTouched := if_pos ho

theorem foreignAccess_sink_free (hc : s.w.life ≠ .opened) : foreignAccess .sink s = .next s := if_neg hc

end Acts

/-- Bytes appended to the source follow the remaining bits (R61, R67). -/
theorem Reader.remaining_append {r : Reader} {src : ByteSource} (hs : r.src = some src) (bytes : List Byte) :
    ({ r with src := some (src.append bytes) } : Reader).remaining = r.remaining ++ bitsOf bytes := by
  simp [Reader.remaining, Reader.pending, hs, ByteSource.append]

/-- Settles O56: by who owns the stream, and for an owned source by whether it grows. -/
theorem ownedStreamsTakeOnlyAppends : Obligations.OwnedStreamsTakeOnlyAppends := fun _ =>
  ⟨fun bytes _ ho hs =>
      ⟨fun hg => ⟨growSource_owned_growing bytes ho hs hg, Reader.remaining_append hs bytes⟩,
        growSource_owned_fixed bytes ho hs⟩,
    fun bytes hc => ⟨fun _ => growSource_attached bytes hc, growSource_not_attached bytes hc⟩,
    foreignAccess_source_owned, foreignAccess_source_free, foreignAccess_sink_owned, foreignAccess_sink_free⟩

/-! ### Which effects a stream command can have -/

section Inversion
variable {s s1 : State} {i : Instr}

theorem Effect.of_rOpen_opened (e : Effect s .rOpen s1) (ho : s.r.life = .opened) : s1 = s := by
  cases e with
  | unchanged => rfl
  | rOpens hc => exact absurd ho hc
  | reads hi | peeks hi | writes hi => simp at hi

theorem Effect.of_rClose (e : Effect s .rClose s1) : s1 = s ∨ s1 = closeReader s := by
  cases e with
  | unchanged => exact .inl rfl
  | rCloses => exact .inr rfl
  | reads hi | peeks hi | writes hi => simp at hi

theorem Effect.of_read {n : Nat} (e : Effect s i s1) (hi : i = .rRead n ∨ i = .rTryRead n) :
    s1 = s ∨ n ≤ 64 ∧ s1 = s.withReader (readCore n s.r).reader := by
  cases e with
  | unchanged => exact .inl rfl
  | @reads _ m hi' _ hn =>
    obtain rfl : n = m := by rcases hi with rfl | rfl <;> simpa using hi'
    exact .inr ⟨hn, rfl⟩
  | peeks hi' | writes hi' => rcases hi with rfl | rfl <;> simp at hi'
  | _ => simp at hi

theorem Effect.of_peek (e : Effect s i s1) (hi : i = .rPeek ∨ i = .rTryPeek) :
    s1 = s ∨ ∃ r', loadByte s.r = some r' ∧ s1 = s.withReader r' := by
  cases e with
  | unchanged => exact .inl rfl
  | peeks _ _ hl => exact .inr ⟨_, hl, rfl⟩
  | reads hi' | writes hi' => rcases hi with rfl | rfl <;> simp at hi'
  | _ => simp at hi

theorem Effect.of_write {a : Word} {n off : Nat} (e : Effect s i s1) (hi : i = .wWrite a n ∨ i = .wWriteOff a n off) :
    s1 = s ∨ n ≤ 64 ∧ ∃ v, s1 = s.withWriter (writeBits v n s.w) := by
  cases e with
  | unchanged => exact .inl rfl
  | @writes _ _ m _ hi' _ hn =>
    obtain rfl : n = m := by rcases hi with rfl | rfl <;> simp at hi' <;> simp only [hi']
    exact .inr ⟨hn, _, rfl⟩
  | reads hi' | peeks hi' => rcases hi with rfl | rfl <;> simp at hi'
  | _ => simp at hi

theorem Effect.of_wClose (e : Effect s .wClose s1) : s1 = s ∨ s1 = closeWriter s := by
  cases e with
  | unchanged => exact .inl rfl
  | wCloses => exact .inr rfl
  | reads hi | peeks hi | writes hi => simp at hi

end Inversion

/-! ### An exhausted source that does not grow (R63) -/

theorem Reader.pending_of_src {r : Reader} {src : ByteSource} (hs : r.src = some src) : r.pending = src.bytes := by
  simp only [Reader.pending, hs]

/-- From an exhausted source a Reader takes nothing, so that the source is the same one. -/
theorem Reader.Took.src_of_exhausted {r r' : Reader} {l : List Byte} {src : ByteSource} (took : r.Took l r')
    (hs : r.src = some src) (hb : src.bytes = []) : r'.src = some src := by
  obtain ⟨rfl, hrest⟩ : l = [] ∧ r'.pending = [] := by
    simpa [Reader.pending_of_src hs, hb] using took.pending.symm
  obtain ⟨src', hs'⟩ := Option.isSome_iff_exists.mp (took.isSome.trans (by rw [hs]; rfl))
  have hbytes : src'.bytes = src.bytes := by rw [← Reader.pending_of_src hs', hrest, hb]
  have hgrows : src'.grows = src.grows := by simpa [hs, hs'] using took.grows
  have htaken : src'.taken = src.taken := by simpa [hs, hs'] using took.taken
  obtain rfl : src' = src := by
    cases src
    cases src'
    simp_all only
  exact hs'

/-- A command that finds and leaves the Reader OPEN takes bytes from its source and does nothing else to it. -/
theorem Effect.took_of_opened {s s1 : State} {i : Instr} (e : Effect s i s1) (hp : s.r.pos ≤ 8)
    (ho : s.r.life = .opened) (ho1 : s1.r.life = .opened) : ∃ l, s.r.Took l s1.r := by
  by_cases hopen : i = .rOpen
  · subst hopen
    exact ⟨[], e.of_rOpen_opened ho ▸ .refl s.r⟩
  by_cases hclose : i = .rClose
  · subst hclose
    rcases e.of_rClose with rfl | rfl
    · exact ⟨[], .refl _⟩
    · simp [closeReader] at ho1
  exact e.took hp hopen hclose

theorem runCommand_src_of_exhausted {c : Command} {s t : State} {src : ByteSource} (h : runCommand c s = .next t)
    (hp : s.r.pos ≤ 8) (ho : s.r.life = .opened) (hs : s.r.src = some src) (hb : src.bytes = [])
    (hot : t.r.life = .opened) : t.r.src = some src := by
  unfold runCommand at h
  split at h
  · obtain ⟨s1, resp, rfl, e⟩ := exec_effect h
    obtain ⟨l, took⟩ := e.took_of_opened hp ho hot
    exact took.src_of_exhausted hs hb
  · cases h
    exact hs

/-- Only reset, after which the Reader is IDLE, and an append, which is refused, could touch a source the Reader owns. -/
theorem hostAct_src_of_fixed {a : HostAct} {s t : State} {src : ByteSource} (h : hostAct a s = .next t)
    (ho : s.r.life = .opened) (hs : s.r.src = some src) (hg : src.grows = false) (hot : t.r.life = .opened) :
    t.r.src = some src := by
  cases a with
  | reset =>
    cases h
    rw [(resetBlock_units s).1] at hot
    cases hot
  | growSource bytes =>
    rw [hostAct, growSource_owned_fixed bytes ho hs hg] at h
    cases h
  | foreignAccess ch => rw [foreignAccess_eq h, hs]
  | attachSource | detachSource =>
    cases h
    rw [State.withSrcPort_r, (displaceSource_spec s).1, hs]
  | attachConsumer | detachConsumer =>
    cases h
    rw [State.withConsPort_r, (displaceConsumer_spec s).1, hs]
  | attachSink | detachSink =>
    cases h
    exact hs

/-- Settles O25: a command finds no byte to take, and no act adds one. -/
theorem endOfStreamIsSticky : Obligations.EndOfStreamIsSticky := by
  intro s t src hinv ho hs hb hg hstep hot
  unfold step at hstep
  split at hstep
  case h_1 => cases hstep; exact hs
  case h_2 => exact runCommand_src_of_exhausted hstep hinv.1 ho hs hb hot
  case h_3 => exact hostAct_src_of_fixed hstep ho hs hg hot

/-! ### Bytes moved by one command (R69, R276) -/

/-- A load takes at most the one byte the cursor needs (R125). -/
theorem loadByte_fetched {r r' : Reader} (hp : r.pos ≤ 8) (h : loadByte r = some r') :
    r'.pos ≤ 7 ∧ (r.pos = 8 ∧ r'.pos = 0 ∧ r'.fetched = r.fetched + 1 ∨ r' = r) := by
  rcases loadByte_cases r hp with ⟨hn, _⟩ | ⟨r1, l, hl, took, hpos, _, hload⟩
  · rw [hn] at h
    cases h
  · obtain rfl : r1 = r' := by rw [hl] at h; exact Option.some.inj h
    rcases hload with ⟨hp8, hlen, hp0⟩ | ⟨_, _, rfl⟩
    · exact ⟨hpos, .inl ⟨hp8, hp0, by rw [took.fetched, hlen]⟩⟩
    · exact ⟨hpos, .inr rfl⟩

/-- A read of `rem` bits loads a byte only where it needs one: after each load it takes the byte whole, or ends. -/
theorem readLoop_fetched_le (fuel rem : Nat) (acc : Word) (r : Reader) (hp : r.pos ≤ 8) :
    (readLoop fuel rem acc r).reader.fetched ≤ r.fetched + (rem + 7) / 8 := by
  induction fuel generalizing rem acc r with
  | zero => exact Nat.le_add_right _ _
  | succ fuel ih =>
    unfold readLoop
    split
    case isTrue => exact Nat.le_add_right _ _
    case isFalse hrem =>
      split
      case h_1 => exact Nat.le_add_right _ _
      case h_2 r1 hl =>
        obtain ⟨hp1, hload⟩ := loadByte_fetched hp hl
        refine (ih _ _ _ (by dsimp only; omega)).trans ?_
        rcases hload with ⟨_, hp0, hf⟩ | rfl <;> dsimp only <;> omega

theorem readCore_fetched_le (n : Nat) (r : Reader) (hp : r.pos ≤ 8) :
    (readCore n r).reader.fetched ≤ r.fetched + (n + 7) / 8 := readLoop_fetched_le n n 0#64 r hp

/-- A write of `n` bits emits the bytes they complete: as many bits as leave the Writer were waiting in it or are
written (R153). -/
theorem writeBits_emitted (v : Word) (n : Nat) {w : Writer} (hw : w.Ready) :
    8 * (writeBits v n w).emitted + (writeBits v n w).pos = 8 * w.emitted + w.pos + n := by
  obtain ⟨hready, hwritten, l, gave⟩ := writeBits_cases v n w hw
  have hlen := congrArg List.length hwritten
  have hpos := hw.pos
  have hpos' := hready.pos
  have hemitted := gave.emitted
  simp only [Writer.written, gave.emittedBytes hw.sink, bitsOf_append, List.length_append, List.length_take,
    bitsOf_length, byteBits_length, fieldBits_length] at hlen
  omega

theorem flushPartial_emitted_le (w : Writer) : (flushPartial w).emitted ≤ w.emitted + 1 := by
  obtain ⟨_, _, hnone, hone⟩ := flushPartial_cases w
  rcases Nat.eq_zero_or_pos w.pos with hp | hp
  · simp [(hnone hp).emitted]
  · simp [(hone hp).emitted]

/-- Settles O24: a count of at most 64 bits spans at most 8 loads and completes at most 8 bytes. -/
theorem streamTransferBounds : Obligations.StreamTransferBounds := by
  refine ⟨fun i n s t hinv _ hi h => ?read, fun i s t hinv _ hi h => ?peek, fun i a n off s t hinv ho hi h => ?write,
    fun s t h => ?close⟩ <;> obtain ⟨s1, resp, rfl, e⟩ := exec_effect h
  case read =>
    rcases e.of_read hi with rfl | ⟨hn, rfl⟩
    · exact Nat.le_add_right _ _
    · have hle := readCore_fetched_le n s.r hinv.1
      simp only [State.respond_r, State.withReader_r]
      omega
  case peek =>
    rcases e.of_peek hi with rfl | ⟨r', hl, rfl⟩
    · exact Nat.le_add_right _ _
    · obtain ⟨_, ⟨_, _, hf⟩ | rfl⟩ := loadByte_fetched hinv.1 hl
      · exact hf.le
      · exact Nat.le_add_right _ _
  case write =>
    rcases e.of_write hi with rfl | ⟨hn, v, rfl⟩
    · exact Nat.le_add_right _ _
    · have hbits := writeBits_emitted v n (hinv.ready ho)
      have hpos := hinv.1
      simp only [State.respond_w, State.withWriter_w]
      omega
  case close =>
    rcases e.of_wClose with rfl | rfl
    · exact Nat.le_add_right _ _
    · rw [State.respond_w, (closeWriter_spec s).1]
      exact flushPartial_emitted_le s.w

end Sys2Proof.Machine
end

section
/-! The command word and the opcode map as relations (spec 30_encoding.md R81 to R85): a word is its four fields, a row
matches by them, and a row's command carries the operands the row names. -/

namespace Sys2Proof

/-! ### A word is its four fields (R81) -/

theorem word_ext_iff {w w' : CommandWord} : w = w' ↔ opField w = opField w' ∧
    reservedField w = reservedField w' ∧ countField w = countField w' ∧ offsetField w = offsetField w' := by
  refine ⟨fun h => h ▸ ⟨rfl, rfl, rfl, rfl⟩, fun ⟨hop, hrsv, hn, hoff⟩ => BitVec.eq_of_toNat_eq ?_⟩
  replace hop := congrArg BitVec.toNat hop
  simp only [opField, countField, offsetField, reservedField, BitVec.extractLsb'_toNat, Nat.shiftRight_eq_div_pow]
    at hop hn hoff hrsv
  omega

section Masked
variable (w m : CommandWord)

theorem opField_and : opField (w &&& m) = opField w &&& opField m := BitVec.extractLsb'_and

theorem countField_and : countField (w &&& m) = countField w &&& countField m := by
  rw [countField, BitVec.extractLsb'_and, BitVec.toNat_and, countField, countField]

theorem offsetField_and : offsetField (w &&& m) = offsetField w &&& offsetField m := by
  rw [offsetField, BitVec.extractLsb'_and, BitVec.toNat_and, offsetField, offsetField]

theorem reservedField_and : reservedField (w &&& m) = reservedField w &&& reservedField m := by
  rw [reservedField, BitVec.extractLsb'_and, BitVec.toNat_and, reservedField, reservedField]

end Masked

theorem countField_lt (w : CommandWord) : countField w < 256 := BitVec.isLt _

theorem offsetField_lt (w : CommandWord) : offsetField w < 256 := BitVec.isLt _

theorem reservedField_lt (w : CommandWord) : reservedField w < 256 := BitVec.isLt _

/-! ### When a row matches (R84) -/

/-- The row's opcode. -/
def OpcodeRow.op (row : OpcodeRow) : Byte := opField row.pattern

/-- The row's mask leaves COUNT free (R84). -/
def OpcodeRow.usesCount (row : OpcodeRow) : Bool := countField row.mask == 0

/-- The row's mask leaves OFFSET free (R84). -/
def OpcodeRow.usesOffset (row : OpcodeRow) : Bool := offsetField row.mask == 0

/-- The row's command names data operand `A`. -/
def OpcodeRow.namesA (row : OpcodeRow) : Bool := (row.build ⟨0, 0, 0#64, 0#64⟩).operandA.isSome

/-- The row's command names data operand `B`. -/
def OpcodeRow.namesB (row : OpcodeRow) : Bool := (row.build ⟨0, 0, 0#64, 0#64⟩).operandB.isSome

/-- A row's mask holds or frees each field whole, and the pattern is the opcode alone. -/
theorem opcodeTable_masks : ∀ row ∈ opcodeTable,
    opField row.mask = 0xFF#8 ∧ (countField row.mask = 0 ∨ countField row.mask = 255) ∧
      (offsetField row.mask = 0 ∨ offsetField row.mask = 255) ∧ reservedField row.mask = 255 ∧
      countField row.pattern = 0 ∧ offsetField row.pattern = 0 ∧ reservedField row.pattern = 0 := by
  decide

/-- An 8-bit field under an all-ones mask. -/
theorem and_255_of_lt {v : Nat} (h : v < 256) : v &&& 255 = v :=
  (Nat.and_two_pow_sub_one_eq_mod v 8).trans (Nat.mod_eq_of_lt h)

theorem OpcodeRow.hits_iff {row : OpcodeRow} (hrow : row ∈ opcodeTable) (w : CommandWord) :
    row.hits w = true ↔ opField w = row.op ∧ reservedField w = 0 ∧ (countField w = 0 ∨ row.usesCount = true) ∧
      (offsetField w = 0 ∨ row.usesOffset = true) := by
  obtain ⟨hop, hn, hoff, hrsv, hn0, hoff0, hrsv0⟩ := opcodeTable_masks row hrow
  have hcount : countField w &&& countField row.mask = 0 ↔ countField w = 0 ∨ row.usesCount = true := by
    rcases hn with hn | hn <;> simp [OpcodeRow.usesCount, hn, and_255_of_lt (countField_lt w)]
  have hoffset : offsetField w &&& offsetField row.mask = 0 ↔ offsetField w = 0 ∨ row.usesOffset = true := by
    rcases hoff with hoff | hoff <;> simp [OpcodeRow.usesOffset, hoff, and_255_of_lt (offsetField_lt w)]
  have hopcode : opField w &&& opField row.mask = opField w := by
    rw [hop]
    exact BitVec.and_allOnes
  rw [OpcodeRow.hits, beq_iff_eq, word_ext_iff, opField_and, countField_and, offsetField_and, reservedField_and,
    hn0, hoff0, hrsv0, hcount, hoffset, hopcode, hrsv, and_255_of_lt (reservedField_lt w), OpcodeRow.op]

/-- No two rows of the map have one opcode. -/
theorem opcodeTable_ops_nodup : (opcodeTable.map OpcodeRow.op).Nodup := by decide

theorem OpcodeRow.eq_of_hits {row row' : OpcodeRow} {w : CommandWord} (hrow : row ∈ opcodeTable)
    (hrow' : row' ∈ opcodeTable) (h : row.hits w = true) (h' : row'.hits w = true) : row = row' := by
  have hop := ((OpcodeRow.hits_iff hrow w).mp h).1
  have hop' := ((OpcodeRow.hits_iff hrow' w).mp h').1
  exact List.inj_on_of_nodup_map opcodeTable_ops_nodup hrow hrow' (hop.symm.trans hop')

/-! ### What the decoder answers (R85) -/

theorem decode_of_hits {row : OpcodeRow} {c : Command} (hrow : row ∈ opcodeTable) (h : row.hits c.word = true) :
    decode c = .ok (row.build (operandsOf c)) := by
  unfold decode
  split
  case h_1 row' hfind =>
    rw [OpcodeRow.eq_of_hits (List.mem_of_find?_eq_some hfind) hrow (List.find?_some hfind :) h]
  case h_2 hnone => exact absurd h (List.find?_eq_none.mp hnone row hrow)

theorem decode_of_no_hit {c : Command} (h : ∀ row ∈ opcodeTable, row.hits c.word = false) :
    decode c = .error (illegalReason c.word) := by
  have hnone : opcodeTable.find? (fun row => row.hits c.word) = none :=
    List.find?_eq_none.mpr fun row hrow => by simp [h row hrow]
  simp only [decode, hnone]

/-- Only the row that matches a word gives its command. -/
theorem exists_hit_of_decode {c : Command} {i : Instr} (h : decode c = .ok i) :
    ∃ row ∈ opcodeTable, row.hits c.word = true ∧ row.build (operandsOf c) = i := by
  unfold decode at h
  split at h
  case h_1 row hfind =>
    cases h
    exact ⟨row, List.mem_of_find?_eq_some hfind, (List.find?_some hfind :), rfl⟩
  case h_2 => cases h

theorem decode_error_iff (c : Command) :
    (∃ e, decode c = .error e) ↔ ¬ ∃ row ∈ opcodeTable, row.hits c.word = true := by
  constructor
  · rintro ⟨e, he⟩ ⟨row, hrow, h⟩
    rw [decode_of_hits hrow h] at he
    cases he
  · intro h
    exact ⟨_, decode_of_no_hit fun row hrow => by simpa using fun hit => h ⟨row, hrow, hit⟩⟩

/-! ### A row's command carries what the row names (R82, R83) -/

theorem OpcodeRow.build_carries {row : OpcodeRow} (hrow : row ∈ opcodeTable) (o : Operands) :
    (row.build o).opcode = row.op ∧
      (row.build o).count = (if row.usesCount then o.n else 0) ∧
      (row.build o).offset = (if row.usesOffset then o.off else 0) ∧
      (row.build o).operandA = (if row.namesA then some o.a else none) ∧
      (row.build o).operandB = (if row.namesB then some o.b else none) := by
  simp only [opcodeTable, bbRows, readerRows, writerRows, pushRows, List.cons_append, List.nil_append,
    List.mem_cons, List.not_mem_nil, or_false] at hrow
  rcases hrow with rfl | rfl | rfl | rfl | rfl | rfl | rfl | rfl | rfl | rfl | rfl | rfl | rfl | rfl | rfl | rfl <;>
    exact ⟨rfl, rfl, rfl, rfl, rfl⟩

/-- The operands a command carries, 0 for those it does not name. -/
def Instr.operands (i : Instr) : Operands :=
  { n := i.count, off := i.offset, a := i.operandA.getD 0#64, b := i.operandB.getD 0#64 }

/-- Every command has a row, which builds it from its own operands (R84). -/
theorem Instr.exists_row (i : Instr) : ∃ row ∈ opcodeTable, row.build i.operands = i := by
  cases i with
  | bbCountUsed value => exact ⟨opcodeTable[0], List.getElem_mem _, rfl⟩
  | bbPush host bits n => exact ⟨opcodeTable[1], List.getElem_mem _, rfl⟩
  | bbPop host n => exact ⟨opcodeTable[2], List.getElem_mem _, rfl⟩
  | rOpen => exact ⟨opcodeTable[3], List.getElem_mem _, rfl⟩
  | rRead n => exact ⟨opcodeTable[4], List.getElem_mem _, rfl⟩
  | rTryRead n => exact ⟨opcodeTable[5], List.getElem_mem _, rfl⟩
  | rPeek => exact ⟨opcodeTable[6], List.getElem_mem _, rfl⟩
  | rTryPeek => exact ⟨opcodeTable[7], List.getElem_mem _, rfl⟩
  | rClose => exact ⟨opcodeTable[8], List.getElem_mem _, rfl⟩
  | wOpen => exact ⟨opcodeTable[9], List.getElem_mem _, rfl⟩
  | wWrite value n => exact ⟨opcodeTable[10], List.getElem_mem _, rfl⟩
  | wWriteOff value n off => exact ⟨opcodeTable[11], List.getElem_mem _, rfl⟩
  | wClose => exact ⟨opcodeTable[12], List.getElem_mem _, rfl⟩
  | pInit => exact ⟨opcodeTable[13], List.getElem_mem _, rfl⟩
  | pInsert packed n => exact ⟨opcodeTable[14], List.getElem_mem _, rfl⟩
  | pFlushByte => exact ⟨opcodeTable[15], List.getElem_mem _, rfl⟩

theorem Instr.wellFormed_iff (i : Instr) : i.WellFormed ↔ i.count < 256 ∧ i.offset < 256 := by
  cases i <;> simp [Instr.WellFormed, Instr.wellFormed, Instr.count, Instr.offset]

theorem operandsOf_encode {i : Instr} (h : i.WellFormed) : operandsOf (encode i) = i.operands := by
  obtain ⟨hn, hoff⟩ := i.wellFormed_iff.mp h
  obtain ⟨_, hcount, hoffset, _⟩ := Laws.EncodedFields.of_fits hn hoff h
  simp only [operandsOf, Instr.operands, hcount, hoffset]
  rfl

/-- A row matches the word of the command it builds. -/
theorem OpcodeRow.hits_encode {row : OpcodeRow} (hrow : row ∈ opcodeTable) {o : Operands} {i : Instr}
    (hbuild : row.build o = i) (h : i.WellFormed) : row.hits (encode i).word = true := by
  obtain ⟨hn, hoff⟩ := i.wellFormed_iff.mp h
  obtain ⟨hop, hcount, hoffset, hrsv⟩ := Laws.EncodedFields.of_fits hn hoff h
  obtain ⟨hop', hcount', hoffset', _⟩ := OpcodeRow.build_carries hrow o
  rw [hbuild] at hop' hcount' hoffset'
  rw [OpcodeRow.hits_iff hrow, hop, hcount, hoffset, hrsv, hop', hcount', hoffset']
  refine ⟨rfl, rfl, ?_, ?_⟩
  · cases row.usesCount <;> simp
  · cases row.usesOffset <;> simp

/-- Settles O2: the command's own row matches its word and builds it again from the operands encoded. -/
theorem decodeUndoesEncode : Obligations.DecodeUndoesEncode := by
  intro i h
  obtain ⟨row, hrow, hbuild⟩ := i.exists_row
  rw [decode_of_hits hrow (OpcodeRow.hits_encode hrow hbuild h), operandsOf_encode h, hbuild]

/-- The decoded command carries the fields of the word, and nothing stands in the others (R81, R82). -/
theorem decode_fields {c : Command} {i : Instr} (h : decode c = .ok i) :
    i.opcode = opField c.word ∧ i.count = countField c.word ∧ i.offset = offsetField c.word ∧
      reservedField c.word = 0 := by
  obtain ⟨row, hrow, hit, rfl⟩ := exists_hit_of_decode h
  obtain ⟨hop, hrsv, hcount, hoffset⟩ := (OpcodeRow.hits_iff hrow _).mp hit
  obtain ⟨hop', hcount', hoffset', _⟩ := OpcodeRow.build_carries hrow (operandsOf c)
  refine ⟨hop'.trans hop.symm, hcount'.trans ?_, hoffset'.trans ?_, hrsv⟩
  · rcases hcount with h0 | hu
    · simp [operandsOf, h0]
    · rw [if_pos hu, operandsOf]
  · rcases hoffset with h0 | hu
    · simp [operandsOf, h0]
    · rw [if_pos hu, operandsOf]

theorem decode_wellFormed {c : Command} {i : Instr} (h : decode c = .ok i) : i.WellFormed := by
  obtain ⟨_, hcount, hoffset, _⟩ := decode_fields h
  exact i.wellFormed_iff.mpr ⟨hcount ▸ countField_lt _, hoffset ▸ offsetField_lt _⟩

/-- A data operand the decoded command names is the transaction's (R82). -/
theorem decode_operands {c : Command} {i : Instr} (h : decode c = .ok i) :
    (∀ v, i.operandA = some v → v = c.a) ∧ (∀ v, i.operandB = some v → v = c.b) := by
  obtain ⟨row, hrow, _, rfl⟩ := exists_hit_of_decode h
  obtain ⟨_, _, _, ha, hb⟩ := OpcodeRow.build_carries hrow (operandsOf c)
  constructor
  · intro v hv
    rw [ha] at hv
    exact (Option.some.inj (Option.ite_none_right_eq_some.mp hv).2).symm
  · intro v hv
    rw [hb] at hv
    exact (Option.some.inj (Option.ite_none_right_eq_some.mp hv).2).symm

/-- Settles O3: the encoded word and the one decoded agree in all four fields. -/
theorem encodeUndoesDecode : Obligations.EncodeUndoesDecode := by
  intro c i h
  obtain ⟨hop, hcount, hoffset, hrsv⟩ := decode_fields h
  have hwf := decode_wellFormed h
  obtain ⟨hn, hoff⟩ := i.wellFormed_iff.mp hwf
  obtain ⟨hop', hcount', hoffset', hrsv'⟩ := Laws.EncodedFields.of_fits hn hoff hwf
  exact ⟨hwf, word_ext_iff.mpr ⟨hop'.trans hop, hrsv'.trans hrsv.symm, hcount'.trans hcount, hoffset'.trans hoffset⟩,
    decode_operands h⟩

/-! ### What a command names decides it (R83) -/

/-- A command is its opcode and its operands. -/
theorem Instr.eq_of_operands {i i' : Instr} (hop : i.opcode = i'.opcode) (h : i.operands = i'.operands) : i = i' := by
  obtain ⟨row, hrow, hbuild⟩ := i.exists_row
  obtain ⟨row', hrow', hbuild'⟩ := i'.exists_row
  have hrowOp := (OpcodeRow.build_carries hrow i.operands).1
  have hrowOp' := (OpcodeRow.build_carries hrow' i'.operands).1
  rw [hbuild] at hrowOp
  rw [hbuild'] at hrowOp'
  obtain rfl : row = row' := List.inj_on_of_nodup_map opcodeTable_ops_nodup hrow hrow'
    (hrowOp.symm.trans (hop.trans hrowOp'))
  rw [← hbuild, ← hbuild', h]

/-- A row reads a data operand only where its command names it. -/
theorem OpcodeRow.build_congr {row : OpcodeRow} (hrow : row ∈ opcodeTable) {o o' : Operands} (hn : o.n = o'.n)
    (hoff : o.off = o'.off) (ha : (row.build o).operandA.isSome = true → o.a = o'.a)
    (hb : (row.build o).operandB.isSome = true → o.b = o'.b) : row.build o = row.build o' := by
  obtain ⟨hop, hcount, hoffset, hA, hB⟩ := OpcodeRow.build_carries hrow o
  obtain ⟨hop', hcount', hoffset', hA', hB'⟩ := OpcodeRow.build_carries hrow o'
  have hA'' : (row.build o).operandA = (row.build o').operandA := by
    rw [hA] at ha ⊢
    rw [hA']
    cases h : row.namesA
    · rfl
    · simpa [h] using ha
  have hB'' : (row.build o).operandB = (row.build o').operandB := by
    rw [hB] at hb ⊢
    rw [hB']
    cases h : row.namesB
    · rfl
    · simpa [h] using hb
  refine Instr.eq_of_operands (hop.trans hop'.symm) ?_
  simp only [Instr.operands, hcount, hcount', hoffset, hoffset', hn, hoff, hA'', hB'']

/-- Settles O6: both transactions have one matching row, which reads no operand it does not name. -/
theorem unnamedOperandsIgnored : Obligations.UnnamedOperandsIgnored := by
  intro w a b a' b' i h ha hb
  obtain ⟨row, hrow, hit, rfl⟩ := exists_hit_of_decode h
  have hbuild : row.build (operandsOf ⟨w, a, b⟩) = row.build (operandsOf ⟨w, a', b'⟩) :=
    OpcodeRow.build_congr hrow rfl rfl ha hb
  rw [hbuild]
  exact decode_of_hits hrow hit

/-! ### The illegal words (R85, R87) -/

theorem runCommand_of_ok {c : Command} {i : Instr} (h : decode c = .ok i) (s : Machine.State) :
    Machine.runCommand c s = Machine.exec i s := by
  simp only [Machine.runCommand, h]

theorem runCommand_of_error {c : Command} {e : Illegal} (h : decode c = .error e) (s : Machine.State) :
    Machine.runCommand c s = .next (s.respond (.error .illegalCommand)) := by
  simp only [Machine.runCommand, h]
  rfl

/-- Settles O4: rows have distinct opcodes, so that the row found is the one that matches. -/
theorem decodingByTheOneMatchingRow : Obligations.DecodingByTheOneMatchingRow :=
  ⟨fun _ _ hrow _ hrow' h h' => by rw [OpcodeRow.eq_of_hits hrow hrow' h h'],
    fun _ _ hrow h s => runCommand_of_ok (decode_of_hits hrow h) s,
    fun _ h s => runCommand_of_error (decode_of_no_hit h) s⟩

theorem opField_toNat (w : CommandWord) : (opField w).toNat = 16 * unitField w + fnField w := by
  simp only [opField, unitField, fnField, BitVec.extractLsb'_toNat, Nat.shiftRight_eq_div_pow]
  omega

theorem fnField_lt (w : CommandWord) : fnField w < 16 := BitVec.isLt _

theorem functionAssigned_iff {unit fn : Nat} : functionAssigned unit fn = true ↔
    unit = 0 ∧ 1 ≤ fn ∧ fn ≤ 3 ∨ unit = 1 ∧ (fn ≤ 4 ∨ fn = 15) ∨ unit = 2 ∧ (fn ≤ 2 ∨ fn = 15) ∨
      unit = 3 ∧ fn ≤ 2 := by
  unfold functionAssigned
  split <;> simp_all

/-- The unassigned functions, as R87 lists them. -/
theorem functionAssigned_ne_true_iff {unit fn : Nat} (h : fn < 16) : ¬ functionAssigned unit fn = true ↔
    4 ≤ unit ∨ (unit = 0 ∧ (fn = 0 ∨ 4 ≤ fn)) ∨ (unit = 1 ∧ 5 ≤ fn ∧ fn ≤ 14) ∨ (unit = 2 ∧ 3 ≤ fn ∧ fn ≤ 14) ∨
      (unit = 3 ∧ 3 ≤ fn) := by
  rw [functionAssigned_iff]
  omega

/-- The rows' opcodes are the functions R87 lists. -/
theorem exists_row_op_iff (w : CommandWord) :
    (∃ row ∈ opcodeTable, row.op = opField w) ↔ functionAssigned (unitField w) (fnField w) = true := by
  have hops : opcodeTable.map OpcodeRow.op = [0x01#8, 0x02#8, 0x03#8, 0x10#8, 0x11#8, 0x12#8, 0x13#8, 0x14#8, 0x1F#8,
      0x20#8, 0x21#8, 0x22#8, 0x2F#8, 0x30#8, 0x31#8, 0x32#8] := by decide
  have hw := opField_toNat w
  have hfn := fnField_lt w
  rw [← List.mem_map, hops, functionAssigned_iff]
  simp only [List.mem_cons, List.not_mem_nil, or_false, BitVec.toNat_eq, BitVec.toNat_ofNat, hw]
  omega

theorem opcodeTable_usesCount_iff : ∀ row ∈ opcodeTable, row.usesCount = true ↔
    row.op ∈ [0x02#8, 0x03#8, 0x11#8, 0x12#8, 0x21#8, 0x22#8, 0x31#8] := by decide

theorem opcodeTable_usesOffset_iff : ∀ row ∈ opcodeTable, row.usesOffset = true ↔ row.op = 0x22#8 := by decide

/-- The legal words (R81, R84): the conditions of R87, turned round. -/
theorem exists_hit_iff (w : CommandWord) : (∃ row ∈ opcodeTable, row.hits w = true) ↔
    reservedField w = 0 ∧ functionAssigned (unitField w) (fnField w) = true ∧
      (countField w = 0 ∨ opField w ∈ [0x02#8, 0x03#8, 0x11#8, 0x12#8, 0x21#8, 0x22#8, 0x31#8]) ∧
      (offsetField w = 0 ∨ opField w = 0x22#8) := by
  rw [← exists_row_op_iff]
  constructor
  · rintro ⟨row, hrow, h⟩
    rw [OpcodeRow.hits_iff hrow, opcodeTable_usesCount_iff row hrow, opcodeTable_usesOffset_iff row hrow] at h
    obtain ⟨hop, hrsv, h⟩ := h
    exact ⟨hrsv, ⟨row, hrow, hop.symm⟩, hop ▸ h⟩
  · rintro ⟨hrsv, ⟨row, hrow, hop⟩, h⟩
    refine ⟨row, hrow, ?_⟩
    rw [OpcodeRow.hits_iff hrow, opcodeTable_usesCount_iff row hrow, opcodeTable_usesOffset_iff row hrow, hop]
    exact ⟨rfl, hrsv, h⟩

/-- Settles O5: a word is rejected exactly when no row matches it. -/
theorem illegalWordsExactly : Obligations.IllegalWordsExactly := by
  intro c
  refine ⟨?_, fun ⟨e, he⟩ s => runCommand_of_error he s⟩
  rw [decode_error_iff, exists_hit_iff]
  simp only [not_and_or, not_or, functionAssigned_ne_true_iff (fnField_lt c.word), or_assoc, ne_eq]

end Sys2Proof
end

section
/-! The P.INSERT packing (spec 30_encoding.md R88), the pseudo-commands (R92), the encoding examples (R93) and the step
(R85, R89). -/

namespace Sys2Proof.Machine

/-! ### Bytes of a packed operand (R88) -/

@[simp] theorem unpackBytes_length (packed : Word) (n : Nat) : (unpackBytes packed n).length = n := by
  simp [unpackBytes]

theorem unpackByte_eq (packed : Word) (n i : Nat) :
    unpackByte packed n i = BitVec.ofNat 8 (packed.toNat / 2 ^ (8 * (n - 1 - i))) := by
  rw [unpackByte, BitVec.extractLsb', Nat.shiftRight_eq_div_pow]

/-- A byte below `n` lies within the low `8n` bits of the operand. -/
theorem unpackByte_congr {packed packed' : Word} {n i : Nat} (hi : i < n)
    (h : packed.toNat % 2 ^ (8 * n) = packed'.toNat % 2 ^ (8 * n)) :
    unpackByte packed n i = unpackByte packed' n i := by
  refine BitVec.eq_of_getLsbD_eq fun j hj => ?_
  have hbit := congrArg (Nat.testBit · (8 * (n - 1 - i) + j)) h
  have hlow : 8 * (n - 1 - i) + j < 8 * n := by omega
  simp only [Nat.testBit_mod_two_pow, hlow, decide_true, Bool.true_and] at hbit
  simp only [unpackByte, BitVec.getLsbD_extractLsb', hj, decide_true, Bool.true_and]
  exact hbit

theorem unpackBytes_congr {packed packed' : Word} {n : Nat}
    (h : packed.toNat % 2 ^ (8 * n) = packed'.toNat % 2 ^ (8 * n)) :
    unpackBytes packed n = unpackBytes packed' n :=
  List.map_congr_left fun _ hi => unpackByte_congr (List.mem_range.mp hi) h

/-- The last byte is the operand's low byte; the others are those of the operand shifted by it. -/
theorem unpackBytes_succ (packed : Word) (n : Nat) :
    unpackBytes packed (n + 1) = unpackBytes (packed >>> 8) n ++ [packed.extractLsb' 0 8] := by
  rw [unpackBytes, List.range_succ, List.map_append, List.map_singleton, unpackBytes]
  congr 1
  · refine List.map_congr_left fun i hi => ?_
    have hshift : 8 * (n + 1 - 1 - i) = 8 + 8 * (n - 1 - i) := by
      have := List.mem_range.mp hi
      omega
    refine BitVec.eq_of_getLsbD_eq fun j hj => ?_
    simp only [unpackByte, BitVec.getLsbD_extractLsb', BitVec.getLsbD_ushiftRight, hshift, Nat.add_assoc]
  · simp [unpackByte]

theorem packBytes_append_singleton (bytes : List Byte) (b : Byte) :
    packBytes (bytes ++ [b]) = (packBytes bytes <<< 8) ||| zext64 b := by
  rw [packBytes, List.foldl_append, ← packBytes]
  rfl

/-- Shifting in a byte keeps the lower 56 bits of what was packed before. -/
theorem shiftIn_ushiftRight_toNat (acc : Word) (b : Byte) :
    (((acc <<< 8) ||| zext64 b) >>> 8).toNat = acc.toNat % 2 ^ 56 := by
  have hb : (zext64 b).toNat < 2 ^ 8 := by
    rw [zext64, BitVec.toNat_setWidth]
    omega
  rw [shift_or_toNat _ _ hb, BitVec.toNat_ushiftRight, BitVec.toNat_ofNat, Nat.shiftRight_eq_div_pow]
  omega

theorem shiftIn_low (acc : Word) (b : Byte) : ((acc <<< 8) ||| zext64 b).extractLsb' 0 8 = b := by
  refine BitVec.eq_of_getLsbD_eq fun j hj => ?_
  have h64 : j < 64 := by omega
  simp [zext64, hj, h64]

theorem unpackBytes_packBytes (bytes : List Byte) (h : bytes.length ≤ 8) :
    unpackBytes (packBytes bytes) bytes.length = bytes := by
  induction bytes using List.reverseRecOn with
  | nil => rfl
  | append_singleton bytes b ih =>
    rw [List.length_append, List.length_singleton] at h ⊢
    have hlow : (((packBytes bytes <<< 8) ||| zext64 b) >>> 8).toNat % 2 ^ (8 * bytes.length) =
        (packBytes bytes).toNat % 2 ^ (8 * bytes.length) := by
      rw [shiftIn_ushiftRight_toNat, Nat.mod_mod_of_dvd _ (Nat.pow_dvd_pow 2 (by omega))]
    rw [packBytes_append_singleton, unpackBytes_succ, unpackBytes_congr hlow, ih (by omega), shiftIn_low]

/-- Settles O7: a byte is a division of the operand, and packing shifts in one byte after the other. -/
theorem insertOperandPacking : Obligations.InsertOperandPacking := by
  refine ⟨fun packed n i _ hi => ?_, fun _ _ _ _ h => unpackBytes_congr h, unpackBytes_packBytes⟩
  rw [unpackBytes, List.getElem?_map, List.getElem?_range hi, Option.map_some, unpackByte_eq]

/-! ### Pseudo-commands (R92) -/

/-- What R92 says of an expansion of P.INSERTN: chunks of 1 to 8 bytes, all but the last of 8. -/
def Chunks (bytes : List Byte) (chunks : List (List Byte)) : Prop :=
  chunks.flatten = bytes ∧ (∀ chunk ∈ chunks, 1 ≤ chunk.length ∧ chunk.length ≤ 8) ∧
    ∀ chunk ∈ chunks.dropLast, chunk.length = 8

theorem Chunks.cons {bytes first : List Byte} {chunks : List (List Byte)} (h : Chunks bytes chunks)
    (hfirst : first.length = 8) : Chunks (first ++ bytes) (first :: chunks) := by
  obtain ⟨hflat, hlen, hfull⟩ := h
  refine ⟨by rw [List.flatten_cons, hflat], List.forall_mem_cons.mpr ⟨by omega, hlen⟩, ?_⟩
  cases chunks with
  | nil => simp
  | cons second rest => exact List.forall_mem_cons.mpr ⟨hfirst, hfull⟩

theorem Chunks.single {bytes : List Byte} (h : 1 ≤ bytes.length) (h8 : bytes.length ≤ 8) : Chunks bytes [bytes] :=
  ⟨by simp, by simpa using ⟨h, h8⟩, by simp⟩

theorem insertManyPseudo_chunks (bytes : List Byte) :
    ∃ chunks : List (List Byte), insertManyPseudo bytes = chunks.map insertBytes ∧ Chunks bytes chunks := by
  induction bytes using insertManyPseudo.induct with
  | case1 => exact ⟨[], rfl, rfl, by simp, by simp⟩
  | case2 b0 b1 b2 b3 b4 b5 b6 b7 rest ih =>
    obtain ⟨chunks, hexp, hchunks⟩ := ih
    exact ⟨[b0, b1, b2, b3, b4, b5, b6, b7] :: chunks, by rw [insertManyPseudo, hexp, List.map_cons],
      hchunks.cons rfl⟩
  | case3 bytes hne hshort =>
    have hlen : bytes.length < 8 := by
      by_contra hlong
      rw [Nat.not_lt] at hlong
      exact hshort bytes[0] bytes[1] bytes[2] bytes[3] bytes[4] bytes[5] bytes[6] bytes[7] (bytes.drop 8)
        (by simp only [List.getElem_cons_drop, List.drop_zero])
    have hpos : 1 ≤ bytes.length := List.length_pos_of_ne_nil hne
    exact ⟨[bytes], by rw [insertManyPseudo, List.map_singleton]; exacts [hne, hshort], .single hpos hlen.le⟩

/-- Settles O59: P.INSERTN by its recursion, eight bytes at a time. -/
theorem pseudoCommandExpansions : Obligations.PseudoCommandExpansions := by
  refine ⟨rfl, rfl, rfl, rfl, fun bytes => ?_⟩
  obtain ⟨chunks, hexp, hflat, hlen, hfull⟩ := insertManyPseudo_chunks bytes
  exact ⟨chunks, hexp, hflat, hlen, hfull⟩

/-! ### Encoding examples (R93) -/

/-- A transaction with a command's word, and with its data operands where it names them, decodes to it. -/
theorem decode_of_encode_word {c : Command} {i : Instr} (h : i.WellFormed) (hword : (encode i).word = c.word)
    (ha : i.operandA.isSome = true → (encode i).a = c.a) (hb : i.operandB.isSome = true → (encode i).b = c.b) :
    decode c = .ok i :=
  unnamedOperandsIgnored c.word _ _ c.a c.b i (hword ▸ decodeUndoesEncode i h) ha hb

theorem runCommand_of_countNotUsed {c : Command} {op : Byte} (hop : opField c.word = op)
    (hunused : op ∉ [0x02#8, 0x03#8, 0x11#8, 0x12#8, 0x21#8, 0x22#8, 0x31#8]) (hn : countField c.word ≠ 0)
    (s : State) : runCommand c s = .next (s.respond (.error .illegalCommand)) := by
  subst hop
  obtain ⟨hillegal, hrun⟩ := illegalWordsExactly c
  exact hrun (hillegal.mpr <| .inr <| .inr <| .inr <| .inr <| .inr <| .inr <| .inl ⟨hn, hunused⟩) s

/-- Settles O1: the examples are encodings, which decode by O2 and O6; a COUNT on R.CLOSE is illegal by O5. -/
theorem encodingExamples : Obligations.EncodingExamples := by
  refine ⟨rfl, rfl, rfl, rfl, rfl, rfl, fun a b => ⟨?_, ?_, ?_, ?_, ?_, ?_, ?_⟩⟩
  · exact decode_of_encode_word rfl (by decide : commandWord 0x11#8 9 0 = 0x00000911#32) nofun nofun
  · exact decode_of_encode_word rfl (by decide : commandWord 0x21#8 2 0 = 0x00000221#32) (fun _ => rfl) nofun
  · exact decode_of_encode_word rfl (by decide : commandWord 0x22#8 8 4 = 0x00040822#32) (fun _ => rfl) nofun
  · exact decode_of_encode_word rfl (by decide : commandWord 0x02#8 2 0 = 0x00000202#32) (fun _ => rfl) (fun _ => rfl)
  · exact decode_of_encode_word rfl (by decide : commandWord 0x31#8 2 0 = 0x00000231#32) (fun _ => rfl) nofun
  · exact decode_of_encode_word rfl (by decide : commandWord 0x1F#8 0 0 = 0x0000001F#32) nofun nofun
  · exact runCommand_of_countNotUsed (by decide : opField 0x0000011F#32 = 0x1F#8) (by decide)
      (by decide : countField 0x0000011F#32 ≠ 0)

/-! ### The step (R73, R85, R249) -/

theorem step_command {s : State} {c : Command} {rest : List HostEvent} (h : s.host.inbox = .command c :: rest) :
    step s = runCommand c (s.withInbox rest) := by
  simp only [step, h]

theorem step_act {s : State} {a : HostAct} {rest : List HostEvent} (h : s.host.inbox = .act a :: rest) :
    step s = hostAct a (s.withInbox rest) := by
  simp only [step, h]

theorem step_idle {s : State} (h : s.host.inbox = []) : step s = .next s := by
  simp only [step, h]

/-- Settles O8: by the first event of the inbox, and for a command by what its word decodes to. -/
theorem stepRunsDecodedCommand : Obligations.StepRunsDecodedCommand :=
  ⟨fun s _ rest h =>
      ⟨fun _ hi => (step_command h).trans (runCommand_of_ok hi (s.withInbox rest)),
        fun _ he => (step_command h).trans (runCommand_of_error he (s.withInbox rest))⟩,
    fun _ _ _ => step_act, fun _ => step_idle⟩

end Sys2Proof.Machine
end

section
/-! How a command can end (spec 30_encoding.md R80, R86, R89; 10_state.md R48; 43_push_reader.md R181): which responses it
can return, and what can keep it from returning one. -/

namespace Sys2Proof.Machine

/-! ### The ends of a command -/

/-- The commands that invoke the consumer (R181). -/
def Invokes (i : Instr) : Prop := i = .pInit ∨ ∃ packed n, i = .pInsert packed n

/-- The responses a command issued in a state can return (R48, R86). -/
inductive LegalResponse (s : State) : Instr → Response → Prop
  /-- one result, or none -/
  | delivers (i : Instr) (r0 : Word) : LegalResponse s i (.delivered r0 0#64)
  /-- two results (R105) -/
  | pops (host : Word) (n : Nat) (r0 r1 : Word) : LegalResponse s (.bbPop host n) (.delivered r0 r1)
  /-- a Try form at the end of the source (R123, R126) -/
  | exhausts {i : Instr} (hi : (∃ n, i = .rTryRead n) ∨ i = .rTryPeek) : LegalResponse s i .exhausted
  /-- an error of the command's own (R241) -/
  | rejects (i : Instr) {e : Status} (he : e ≠ .ok ∧ e ≠ .formatError) : LegalResponse s i (.error e)
  /-- the code of a failed session (R186) -/
  | repeatsCode (i : Instr) (hl : s.p.life = .failed) : LegalResponse s i (.error s.p.fail)

/-- A command returns a legal response, or stops inside an invocation (R89, R181, R260). -/
inductive Ending (s : State) (i : Instr) : Result → Prop
  /-- it returns -/
  | responds (t : State) {resp : Response} (h : LegalResponse s i resp) : Ending s i (.next (t.respond resp))
  /-- the consumer never answers -/
  | silent (hi : Invokes i) : Ending s i (.fault .consumerSilent)
  /-- a command is issued meanwhile -/
  | commandIssued (hi : Invokes i) : Ending s i (.refused .reentrantCommand)
  /-- reset is applied meanwhile -/
  | resetApplied (hi : Invokes i) : Ending s i (.refused .resetDuringCommand)

section Endings
variable {s : State} {i : Instr} (t : State)

theorem ending_finish (r0 : Word) : Ending s i (finish r0 0#64 t) := .responds t (.delivers i r0)

theorem ending_finishExhausted (hi : (∃ n, i = .rTryRead n) ∨ i = .rTryPeek) : Ending s i (finishExhausted t) :=
  .responds t (.exhausts hi)

theorem ending_raise {e : Status} (he : e ≠ .ok ∧ e ≠ .formatError) : Ending s i (raise e t) :=
  .responds t (.rejects i he)

/-- A check that rejects the command, and what it does where the check passes. -/
theorem ending_guard {p : Prop} [Decidable p] {e : Status} {res : Result} (he : e ≠ .ok ∧ e ≠ .formatError)
    (h : Ending s i res) : Ending s i (if p then raise e t else res) := by
  split
  · exact ending_raise t he
  · exact h

theorem ending_ite {p : Prop} [Decidable p] {res res' : Result} (h : Ending s i res) (h' : Ending s i res') :
    Ending s i (if p then res else res') := by
  split
  · exact h
  · exact h'

theorem ending_endInsert (o : StepOut (Option Consumer)) (hi : Invokes i) : Ending s i (endInsert o t) := by
  unfold endInsert
  dsimp only
  split
  · exact ending_finish _ _
  · exact ending_raise _ (by decide)
  · exact ending_raise _ (by decide)
  · exact .silent hi
  · exact .commandIssued hi
  · exact .resetApplied hi

end Endings

section Commands
variable (s : State)

theorem execROpen_ending : Ending s .rOpen (execROpen s) := by
  refine ending_guard _ (by decide) ?_
  split
  · exact ending_raise _ (by decide)
  · exact ending_finish _ _

theorem execRRead_ending (n : Nat) : Ending s (.rRead n) (execRRead n s) := by
  refine ending_guard _ (by decide) (ending_guard _ (by decide) ?_)
  dsimp only
  split
  · exact ending_raise _ (by decide)
  · exact ending_finish _ _

theorem execRTryRead_ending (n : Nat) : Ending s (.rTryRead n) (execRTryRead n s) := by
  refine ending_guard _ (by decide) (ending_guard _ (by decide) ?_)
  dsimp only
  split
  · exact ending_finishExhausted _ (.inl ⟨n, rfl⟩)
  · exact ending_finish _ _

theorem execRPeek_ending : Ending s .rPeek (execRPeek s) := by
  refine ending_guard _ (by decide) ?_
  split
  · exact ending_raise _ (by decide)
  · exact ending_finish _ _

theorem execRTryPeek_ending : Ending s .rTryPeek (execRTryPeek s) := by
  refine ending_guard _ (by decide) ?_
  split
  · exact ending_finishExhausted _ (.inr rfl)
  · exact ending_finish _ _

theorem execPInit_ending : Ending s .pInit (execPInit s) := by
  unfold execPInit
  split
  case h_1 => exact ending_raise _ (by decide)
  case h_2 =>
    dsimp only
    split
    · exact ending_ite (ending_finish _ _) (ending_raise _ (by decide))
    · exact .silent (.inl rfl)
    · exact .commandIssued (.inl rfl)
    · exact .resetApplied (.inl rfl)

theorem execPInsert_ending (packed : Word) (n : Nat) : Ending s (.pInsert packed n) (execPInsert packed n s) := by
  unfold execPInsert
  split
  case h_1 => exact ending_raise _ (by decide)
  case h_2 hl => exact .responds _ (.repeatsCode _ hl)
  case h_3 => exact ending_guard _ (by decide) (ending_endInsert _ _ (.inr ⟨packed, n, rfl⟩))

theorem execPFlushByte_ending : Ending s .pFlushByte (execPFlushByte s) := by
  unfold execPFlushByte
  split
  case h_1 => exact ending_raise _ (by decide)
  case h_2 hl => exact .responds _ (.repeatsCode _ hl)
  case h_3 => exact ending_finish _ _

end Commands

/-- Every command ends in one of the ways listed. -/
theorem exec_ending (i : Instr) (s : State) : Ending s i (exec i s) := by
  cases i with
  | bbCountUsed => exact ending_finish _ _
  | bbPush => exact ending_guard _ (by decide) (ending_finish _ _)
  | bbPop host n => exact ending_guard _ (by decide) (.responds _ (.pops host n _ _))
  | rOpen => exact execROpen_ending s
  | rRead n => exact execRRead_ending s n
  | rTryRead n => exact execRTryRead_ending s n
  | rPeek => exact execRPeek_ending s
  | rTryPeek => exact execRTryPeek_ending s
  | rClose | wClose => exact ending_ite (ending_finish _ _) (ending_finish _ _)
  | wOpen | wWrite | wWriteOff => exact ending_guard _ (by decide) (ending_guard _ (by decide) (ending_finish _ _))
  | pInit => exact execPInit_ending s
  | pInsert packed n => exact execPInsert_ending s packed n
  | pFlushByte => exact execPFlushByte_ending s

/-! ### One response (R48, R80, R86, R234) -/

/-- A command's effect, its response apart, leaves the responses returned before as they are. -/
theorem Effect.responses {s s1 : State} {i : Instr} (e : Effect s i s1) : s1.host.responses = s.host.responses := by
  cases e with
  | rCloses =>
    obtain ⟨_, _, _, _, _, _, hresp, _⟩ := releaseSource_spec s
    exact hresp
  | wCloses =>
    obtain ⟨_, _, _, _, _, hresp, _⟩ := releaseSink_spec (s.withWriter (flushPartial s.w))
    exact hresp
  | seeds hb | seedFails hb =>
    obtain ⟨_, _, _, _, _, _, _, hresp, _⟩ := bindConsumer_spec s hb
    exact hresp
  | unchanged | rOpens | reads | peeks | wOpens | writes | inserts | insertFails | flushes => rfl

/-- What R48, R86 and R234 ask of a response. -/
theorem LegalResponse.wellFormed {s : State} {i : Instr} {resp : Response} (h : LegalResponse s i resp)
    (hp : s.p.Inv) :
    (resp.st ≠ .ok ∨ resp.ok = false → resp.r0 = 0#64 ∧ resp.r1 = 0#64) ∧
      ((∀ n, i ≠ .rTryRead n) → i ≠ .rTryPeek → (resp.ok = true ↔ resp.st = .ok)) ∧
      (resp.ok = true → resp.st = .ok) ∧ resp.st ≠ .formatError ∧
      (resp.r1 ≠ 0#64 → ∃ host n, i = .bbPop host n) := by
  cases h with
  | delivers => simp [Response.delivered]
  | pops host n => simp [Response.delivered]
  | exhausts hi =>
    refine ⟨fun _ => ⟨rfl, rfl⟩, fun hread hpeek => ?_, nofun, nofun, fun h => absurd rfl h⟩
    rcases hi with ⟨n, hi⟩ | hi
    · exact absurd hi (hread n)
    · exact absurd hi hpeek
  | rejects _ he => simp [Response.error, he]
  | repeatsCode _ hl =>
    obtain ⟨_, _, _, _, hfail⟩ := hp
    rcases hfail hl with hcode | hcode <;> simp [Response.error, hcode]

/-- Settles O51: a command's effect adds no response, and the one it returns is legal. -/
theorem oneResponsePerCommand : Obligations.OneResponsePerCommand := by
  intro i s t hp h
  obtain ⟨s1, resp, rfl, e⟩ := exec_effect h
  refine ⟨resp, by rw [State.respond_host_responses, e.responses], ?_⟩
  have hend := exec_ending i s
  generalize exec i s = res at h hend
  cases hend with
  | responds t hlegal =>
    obtain ⟨_, rfl⟩ := State.respond_inj (Host.Outcome.next.inj h)
    exact hlegal.wellFormed hp
  | silent | commandIssued | resetApplied => cases h

/-! ### The stops (R89, R181, R260) -/

theorem exec_fault {i : Instr} {s : State} {f : Fault} (h : exec i s = .fault f) : f = .consumerSilent ∧ Invokes i := by
  have hend := exec_ending i s
  rw [h] at hend
  cases hend with
  | silent hi => exact ⟨rfl, hi⟩

theorem exec_refused {i : Instr} {s : State} {f : Refusal} (h : exec i s = .refused f) :
    (f = .reentrantCommand ∨ f = .resetDuringCommand) ∧ Invokes i := by
  have hend := exec_ending i s
  rw [h] at hend
  cases hend with
  | commandIssued hi => exact ⟨.inl rfl, hi⟩
  | resetApplied hi => exact ⟨.inr rfl, hi⟩

/-- Settles O55: by the ways a command ends, and for the seed by the consumer's answer to it. -/
theorem stopsOnlyInsideInvocations : Obligations.StopsOnlyInsideInvocations := by
  refine ⟨fun _ _ _ => exec_fault, fun _ _ _ => exec_refused, fun s c hb => ⟨fun ha => ?_, fun ha => ?_, fun ha => ?_⟩⟩
  all_goals simp only [exec, execPInit, hb, ha]

end Sys2Proof.Machine
end

section
/-! The BitBuffer commands (spec 40_bitbuffer.md R100 to R107): each answers from its operands alone, CountUsed is a
logarithm, a push is the sum of the shifted host and the new low bits, and a pop divides it again. -/

namespace Sys2Proof.Machine

/-! ### What the commands answer (R101, R103, R105) -/

section Commands
variable (s : State) (host bits : Word) {n : Nat}

theorem exec_bbCountUsed (value : Word) :
    exec (.bbCountUsed value) s = .next (s.respond (.delivered (BitVec.ofNat 64 (countUsed value)) 0#64)) := rfl

theorem exec_bbPush_of_le (h : n ≤ 64) :
    exec (.bbPush host bits n) s = .next (s.respond (.delivered (pushBits host bits n) 0#64)) :=
  if_neg (Nat.not_lt.mpr h)

theorem exec_bbPush_of_lt (h : 64 < n) :
    exec (.bbPush host bits n) s = .next (s.respond (.error .invalidArgument)) := if_pos h

theorem exec_bbPop_of_le (h : n ≤ 64) :
    exec (.bbPop host n) s = .next (s.respond (.delivered (popBits host n) (popRest host n))) :=
  if_neg (Nat.not_lt.mpr h)

theorem exec_bbPop_of_lt (h : 64 < n) :
    exec (.bbPop host n) s = .next (s.respond (.error .invalidArgument)) := if_pos h

end Commands

/-! ### CountUsed (R101, R102) -/

theorem ushiftRight_one_toNat (x : Word) : (x >>> 1).toNat = x.toNat / 2 := by
  rw [BitVec.toNat_ushiftRight, Nat.shiftRight_eq_div_pow, Nat.pow_one]

theorem ushiftRight_one_eq_zero_iff (x : Word) : x >>> 1 = 0#64 ↔ ¬ 2 ≤ x.toNat := by
  rw [← BitVec.toNat_inj, ushiftRight_one_toNat, BitVec.toNat_ofNat]
  omega

/-- The loop adds the position of the highest set bit plus one, where the fuel covers the value. -/
theorem countLoop_eq (fuel c : Nat) (x : Word) (hx : x.toNat < 2 ^ (fuel + 1)) :
    countLoop (fuel + 1) c x = c + (x.toNat.log2 + 1) := by
  induction fuel generalizing c x with
  | zero =>
    have h : ¬ 2 ≤ x.toNat := Nat.not_le.mpr hx
    rw [countLoop, if_pos ((ushiftRight_one_eq_zero_iff x).mpr h), Nat.log2_def, if_neg h]
  | succ fuel ih =>
    rw [countLoop, Nat.log2_def]
    by_cases h : 2 ≤ x.toNat
    · have hrest : (x >>> 1).toNat < 2 ^ (fuel + 1) := by rw [ushiftRight_one_toNat]; omega
      rw [if_neg (fun h0 => (ushiftRight_one_eq_zero_iff x).mp h0 h), if_pos h, ih _ _ hrest, ushiftRight_one_toNat]
      omega
    · rw [if_pos ((ushiftRight_one_eq_zero_iff x).mpr h), if_neg h]

/-- R101, the closed form; `Nat.log2 0` is 0, so that it covers the value 0. -/
theorem countUsed_eq (value : Word) : countUsed value = value.toNat.log2 + 1 := by
  rw [countUsed, countLoop_eq 63 0 value value.isLt, Nat.zero_add]

theorem countUsed_le (value : Word) : countUsed value ≤ 64 := by
  rw [countUsed_eq]
  by_cases h : value.toNat = 0
  · simp [h]
  · exact (Nat.log2_lt h).mpr value.isLt

theorem log2_two_pow_succ_sub_one (k : Nat) : (2 ^ (k + 1) - 1).log2 = k := by
  have := Nat.two_pow_pos k
  rw [Nat.log2_eq_iff (by omega)]
  omega

/-- Settles O9, by the closed form. -/
theorem countUsedResult : Obligations.CountUsedResult := by
  intro value s
  refine ⟨(by decide : commandWord 0x01#8 0 0 = 0x00000001#32), countUsed value, ?closed, ?low,
    countUsed_le value, exec_bbCountUsed s value⟩
  case closed =>
    rw [countUsed_eq]
    split
    case isTrue h => rw [h]; rfl
    case isFalse => rfl
  case low => rw [countUsed_eq]; omega

/-- Settles O10: the bounds say that the logarithm is the greatest power of two below the value. -/
theorem countUsedLaws : Obligations.CountUsedLaws := by
  refine ⟨rfl, rfl, fun n hpos hn => ?_, fun a => ⟨?upper, fun ha => ?lower⟩⟩
  · obtain ⟨k, rfl⟩ := Nat.exists_eq_add_of_le' hpos
    rw [countUsed_eq, ← mask, mask_toNat hn, log2_two_pow_succ_sub_one]
  case upper =>
    rw [mask_toNat (countUsed_le a), countUsed_eq]
    have : a.toNat < 2 ^ (a.toNat.log2 + 1) := Nat.lt_log2_self
    omega
  case lower =>
    rw [mask_toNat (Nat.sub_le_of_le_add (Nat.le_add_right_of_le (countUsed_le a))), countUsed_eq,
      Nat.add_sub_cancel]
    have : 2 ^ a.toNat.log2 ≤ a.toNat := Nat.log2_self_le (Nat.ne_of_gt ha)
    have := Nat.two_pow_pos a.toNat.log2
    omega

/-! ### Pushing and popping (R103, R105) -/

section Values
variable (host bits : Word) {n : Nat}

theorem shiftLeft_and_mask_eq_zero : (host <<< n) &&& (bits &&& mask n) = 0#64 := by
  refine BitVec.eq_of_getLsbD_eq fun i hi => ?_
  by_cases h : i < n <;> simp [getLsbD_mask, h]

/-- The two parts of a push share no bit, so that joining them adds them. -/
theorem pushBits_toNat (h : n ≤ 64) :
    (pushBits host bits n).toNat = (host.toNat * 2 ^ n + bits.toNat % 2 ^ n) % 2 ^ 64 := by
  rw [pushBits, ← BitVec.add_eq_or_of_and_eq_zero _ _ (shiftLeft_and_mask_eq_zero host bits), BitVec.toNat_add,
    BitVec.toNat_shiftLeft, and_mask_toNat bits h, Nat.shiftLeft_eq, Nat.mod_add_mod]

theorem getLsbD_pushBits {i : Nat} (hi : i < 64) :
    (pushBits host bits n).getLsbD i = if i < n then bits.getLsbD i else host.getLsbD (i - n) := by
  rw [pushBits, BitVec.getLsbD_or, BitVec.getLsbD_shiftLeft, BitVec.getLsbD_and, getLsbD_mask]
  by_cases h : i < n <;> simp [h, hi]

theorem popBits_toNat (h : n ≤ 64) : (popBits host n).toNat = host.toNat % 2 ^ n := and_mask_toNat host h

theorem popRest_toNat : (popRest host n).toNat = host.toNat / 2 ^ n := by
  rw [popRest, BitVec.toNat_ushiftRight, Nat.shiftRight_eq_div_pow]

theorem popBits_pushBits : popBits (pushBits host bits n) n = bits &&& mask n := by
  refine BitVec.eq_of_getLsbD_eq fun i hi => ?_
  by_cases h : i < n <;> simp [popBits, getLsbD_pushBits host bits hi, getLsbD_mask, h]

theorem popRest_pushBits : popRest (pushBits host bits n) n = host &&& mask (64 - n) := by
  refine BitVec.eq_of_getLsbD_eq fun i hi => ?_
  rw [popRest, BitVec.getLsbD_ushiftRight, BitVec.getLsbD_and, getLsbD_mask]
  by_cases h : n + i < 64
  · have h' : i < 64 - n := by omega
    simp [getLsbD_pushBits host bits h, hi, h']
  · have h' : ¬ i < 64 - n := by omega
    simp [BitVec.getLsbD_of_ge _ _ (Nat.le_of_not_lt h), h']

/-! ### The corner cases (R103, R105) -/

@[simp] theorem pushBits_zero : pushBits host bits 0 = host := by simp [pushBits, mask]

@[simp] theorem pushBits_sixtyFour : pushBits host bits 64 = bits :=
  BitVec.eq_of_getLsbD_eq fun _ hi => by rw [getLsbD_pushBits host bits hi, if_pos hi]

@[simp] theorem popBits_zero : popBits host 0 = 0#64 := by simp [popBits, mask]

@[simp] theorem popBits_sixtyFour : popBits host 64 = host := by
  rw [← BitVec.toNat_inj, popBits_toNat host le_rfl, Nat.mod_eq_of_lt host.isLt]

@[simp] theorem popRest_zero : popRest host 0 = host := by simp [popRest]

@[simp] theorem popRest_sixtyFour : popRest host 64 = 0#64 := by
  rw [← BitVec.toNat_inj, popRest_toNat, Nat.div_eq_of_lt host.isLt]
  rfl

end Values

/-- Settles O11, by the value of a push and its corner cases. -/
theorem pushResult : Obligations.PushResult := by
  intro host bits n s
  refine ⟨rfl, fun h => ⟨pushBits host bits n, exec_bbPush_of_le s host bits h, pushBits_toNat host bits h, ?_, ?_⟩,
    exec_bbPush_of_lt s host bits⟩
  · rintro rfl
    exact pushBits_zero host bits
  · rintro rfl
    exact pushBits_sixtyFour host bits

/-- Settles O12, by the values of a pop and their corner cases. -/
theorem popResult : Obligations.PopResult := by
  intro host n s
  refine ⟨rfl, fun h => ⟨popBits host n, popRest host n, exec_bbPop_of_le s host h, popBits_toNat host h,
    popRest_toNat host, ?_, ?_⟩, exec_bbPop_of_lt s host⟩
  · rintro rfl
    exact ⟨popBits_zero host, popRest_zero host⟩
  · rintro rfl
    exact ⟨popBits_sixtyFour host, popRest_sixtyFour host⟩

/-- Settles O13: below `n` the bits of a push are the pushed ones, from `n` on they are the host's. -/
theorem popUndoesPush : Obligations.PopUndoesPush := by
  intro host bits n h
  refine ⟨pushBits host bits n, fun s => exec_bbPush_of_le s host bits h, fun s => ?_⟩
  rw [exec_bbPop_of_le s _ h, popBits_pushBits, popRest_pushBits]

/-! ### The unit has no state (R100) -/

/-- Settles O14: a rejected count and an accepted one each have one response, whatever the state. -/
theorem bitBufferWritesOnlyResponse : Obligations.BitBufferWritesOnlyResponse := by
  intro i hunit
  cases i with
  | bbCountUsed value => exact ⟨_, by nofun, fun s => exec_bbCountUsed s value, by nofun⟩
  | bbPush host bits n =>
    rcases Nat.lt_or_ge 64 n with h | h
    · exact ⟨_, by nofun, fun s => exec_bbPush_of_lt s host bits h, fun _ => rfl⟩
    · exact ⟨_, by nofun, fun s => exec_bbPush_of_le s host bits h, fun hn => absurd hn (Nat.not_lt.mpr h)⟩
  | bbPop host n =>
    rcases Nat.lt_or_ge 64 n with h | h
    · exact ⟨_, by nofun, fun s => exec_bbPop_of_lt s host h, fun _ => rfl⟩
    · exact ⟨_, by nofun, fun s => exec_bbPop_of_le s host h, fun hn => absurd hn (Nat.not_lt.mpr h)⟩
  | rOpen | rRead | rTryRead | rPeek | rTryPeek | rClose | wOpen | wWrite | wWriteOff | wClose | pInit | pInsert
  | pFlushByte => simp [Instr.unit, Instr.opcode] at hunit

end Sys2Proof.Machine
end

section
/-! The Bit Reader's commands (spec 41_reader.md R120 to R129): what each answers, by the lifecycle and by what
`ReadCore` or the lazy load finds, and how the Try forms follow the commands they are forms of. -/

namespace Sys2Proof.Machine

/-! ### What the commands answer (R120 to R128) -/

section Commands
variable {s : State} {i : Instr} {n : Nat}

theorem exec_rOpen_of_opened (ho : s.r.life = .opened) :
    exec .rOpen s = .next (s.respond (.error .invalidArgument)) := if_pos ho

theorem exec_rOpen_of_not_offered (hb : s.env.src.offered s.r.src = none) :
    exec .rOpen s = .next (s.respond (.error .invalidArgument)) := by
  rw [exec, execROpen, hb]
  exact ite_self _

theorem exec_rOpen_of_offered {src : ByteSource} (hc : s.r.life ≠ .opened)
    (hb : s.env.src.offered s.r.src = some src) :
    exec .rOpen s = .next (((s.withReader
      { life := .opened, cur := 0#8, pos := 8, src := some src, fetched := 0 }).withSrcPort .lent).respond
        (.delivered 0#64 0#64)) := by
  rw [exec, execROpen, if_neg hc, hb]
  rfl

/-- A reading command checks the lifecycle first (R128, R235). -/
theorem exec_reading_of_not_opened (hc : s.r.life ≠ .opened)
    (hi : i = .rRead n ∨ i = .rTryRead n ∨ i = .rPeek ∨ i = .rTryPeek) :
    exec i s = .next (s.respond (.error .useAfterClose)) := by
  rcases hi with rfl | rfl | rfl | rfl <;> exact if_pos hc

theorem exec_read_of_lt (ho : s.r.life = .opened) (hn : 64 < n) (hi : i = .rRead n ∨ i = .rTryRead n) :
    exec i s = .next (s.respond (.error .invalidArgument)) := by
  rcases hi with rfl | rfl <;> exact (if_neg (not_not.mpr ho)).trans (if_pos hn)

theorem exec_read_of_field {v : Word} (ho : s.r.life = .opened) (hn : n ≤ 64)
    (hf : (readCore n s.r).field = some v) (hi : i = .rRead n ∨ i = .rTryRead n) :
    exec i s = .next ((s.withReader (readCore n s.r).reader).respond (.delivered v 0#64)) := by
  rcases hi with rfl | rfl <;> simp only [exec, execRRead, execRTryRead, ho, ne_eq, not_true_eq_false, if_false,
    Config.maxWidth_eq, Nat.not_lt.mpr hn, hf, finish]

theorem exec_rRead_of_end (ho : s.r.life = .opened) (hn : n ≤ 64) (hf : (readCore n s.r).field = none) :
    exec (.rRead n) s = .next ((s.withReader (readCore n s.r).reader).respond (.error .endOfStream)) := by
  simp only [exec, execRRead, ho, ne_eq, not_true_eq_false, if_false, Config.maxWidth_eq, Nat.not_lt.mpr hn, hf, raise]

theorem exec_rTryRead_of_end (ho : s.r.life = .opened) (hn : n ≤ 64) (hf : (readCore n s.r).field = none) :
    exec (.rTryRead n) s = .next ((s.withReader (readCore n s.r).reader).respond .exhausted) := by
  simp only [exec, execRTryRead, ho, ne_eq, not_true_eq_false, if_false, Config.maxWidth_eq, Nat.not_lt.mpr hn, hf,
    finishExhausted]

theorem exec_peek_of_loaded {r' : Reader} (ho : s.r.life = .opened) (hl : loadByte s.r = some r')
    (hi : i = .rPeek ∨ i = .rTryPeek) :
    exec i s = .next ((s.withReader r').respond (.delivered (nextBit r') 0#64)) := by
  rcases hi with rfl | rfl <;>
    simp only [exec, execRPeek, execRTryPeek, ho, ne_eq, not_true_eq_false, if_false, hl, finish]

theorem exec_rPeek_of_end (ho : s.r.life = .opened) (hl : loadByte s.r = none) :
    exec .rPeek s = .next (s.respond (.error .endOfStream)) := by
  simp only [exec, execRPeek, ho, ne_eq, not_true_eq_false, if_false, hl, raise]

theorem exec_rTryPeek_of_end (ho : s.r.life = .opened) (hl : loadByte s.r = none) :
    exec .rTryPeek s = .next (s.respond .exhausted) := by
  simp only [exec, execRTryPeek, ho, ne_eq, not_true_eq_false, if_false, hl, finishExhausted]

theorem exec_rClose_of_opened (ho : s.r.life = .opened) :
    exec .rClose s = .next ((closeReader s).respond (.delivered 0#64 0#64)) := if_pos ho

theorem exec_rClose_of_not_opened (hc : s.r.life ≠ .opened) :
    exec .rClose s = .next (s.respond (.delivered 0#64 0#64)) := if_neg hc

end Commands

/-! ### Opening and rejecting (R120, R121, R128) -/

/-- Settles O15: by the lifecycle and by what the source input offers. -/
theorem readerOpens : Obligations.ReaderOpens := by
  intro s
  refine ⟨by decide, exec_rOpen_of_opened, fun he => exec_rOpen_of_not_offered ?_,
    fun src hc he => exec_rOpen_of_offered hc ?_⟩ <;> rw [he, Port.offered]

/-- Settles O19: the lifecycle is checked before the count, and the count before the stream. -/
theorem readerRejectsUnchanged : Obligations.ReaderRejectsUnchanged := fun _ _ =>
  ⟨fun hc _ => exec_reading_of_not_opened hc, fun ho hn _ => exec_read_of_lt ho hn⟩

/-! ### Closing (R127) -/

section Close
variable {s : State} {src : ByteSource}

theorem closeReader_of_lent (hs : s.r.src = some src) (he : s.env.src = .lent) :
    closeReader s = (s.withReader { s.r with life := .closed, src := none }).withSrcPort (.attached src) := by
  simp only [closeReader, releaseSource, hs, he]
  rfl

theorem closeReader_of_not_lent (hs : s.r.src = some src) (he : s.env.src ≠ .lent) :
    closeReader s = (s.withReader { s.r with life := .closed, src := none }).giveSource src := by
  simp only [closeReader, releaseSource, hs]
  split
  case h_1 hl => exact absurd hl he
  case h_2 => rfl
  case h_3 => rfl

end Close

/-- Settles O22: by the lifecycle, and on an OPEN Reader by whether its source is still the attached one. -/
theorem readerCloses : Obligations.ReaderCloses := by
  intro s
  refine ⟨by decide, exec_rClose_of_not_opened, fun src ho hs he => ?lent, fun src ho hs he => ?notLent,
    fun hclosed n i => exec_reading_of_not_opened (by simp [hclosed])⟩
  case lent => rw [exec_rClose_of_opened ho, closeReader_of_lent hs he]
  case notLent => rw [exec_rClose_of_opened ho, closeReader_of_not_lent hs he]

/-! ### The Try forms (R123, R126) -/

/-- The result of a command and that of its Try form: one state change, and one response but for the end of stream. -/
def TryFollows (res tryRes : Result) : Prop :=
  ∃ (t : State) (resp : Response), res = .next (t.respond resp) ∧
    tryRes = .next (t.respond (if resp = .error .endOfStream then .exhausted else resp))

theorem tryFollows_of_same {res tryRes : Result} {t : State} {resp : Response} (hne : resp ≠ .error .endOfStream)
    (h : res = .next (t.respond resp)) (htry : tryRes = .next (t.respond resp)) : TryFollows res tryRes :=
  ⟨t, resp, h, by rw [if_neg hne, htry]⟩

theorem tryFollows_of_end {res tryRes : Result} {t : State} (h : res = .next (t.respond (.error .endOfStream)))
    (htry : tryRes = .next (t.respond .exhausted)) : TryFollows res tryRes :=
  ⟨t, _, h, by rw [if_pos rfl, htry]⟩

theorem delivered_ne_error (r0 r1 : Word) (e : Status) : Response.delivered r0 r1 ≠ .error e := by
  simp [Response.delivered, Response.error]

theorem rTryRead_follows (s : State) (n : Nat) : TryFollows (exec (.rRead n) s) (exec (.rTryRead n) s) := by
  by_cases ho : s.r.life = .opened
  case neg =>
    exact tryFollows_of_same (by decide) (exec_reading_of_not_opened ho (n := n) (by simp))
      (exec_reading_of_not_opened ho (n := n) (by simp))
  rcases Nat.lt_or_ge 64 n with hn | hn
  · exact tryFollows_of_same (by decide) (exec_read_of_lt ho hn (.inl rfl)) (exec_read_of_lt ho hn (.inr rfl))
  · cases hf : (readCore n s.r).field with
    | none => exact tryFollows_of_end (exec_rRead_of_end ho hn hf) (exec_rTryRead_of_end ho hn hf)
    | some v =>
      exact tryFollows_of_same (delivered_ne_error _ _ _) (exec_read_of_field ho hn hf (.inl rfl))
        (exec_read_of_field ho hn hf (.inr rfl))

theorem rTryPeek_follows (s : State) : TryFollows (exec .rPeek s) (exec .rTryPeek s) := by
  by_cases ho : s.r.life = .opened
  case neg =>
    exact tryFollows_of_same (by decide) (exec_reading_of_not_opened ho (n := 0) (by simp))
      (exec_reading_of_not_opened ho (n := 0) (by simp))
  cases hl : loadByte s.r with
  | none => exact tryFollows_of_end (exec_rPeek_of_end ho hl) (exec_rTryPeek_of_end ho hl)
  | some r' =>
    exact tryFollows_of_same (delivered_ne_error _ _ _) (exec_peek_of_loaded ho hl (.inl rfl))
      (exec_peek_of_loaded ho hl (.inr rfl))

/-- Settles O18: by the lifecycle, the count and whether `ReadCore` finds its bits. -/
theorem tryReadFollowsRead : Obligations.TryReadFollowsRead := fun s n => ⟨rfl, rTryRead_follows s n⟩

end Sys2Proof.Machine
end

section
/-! Reads and peeks over the remaining bit string (spec 41_reader.md R124 to R126, R129): a read takes its first bits, a
peek loads and shows the first and takes none, and without enough of them either meets the end of the source. -/

namespace Sys2Proof.Machine

/-! ### Reads that find their bits (R129) -/

@[simp] theorem readCore_zero_reader (r : Reader) : (readCore 0 r).reader = r := rfl

/-- Settles O16: by what `ReadCore` finds; a read that delivers is not one that meets the end of the source. -/
theorem readTakesFirstBits : Obligations.ReadTakesFirstBits := by
  intro s n hinv ho hn
  obtain ⟨_, hfound, hend⟩ := readCore_cases n s.r hinv.1
  refine ⟨fun hlen => ?found, fun hlen => ?short, fun ⟨r', hexec⟩ => ?onlyShort⟩
  case found =>
    obtain ⟨hfield, hrest, _⟩ := hfound hlen
    refine ⟨_, fun i => exec_read_of_field ho hn hfield, hrest, (readCore_life n s.r).trans ho, ?_⟩
    rintro rfl
    exact readCore_zero_reader s.r
  case short => exact ⟨_, exec_rRead_of_end ho hn (hend hlen).1⟩
  case onlyShort =>
    by_contra hlen
    obtain ⟨hfield, _⟩ := hfound (Nat.le_of_not_lt hlen)
    exact raise_ne_delivered _ _ _ _ _ (hexec.symm.trans (exec_read_of_field ho hn hfield (.inl rfl)))

/-! ### The end of the source (R63, R124) -/

theorem Reader.remaining_eq_nil {r : Reader} (hp : r.pos = 8) (hn : r.pending = []) : r.remaining = [] :=
  List.eq_nil_of_length_eq_zero (by simp [Reader.remaining_length, hp, hn])

/-- A loaded Reader has a bit before it, and a load leaves the remaining bits as they are. -/
theorem loadByte_eq_none {r : Reader} (hp : r.pos ≤ 8) (h : r.remaining = []) : loadByte r = none := by
  rcases loadByte_cases r hp with ⟨hl, _⟩ | ⟨r', _, _, _, hp', hrem, _⟩
  · exact hl
  · have hlen := r'.remaining_length
    rw [hrem, h, List.length_nil] at hlen
    omega

/-- With no bit remaining a read of any bit ends at once and changes nothing. -/
theorem readCore_of_remaining_nil {r : Reader} {n : Nat} (hp : r.pos ≤ 8) (h : r.remaining = []) (hn : 1 ≤ n) :
    readCore n r = { field := none, reader := r } := by
  obtain ⟨m, rfl⟩ := Nat.exists_eq_add_of_le' hn
  simp [readCore, readLoop, loadByte_eq_none hp h]

/-- A Reader that took every pending byte holds the same source with all its bytes taken. -/
theorem Reader.Took.src_of_pending {r r' : Reader} (took : r.Took r.pending r') :
    r'.src = r.src.map (fun src => { src with bytes := [], taken := src.taken ++ src.bytes }) := by
  have hgrows := took.grows
  have htaken := took.taken
  have hnone : r'.pending = [] := by simpa using took.pending
  rcases hs : r.src with _ | src
  · simpa [hs] using took.isSome
  · obtain ⟨⟨bytes, grows, taken⟩, hs'⟩ := Option.isSome_iff_exists.mp (took.isSome.trans (by rw [hs]; rfl))
    have hbytes : bytes = [] := by rwa [Reader.pending_of_src hs'] at hnone
    simp only [hs, hs', Reader.pending_of_src hs, Option.map_some, Option.some.injEq] at hgrows htaken ⊢
    rw [hbytes, hgrows, htaken]

/-- What a read of more bits than remain leaves: every pending byte is taken, and the cursor is at the end of the last
(R124). -/
theorem readCore_short {r : Reader} {n : Nat} (hp : r.pos ≤ 8) (h : r.remaining.length < n) :
    (readCore n r).field = none ∧ (readCore n r).reader.pos = 8 ∧ (readCore n r).reader.pending = [] ∧
      r.Took r.pending (readCore n r).reader := by
  obtain ⟨⟨l, took⟩, _, hend⟩ := readCore_cases n r hp
  obtain ⟨hfield, hpos, hpending⟩ := hend h
  have hl : r.pending = l := by rw [took.pending, hpending, List.append_nil]
  exact ⟨hfield, hpos, hpending, hl ▸ took⟩

/-- Settles O17: a short read takes every byte, so that the next one finds no bit remaining. -/
theorem readAtEndOfStream : Obligations.ReadAtEndOfStream := by
  intro s n hinv ho hn hlen
  obtain ⟨hfield, hpos, hpending, took⟩ := readCore_short hinv.1 hlen
  have hrem := Reader.remaining_eq_nil hpos hpending
  have hlife := took.life.trans ho
  refine ⟨_, exec_rRead_of_end ho hn hfield, exec_rTryRead_of_end ho hn hfield, hlife, hpos, took.cur,
    took.src_of_pending, hrem, ?position, fun t m ht hm hm64 => ?later⟩
  case position =>
    have hp := hinv.1
    rw [took.fetched, hpos, Reader.remaining_length]
    omega
  case later =>
    rw [← ht] at hpos hrem hlife
    have hread := readCore_of_remaining_nil hpos.le hrem hm
    have hexec := exec_rRead_of_end hlife hm64 (by rw [hread])
    rwa [hread, State.withReader_self] at hexec

/-! ### Peeks (R125, R126) -/

theorem loadByte_of_pos_le {r : Reader} (h : r.pos ≤ 7) : loadByte r = some r := if_neg (by omega)

theorem nextBit_of_remaining_cons {r : Reader} {b : Bool} {rest : List Bool} (hp : r.pos ≤ 7)
    (h : r.remaining = b :: rest) : nextBit r = if b then 1#64 else 0#64 := by
  rw [nextBit_eq_head r hp, h]
  cases b <;> rfl

/-- With a bit remaining a load succeeds, and the loaded Reader shows that bit. -/
theorem loadByte_of_remaining_cons {r : Reader} {b : Bool} {rest : List Bool} (hp : r.pos ≤ 8)
    (h : r.remaining = b :: rest) : ∃ r', loadByte r = some r' ∧ r'.remaining = r.remaining ∧
      r'.life = r.life ∧ nextBit r' = if b then 1#64 else 0#64 := by
  rcases loadByte_cases r hp with ⟨_, hp8, hn⟩ | ⟨r', _, hl, took, hp', hrem, _⟩
  · rw [Reader.remaining_eq_nil hp8 hn] at h
    cases h
  · exact ⟨r', hl, hrem, took.life, nextBit_of_remaining_cons hp' (hrem.trans h)⟩

/-- Settles O20: a peek shows the first bit of the loaded Reader, which has nothing to load a second time. -/
theorem peekShowsNextBit : Obligations.PeekShowsNextBit := by
  intro s hinv
  refine ⟨by decide, fun hc => exec_reading_of_not_opened hc (n := 0) (by simp),
    fun ho hrem => exec_rPeek_of_end ho (loadByte_eq_none hinv.1 hrem), fun b rest ho hrem => ?_⟩
  obtain ⟨r', hl, hrem', hlife, hbit⟩ := loadByte_of_remaining_cons hinv.1 hrem
  obtain ⟨hp', hload⟩ := loadByte_fetched hinv.1 hl
  refine ⟨r', hbit ▸ exec_peek_of_loaded ho hl (.inl rfl), hrem', hlife.trans ho, fun hp => ?inByte,
    fun hp => ?atEnd, fun t ht => ?again⟩
  case inByte =>
    rw [loadByte_of_pos_le hp] at hl
    exact (Option.some.inj hl).symm
  case atEnd =>
    rcases hload with ⟨_, hp0, hf⟩ | rfl
    · exact ⟨hp0, hf⟩
    · omega
  case again =>
    subst ht
    exact hbit ▸ exec_peek_of_loaded (hlife.trans ho) (loadByte_of_pos_le hp') (.inl rfl)

/-- Settles O21: by the lifecycle and the load, and with a bit to come by what the loaded Reader shows. -/
theorem tryPeekFollowsPeek : Obligations.TryPeekFollowsPeek := by
  intro s
  refine ⟨by decide, rTryPeek_follows s, fun b rest hinv ho hrem => ?_⟩
  obtain ⟨r', hl, hrem', hlife, hbit⟩ := loadByte_of_remaining_cons hinv.1 hrem
  exact ⟨r', hbit ▸ exec_peek_of_loaded ho hl (.inr rfl), hrem', hlife.trans ho⟩

end Sys2Proof.Machine
end

section
/-! The Bit Writer's commands (spec 42_writer.md R150 to R159): what each answers, by the lifecycle and the arguments,
W.WRITE as W.WRITEOFF at offset 0 (R157), and the bytes W.CLOSE hands over (R158). -/

namespace Sys2Proof.Machine

/-! ### What the commands answer (R150 to R158) -/

section Commands
variable {s : State} {i : Instr} {value : Word} {n off : Nat}

theorem exec_wOpen_of_opened (ho : s.w.life = .opened) :
    exec .wOpen s = .next (s.respond (.error .invalidArgument)) := if_pos ho

theorem exec_wOpen_of_detached (hd : s.env.sink = false) :
    exec .wOpen s = .next (s.respond (.error .invalidArgument)) := by
  rw [exec, execWOpen, if_pos hd]
  exact ite_self _

theorem exec_wOpen_of_attached (hc : s.w.life ≠ .opened) (hs : s.env.sink = true) :
    exec .wOpen s = .next ((s.withWriter
      { life := .opened, cur := 0#8, pos := 0, sink := some [], emitted := 0 }).respond (.delivered 0#64 0#64)) :=
  (if_neg hc).trans (if_neg (by simp [hs]))

/-- W.WRITE is W.WRITEOFF at offset 0, rejections included (R157). -/
theorem exec_wWrite (s : State) (value : Word) (n : Nat) : exec (.wWrite value n) s = exec (.wWriteOff value n 0) s := by
  simp [exec, execWWrite, execWWriteOff]

/-- A write checks the lifecycle first (R150). -/
theorem exec_wWriteOff_of_not_opened (hc : s.w.life ≠ .opened) :
    exec (.wWriteOff value n off) s = .next (s.respond (.error .useAfterClose)) := if_pos hc

theorem exec_wWriteOff_of_out_of_range (ho : s.w.life = .opened) (h : 64 < n ∨ 64 ≤ off) :
    exec (.wWriteOff value n off) s = .next (s.respond (.error .invalidArgument)) :=
  (if_neg (not_not.mpr ho)).trans (if_pos h)

theorem exec_wWriteOff_of_legal (ho : s.w.life = .opened) (hn : n ≤ 64) (hoff : off < 64) :
    exec (.wWriteOff value n off) s = .next ((s.withWriter
      (writeBits ((value >>> off) &&& mask n) n s.w)).respond (.delivered 0#64 0#64)) :=
  (if_neg (not_not.mpr ho)).trans (if_neg (not_or.mpr ⟨Nat.not_lt.mpr hn, Nat.not_le.mpr hoff⟩))

theorem exec_wClose_of_not_opened (hc : s.w.life ≠ .opened) :
    exec .wClose s = .next (s.respond (.delivered 0#64 0#64)) := if_neg hc

end Commands

/-- Settles O27: by the lifecycle and the sink input. -/
theorem writerOpens : Obligations.WriterOpens := fun _ =>
  ⟨by decide, exec_wOpen_of_opened, exec_wOpen_of_detached, exec_wOpen_of_attached⟩

/-- Settles O30: the two agree at every count, a rejected one included. -/
theorem writeIsWriteOffAtZero : Obligations.WriteIsWriteOffAtZero := fun s value n _ => exec_wWrite s value n

/-- Settles O33: the commands left are the two writes, and W.WRITE is W.WRITEOFF at offset 0. -/
theorem writerRejectsUnchanged : Obligations.WriterRejectsUnchanged := by
  intro s i hunit hopen hclose
  cases i with
  | wWrite value n => exact exec_wWrite s value n ▸ ⟨exec_wWriteOff_of_not_opened, exec_wWriteOff_of_out_of_range⟩
  | wWriteOff value n off => exact ⟨exec_wWriteOff_of_not_opened, exec_wWriteOff_of_out_of_range⟩
  | wOpen => exact absurd rfl hopen
  | wClose => exact absurd rfl hclose
  | bbCountUsed | bbPush | bbPop | rOpen | rRead | rTryRead | rPeek | rTryPeek | rClose | pInit | pInsert
  | pFlushByte => simp [Instr.unit, Instr.opcode] at hunit

/-! ### Placing a chunk (R154) -/

/-- Of a value that fits in `rem` bits, the top `chunk` are what a right shift leaves. -/
theorem topBits_of_lt {v : Word} {rem chunk : Nat} (hv : v.toNat < 2 ^ rem) (hchunk : chunk ≤ rem)
    (hrem : rem ≤ 64) : topBits v rem chunk = v >>> (rem - chunk) := by
  apply BitVec.eq_of_toNat_eq
  rw [topBits, and_mask_toNat _ (hchunk.trans hrem), BitVec.toNat_ushiftRight, Nat.shiftRight_eq_div_pow]
  refine Nat.mod_eq_of_lt (Nat.div_lt_of_lt_mul ?_)
  rwa [← pow_add, Nat.sub_add_cancel hchunk]

/-- Settles O31: a chunk short of the byte's end is the whole value, and one that fills the byte is not shifted left. -/
theorem chunkPlacementTwoCases : Obligations.ChunkPlacementTwoCases := by
  intro cur v pos rem hpos hrem hrem64 hv
  refine ⟨fun hshort => ⟨?short, by omega⟩, fun hfills => ?fills⟩
  case short =>
    rw [Nat.min_eq_left hshort.le, topBits_of_lt hv le_rfl hrem64, Nat.sub_self, BitVec.ushiftRight_zero, placeChunk]
  case fills =>
    rw [Nat.min_eq_right hfills, topBits_of_lt hv hfills hrem64, placeChunk, Nat.sub_self, BitVec.shiftLeft_zero]

/-! ### Writing a field (R152, R155, R156) -/

/-- What a write of `n` bits to an OPEN Writer leaves. -/
theorem writeBits_and_mask {w : Writer} (hinv : w.Inv) (ho : w.life = .opened) (v : Word) (n : Nat) :
    (writeBits (v &&& mask n) n w).written = w.written ++ fieldBits n v ∧ (writeBits (v &&& mask n) n w).pos ≤ 7 ∧
      (writeBits (v &&& mask n) n w).life = .opened ∧
      (∃ l, (writeBits (v &&& mask n) n w).emittedBytes = w.emittedBytes ++ l ∧
        (writeBits (v &&& mask n) n w).emitted = w.emitted + l.length) ∧
      (n = 0 → writeBits (v &&& mask n) n w = w) := by
  have hready := hinv.ready ho
  obtain ⟨hready', hwritten, l, gave⟩ := writeBits_cases (v &&& mask n) n w hready
  refine ⟨by rw [hwritten, fieldBits_and_mask], hready'.pos, gave.life.trans ho,
    ⟨l, gave.emittedBytes hready.sink, gave.emitted⟩, ?_⟩
  rintro rfl
  rfl

/-- Settles O28: W.WRITE is W.WRITEOFF at offset 0, and the field is what `WriteBits` appends. -/
theorem writeAppendsField : Obligations.WriteAppendsField := by
  intro s value n hinv
  rw [exec_wWrite]
  refine ⟨rfl, exec_wWriteOff_of_not_opened, fun ho hn => exec_wWriteOff_of_out_of_range ho (.inl hn), fun ho hn =>
    ⟨_, exec_wWriteOff_of_legal ho hn (by decide), ?_⟩⟩
  rw [BitVec.ushiftRight_zero]
  exact writeBits_and_mask hinv ho value n

/-- The bits a shifted value takes from above bit 63 are zeros (R156). -/
theorem fieldBits_ushiftRight_take (value : Word) {n off : Nat} (hoff : off ≤ 64) :
    (fieldBits n (value >>> off)).take (off + n - 64) = List.replicate (off + n - 64) false := by
  refine List.eq_replicate_iff.mpr ⟨by simp; omega, fun b hb => ?_⟩
  obtain ⟨k, hk, rfl⟩ := List.mem_iff_getElem.mp hb
  have hk' : k < off + n - 64 := by simp at hk; omega
  rw [List.getElem_take, fieldBits_getElem, BitVec.getLsbD_ushiftRight]
  exact BitVec.getLsbD_of_ge _ _ (by omega)

/-- Settles O29: the field is the low n bits of the shifted value. -/
theorem writeOffAppendsField : Obligations.WriteOffAppendsField := by
  intro s value n off hinv
  refine ⟨rfl, exec_wWriteOff_of_not_opened, exec_wWriteOff_of_out_of_range, fun ho hn hoff => ?_⟩
  obtain ⟨hwritten, hrest⟩ := writeBits_and_mask hinv ho (value >>> off) n
  refine ⟨_, fieldBits n (value >>> off), exec_wWriteOff_of_legal ho hn hoff, hwritten, fieldBits_length _ _, ?_,
    fieldBits_ushiftRight_take value hoff.le, hrest⟩
  rw [bitsValue_fieldBits, BitVec.toNat_ushiftRight, Nat.shiftRight_eq_div_pow]

/-! ### Closing (R158) -/

/-- The bytes W.CLOSE hands over: those emitted, then the partial byte, if there is one. -/
def Writer.closedSink (w : Writer) : List Byte := w.emittedBytes ++ if 0 < w.pos then [w.cur] else []

section Close
variable {w : Writer}

theorem Writer.closedSink_of_pos_eq_zero (h : w.pos = 0) : w.closedSink = w.emittedBytes := by
  simp [Writer.closedSink, h]

theorem Writer.closedSink_of_pos_pos (h : 0 < w.pos) : w.closedSink = w.emittedBytes ++ [w.cur] := by
  simp [Writer.closedSink, h]

theorem Writer.written_length (hp : w.pos ≤ 7) : w.written.length = 8 * w.emittedBytes.length + w.pos := by
  simp [Writer.written]
  omega

/-- A byte whose low bits are not placed yet ends in zeros (R37). -/
theorem byteBits_eq_take_append {b : Byte} {pos : Nat} (hp : pos ≤ 8) (hz : b &&& byteMask (8 - pos) = 0#8) :
    byteBits b = (byteBits b).take pos ++ List.replicate (8 - pos) false := by
  rw [and_byteMask_eq_zero] at hz
  have hlow : (byteBits b).drop pos = List.replicate (8 - pos) false := by
    refine List.eq_replicate_iff.mpr ⟨by simp, fun x hx => ?_⟩
    obtain ⟨k, hk, rfl⟩ := List.mem_iff_getElem.mp hx
    have hk' : k < 8 - pos := by simpa using hk
    rw [List.getElem_drop, byteBits_getElem]
    exact hz _ (by omega)
  rw [← hlow, List.take_append_drop]

theorem Writer.closedSink_length (hp : w.pos ≤ 7) : w.closedSink.length = (w.written.length + 7) / 8 := by
  rw [Writer.written_length hp]
  rcases Nat.eq_zero_or_pos w.pos with h | h
  · rw [Writer.closedSink_of_pos_eq_zero h]
    omega
  · rw [Writer.closedSink_of_pos_pos h, List.length_append, List.length_singleton]
    omega

/-- The bytes handed over are the bits written and zeros (R158, R161). -/
theorem Writer.bitsOf_closedSink (hinv : w.Inv) :
    bitsOf w.closedSink = w.written ++ List.replicate (8 * w.closedSink.length - w.written.length) false := by
  obtain ⟨hp, hz, _⟩ := hinv
  rw [Writer.written_length hp]
  rcases Nat.eq_zero_or_pos w.pos with h | h
  · simp [Writer.closedSink_of_pos_eq_zero h, Writer.written, h]
  · have hpad : 8 * (w.emittedBytes ++ [w.cur]).length - (8 * w.emittedBytes.length + w.pos) = 8 - w.pos := by
      rw [List.length_append, List.length_singleton]
      omega
    rw [Writer.closedSink_of_pos_pos h, hpad, Writer.written, List.append_assoc,
      ← byteBits_eq_take_append (by omega) hz]
    simp

theorem flushPartial_eq (hinv : w.Inv) (ho : w.life = .opened) :
    flushPartial w =
      { life := .opened, cur := 0#8, pos := 0, sink := some w.closedSink, emitted := w.closedSink.length } := by
  obtain ⟨_, _, hsink, hemitted⟩ := hinv
  obtain ⟨sink, hs⟩ := Option.isSome_iff_exists.mp (hsink.mp ho)
  have hbytes : w.emittedBytes = sink := by simp [Writer.emittedBytes, hs]
  unfold flushPartial
  rcases Nat.eq_zero_or_pos w.pos with h | h
  · simp [Writer.closedSink_of_pos_eq_zero h, h, ho, hs, hbytes, hemitted ho]
  · simp [Writer.closedSink_of_pos_pos h, h, sinkEmit, ho, hs, hbytes, hemitted ho]

theorem exec_wClose_of_opened {s : State} (hinv : s.w.Inv) (ho : s.w.life = .opened) :
    exec .wClose s = .next (((s.withWriter
      { life := .closed, cur := 0#8, pos := 0, sink := none, emitted := s.w.closedSink.length }).giveSink
        s.w.closedSink).respond (.delivered 0#64 0#64)) := by
  rw [exec, execWClose, if_pos ho, flushPartial_eq hinv ho]
  rfl

end Close

/-- Settles O32: by the lifecycle, and on an OPEN Writer by whether a partial byte waits. -/
theorem writerCloses : Obligations.WriterCloses := by
  intro s
  refine ⟨by decide, exec_wClose_of_not_opened, fun sink hinv ho hs => ?opened, fun hclosed value n off => ?closed⟩
  case opened =>
    have hbytes : s.w.emittedBytes = sink := by simp [Writer.emittedBytes, hs]
    exact ⟨_, exec_wClose_of_opened hinv ho, fun h => by rw [Writer.closedSink_of_pos_eq_zero h, hbytes],
      fun h => by rw [Writer.closedSink_of_pos_pos h, hbytes], Writer.bitsOf_closedSink hinv⟩
  case closed =>
    have hc : s.w.life ≠ .opened := by simp [hclosed]
    exact ⟨exec_wWrite s value n ▸ exec_wWriteOff_of_not_opened hc, exec_wWriteOff_of_not_opened hc⟩

end Sys2Proof.Machine
end

section
/-! Sequences of writes and of reads (spec 42_writer.md R161, R162): the written bit string grows by each field, W.CLOSE
pads it to bytes, and reads of the same widths take the fields off a source of those bytes. -/

namespace Sys2Proof.Machine

/-! ### Sequences of commands (R73) -/

theorem execSeq_cons_of_next {i : Instr} {rest : List Instr} {s t : State} (h : exec i s = .next t) :
    execSeq (i :: rest) s = execSeq rest t := by
  simp only [execSeq, h]

theorem execSeq_append_of_next {l l' : List Instr} {s t : State} (h : execSeq l s = .next t) :
    execSeq (l ++ l') s = execSeq l' t := by
  induction l generalizing s with
  | nil =>
    cases h
    rfl
  | cons i rest ih =>
    rw [List.cons_append]
    cases hi : exec i s with
    | next s1 =>
      rw [execSeq_cons_of_next hi] at h ⊢
      exact ih h
    | fault | refused => simp [execSeq, hi] at h

/-! ### The write law (R161) -/

/-- These bits were written to the OPEN Writer, and neither the Reader nor the ended sinks changed. -/
structure Wrote (s : State) (bits : List Bool) (t : State) : Prop where
  inv : t.w.Inv
  life : t.w.life = .opened
  written : t.w.written = s.w.written ++ bits
  reader : t.r = s.r
  sinks : t.host.sinks = s.host.sinks

theorem Wrote.refl {s : State} (hinv : s.w.Inv) (ho : s.w.life = .opened) : Wrote s [] s :=
  ⟨hinv, ho, (List.append_nil _).symm, rfl, rfl⟩

theorem Wrote.trans {s t u : State} {bits bits' : List Bool} (h : Wrote s bits t) (h' : Wrote t bits' u) :
    Wrote s (bits ++ bits') u where
  inv := h'.inv
  life := h'.life
  written := by rw [h'.written, h.written, List.append_assoc]
  reader := h'.reader.trans h.reader
  sinks := h'.sinks.trans h.sinks

theorem exec_wWriteOff_wrote {s : State} (hinv : s.w.Inv) (ho : s.w.life = .opened) (value : Word) {n off : Nat}
    (hn : n ≤ 64) (hoff : off < 64) :
    ∃ t, exec (.wWriteOff value n off) s = .next t ∧ Wrote s (fieldBits n (value >>> off)) t := by
  obtain ⟨hwritten, _, hlife, _⟩ := writeBits_and_mask hinv ho (value >>> off) n
  exact ⟨_, exec_wWriteOff_of_legal ho hn hoff, writeBits_inv _ _ hinv ho, hlife, hwritten, rfl, rfl⟩

theorem exec_legalWrite {s : State} (hinv : s.w.Inv) (ho : s.w.life = .opened) {i : Instr}
    (hi : i.isLegalWrite = true) : ∃ t, exec i s = .next t ∧ Wrote s i.writtenBits t := by
  cases i with
  | wWrite value n =>
    have h := exec_wWriteOff_wrote hinv ho value (of_decide_eq_true hi) (Nat.zero_lt_succ 63)
    rwa [← exec_wWrite, BitVec.ushiftRight_zero] at h
  | wWriteOff value n off =>
    obtain ⟨hn, hoff⟩ : n ≤ 64 ∧ off < 64 := by simpa [Instr.isLegalWrite] using hi
    exact exec_wWriteOff_wrote hinv ho value hn hoff
  | bbCountUsed | bbPush | bbPop | rOpen | rRead | rTryRead | rPeek | rTryPeek | rClose | wOpen | wClose | pInit
  | pInsert | pFlushByte => cases hi

theorem execSeq_legalWrites {s : State} (hinv : s.w.Inv) (ho : s.w.life = .opened) {writes : List Instr}
    (hlegal : ∀ i ∈ writes, i.isLegalWrite = true) :
    ∃ t, execSeq writes s = .next t ∧ Wrote s (writes.flatMap Instr.writtenBits) t := by
  induction writes generalizing s with
  | nil => exact ⟨s, rfl, .refl hinv ho⟩
  | cons i rest ih =>
    obtain ⟨hi, hrest⟩ := List.forall_mem_cons.mp hlegal
    obtain ⟨s1, hexec, wrote⟩ := exec_legalWrite hinv ho hi
    obtain ⟨t, hseq, wrote'⟩ := ih wrote.inv wrote.life hrest
    exact ⟨t, by rw [execSeq_cons_of_next hexec, hseq], wrote.trans wrote'⟩

/-- A session of legal writes: the bits written since W.OPEN, which starts with none. -/
theorem execSeq_wOpen_legalWrites {s : State} (hc : s.w.life ≠ .opened) (hs : s.env.sink = true) {writes : List Instr}
    (hlegal : ∀ i ∈ writes, i.isLegalWrite = true) :
    ∃ t, execSeq (.wOpen :: writes) s = .next t ∧ t.w.Inv ∧ t.w.life = .opened ∧
      t.w.written = writes.flatMap Instr.writtenBits ∧ t.r = s.r ∧ t.host.sinks = s.host.sinks := by
  have hnew : (Writer.mk .opened 0#8 0 (some []) 0).Inv := by decide
  obtain ⟨t, hseq, inv, life, written, reader, sinks⟩ :=
    execSeq_legalWrites (s := (s.withWriter _).respond (.delivered 0#64 0#64)) hnew rfl hlegal
  exact ⟨t, by rw [execSeq_cons_of_next (exec_wOpen_of_attached hc hs), hseq], inv, life, written, reader, sinks⟩

/-- The emitted bytes are the whole bytes of the bits written, and the rest wait (R38). -/
theorem Writer.written_split {w : Writer} (hp : w.pos ≤ 7) :
    bitsOf w.emittedBytes = w.written.take (8 * (w.written.length / 8)) ∧ w.pos = w.written.length % 8 := by
  have hlen := Writer.written_length hp
  have hfull : 8 * (w.written.length / 8) = (bitsOf w.emittedBytes).length := by rw [bitsOf_length]; omega
  refine ⟨?_, by omega⟩
  rw [hfull, Writer.written, List.take_left]

/-- Settles O34: the Writer holds the fields' bits after the writes, and W.CLOSE pads them to bytes. -/
theorem writeLaw : Obligations.WriteLaw := by
  intro s writes hc hs hlegal
  obtain ⟨t, hseq, hinv, ho, hwritten, _, hsinks⟩ := execSeq_wOpen_legalWrites hc hs hlegal
  refine ⟨t, _, hseq, exec_wClose_of_opened hinv ho, ?_⟩
  obtain ⟨hbytes, hpos⟩ := Writer.written_split hinv.1
  have hlen := Writer.closedSink_length hinv.1
  have hbits := Writer.bitsOf_closedSink hinv
  rw [hwritten] at hbytes hpos hlen hbits
  rw [hlen] at hbits
  exact ⟨hbytes, hpos, t.w.closedSink, by simp [hsinks], hlen, hbits⟩

/-! ### The round trip (R162) -/

theorem ofNat_bitsValue_fieldBits {n : Nat} {v : Word} (hv : v.toNat < 2 ^ n) :
    BitVec.ofNat 64 (bitsValue (fieldBits n v)) = v := by
  rw [bitsValue_fieldBits, Nat.mod_eq_of_lt hv, BitVec.ofNat_toNat, BitVec.setWidth_eq]

/-- A read of as many bits as the field before the Reader has delivers the field and leaves the rest (R129). -/
theorem exec_rRead_of_fieldBits {s : State} {n : Nat} {v : Word} {rest : List Bool} (hinv : s.r.Inv)
    (ho : s.r.life = .opened) (hn : n ≤ 64) (hv : v.toNat < 2 ^ n) (hrem : s.r.remaining = fieldBits n v ++ rest) :
    ∃ r' : Reader, exec (.rRead n) s = .next ((s.withReader r').respond (.delivered v 0#64)) ∧ r'.Inv ∧
      r'.life = .opened ∧ r'.remaining = rest := by
  obtain ⟨_, hfound, _⟩ := readCore_cases n s.r hinv.1
  obtain ⟨hfield, hrest, _⟩ := hfound (by simp [hrem])
  rw [hrem, List.take_left' (fieldBits_length n v), ofNat_bitsValue_fieldBits hv] at hfield
  rw [hrem, List.drop_left' (fieldBits_length n v)] at hrest
  exact ⟨_, exec_read_of_field ho hn hfield (.inl rfl), readCore_inv n s.r hinv, (readCore_life n s.r).trans ho,
    hrest⟩

theorem execSeq_reads {s : State} {pairs : List (Word × Nat)} {rest : List Bool} (hinv : s.r.Inv)
    (ho : s.r.life = .opened) (hpairs : ∀ p ∈ pairs, p.2 ≤ 64 ∧ p.1.toNat < 2 ^ p.2)
    (hrem : s.r.remaining = pairs.flatMap (fun p => fieldBits p.2 p.1) ++ rest) :
    ∃ u, execSeq (pairs.map (fun p => .rRead p.2)) s = .next u ∧
      u.host.responses = s.host.responses ++ pairs.map (fun p => Response.delivered p.1 0#64) ∧
      u.r.remaining = rest := by
  induction pairs generalizing s with
  | nil => exact ⟨s, rfl, by simp, by simpa using hrem⟩
  | cons p pairs ih =>
    obtain ⟨⟨hn, hv⟩, hpairs⟩ := List.forall_mem_cons.mp hpairs
    rw [List.flatMap_cons, List.append_assoc] at hrem
    obtain ⟨r', hexec, hinv', ho', hrem'⟩ := exec_rRead_of_fieldBits hinv ho hn hv hrem
    obtain ⟨u, hseq, hresp, hrest⟩ := ih (s := (s.withReader r').respond _) hinv' ho' hpairs hrem'
    refine ⟨u, by rw [List.map_cons, execSeq_cons_of_next hexec, hseq], ?_, hrest⟩
    simp [hresp]

/-- Bytes that begin with the fields' bits, attached as a new source, are read back by the fields' widths (R79, R129). -/
theorem execSeq_rOpen_reads {t : State} {src : ByteSource} {pairs : List (Word × Nat)} {rest : List Bool}
    (hc : t.r.life ≠ .opened) (hpairs : ∀ p ∈ pairs, p.2 ≤ 64 ∧ p.1.toNat < 2 ^ p.2)
    (hbits : bitsOf src.bytes = pairs.flatMap (fun p => fieldBits p.2 p.1) ++ rest) :
    ∃ t' u : State, hostAct (.attachSource src) t = .next t' ∧
      execSeq (.rOpen :: pairs.map (fun p => .rRead p.2)) t' = .next u ∧
      u.host.responses = t.host.responses ++
        (.delivered 0#64 0#64 :: pairs.map (fun p => Response.delivered p.1 0#64)) ∧
      u.r.remaining = rest := by
  obtain ⟨hr, _, _, _, _, hresponses, _⟩ := displaceSource_spec t
  have hopen : exec .rOpen ((displaceSource t).withSrcPort (.attached src)) = _ :=
    exec_rOpen_of_offered (src := src) (by simpa [hr] using hc) rfl
  obtain ⟨u, hreads, hresp, hrest⟩ := execSeq_reads
    (s := ((State.withReader _ (.mk .opened 0#8 8 (some src) 0)).withSrcPort .lent).respond (.delivered 0#64 0#64))
    ⟨le_rfl, by simp⟩ rfl hpairs hbits
  exact ⟨_, u, hostAct_attachSource t src, by rw [execSeq_cons_of_next hopen, hreads],
    by simp [hresp, hresponses], hrest⟩

theorem map_wWrite_legal {pairs : List (Word × Nat)} (hpairs : ∀ p ∈ pairs, p.2 ≤ 64 ∧ p.1.toNat < 2 ^ p.2) :
    ∀ i ∈ pairs.map (fun p => Instr.wWrite p.1 p.2), i.isLegalWrite = true :=
  List.forall_mem_map.mpr fun p hp => decide_eq_true (hpairs p hp).1

/-- Settles O35: the source holds the fields' bits, then fewer than 8 zeros, and the reads take the fields. -/
theorem writeReadRoundTrip : Obligations.WriteReadRoundTrip := by
  intro s pairs hwc hs hrc hpairs
  obtain ⟨t, hseq, hinv, ho, hwritten, hreader, hsinks⟩ :=
    execSeq_wOpen_legalWrites hwc hs (map_wWrite_legal hpairs)
  have hlen := Writer.closedSink_length hinv.1
  have hbits := Writer.bitsOf_closedSink hinv
  have hfields : t.w.written = pairs.flatMap (fun p => fieldBits p.2 p.1) := by rw [hwritten, List.flatMap_map]; rfl
  obtain ⟨v, hclose, hvr, hvsinks⟩ : ∃ v, exec .wClose t = .next v ∧ v.r = t.r ∧
      v.host.sinks = t.host.sinks ++ [t.w.closedSink] := ⟨_, exec_wClose_of_opened hinv ho, rfl, rfl⟩
  refine ⟨v, t.w.closedSink, (execSeq_append_of_next hseq).trans (execSeq_cons_of_next hclose), hsinks ▸ hvsinks,
    fun grows => ?_⟩
  obtain ⟨t', u, hattach, hreads, hresp, hrest⟩ := execSeq_rOpen_reads
    (src := { bytes := t.w.closedSink, grows := grows }) (hvr.trans hreader ▸ hrc) hpairs (hfields ▸ hbits)
  refine ⟨t', u, hattach, hreads, hresp, ?_, fun b hb => List.eq_of_mem_replicate (hrest ▸ hb)⟩
  rw [hrest, List.length_replicate, ← hfields]
  omega

end Sys2Proof.Machine
end

section
/-! The push reader's commands (spec 43_push_reader.md R180 to R186): what each answers, by the lifecycle, the arguments
and the seed answer, and how an insertion ends by the way its decoder stopped. -/

namespace Sys2Proof.Machine

/-! ### How an insertion ends (R184) -/

/-- The decoder stopped in the way that ends the session with this code (R186). -/
abbrev FailsWith (o : StepOut (Option Consumer)) (e : Status) : Prop :=
  o.stop = some .overflow ∧ e = .overflow ∨ o.stop = some .badWidth ∧ e = .invalidArgument

section Ends
variable {o : StepOut (Option Consumer)} {s : State}

theorem endInsert_of_ok (h : o.stop = none) :
    endInsert o s = .next ((s.withPush (s.p.withDecoder o.dec)).respond (.delivered 0#64 0#64)) := by
  simp only [endInsert, h, finish]

theorem endInsert_of_fails {e : Status} (h : FailsWith o e) :
    endInsert o s =
      .next ((s.withPush { s.p.withDecoder o.dec with life := .failed, fail := e }).respond (.error e)) := by
  rcases h with ⟨h, rfl⟩ | ⟨h, rfl⟩ <;>
    simp only [endInsert, h, failSession, raise, State.withPush_p, State.withPush_withPush]

end Ends

/-! ### What the commands answer (R182 to R186) -/

section Commands
variable {s : State} {packed : Word} {n : Nat}

theorem exec_pInsert_of_idle (h : s.p.life = .idle) :
    exec (.pInsert packed n) s = .next (s.respond (.error .useAfterClose)) := by
  simp only [exec, execPInsert, h, raise]

theorem exec_pInsert_of_failed (h : s.p.life = .failed) :
    exec (.pInsert packed n) s = .next (s.respond (.error s.p.fail)) := by
  simp only [exec, execPInsert, h, raise]

theorem exec_pInsert_of_too_many (h : s.p.life = .live) (hn : 8 < n) :
    exec (.pInsert packed n) s = .next (s.respond (.error .invalidArgument)) := by
  simp only [exec, execPInsert, h, raise, Config.maxInsert_eq, if_pos hn]

theorem exec_pInsert_of_live (h : s.p.life = .live) (hn : n ≤ 8) :
    exec (.pInsert packed n) s = endInsert (insertOut s packed n) s := execPInsert_live h hn

theorem exec_pFlushByte_of_idle (h : s.p.life = .idle) :
    exec .pFlushByte s = .next (s.respond (.error .useAfterClose)) := by
  simp only [exec, execPFlushByte, h, raise]

theorem exec_pFlushByte_of_failed (h : s.p.life = .failed) :
    exec .pFlushByte s = .next (s.respond (.error s.p.fail)) := by
  simp only [exec, execPFlushByte, h, raise]

theorem exec_pFlushByte_of_live (h : s.p.life = .live) :
    exec .pFlushByte s =
      .next ((s.withPush { s.p with level := s.p.level - s.p.level % 8 }).respond (.delivered 0#64 0#64)) := by
  simp only [exec, execPFlushByte, h, finish]

theorem exec_pInit_of_not_offered (h : s.env.cons.offered s.p.cons = none) :
    exec .pInit s = .next (s.respond (.error .invalidArgument)) := by
  simp only [exec, execPInit, h, raise]

theorem exec_pInit_of_detached (h : s.env.cons = .detached) :
    exec .pInit s = .next (s.respond (.error .invalidArgument)) := exec_pInit_of_not_offered (by rw [h]; rfl)

variable {c c' : Consumer} {w : Byte}

theorem exec_pInit_of_seed (hb : s.env.cons.offered s.p.cons = some c) (ha : c.ask 0#64 = .width c' w)
    (hw : 1 ≤ w.toNat ∧ w.toNat ≤ 64) :
    exec .pInit s = .next (((bindConsumer c s).withPush
      { life := .live, fail := .ok, acc := 0#64, level := 0, want := w.toNat, cons := some c', inserted := 0 }).respond
        (.delivered 0#64 0#64)) := by
  simp only [exec, execPInit, hb, ha, (validWidth_iff w).mpr hw, if_true, finish]

theorem exec_pInit_of_bad_seed (hb : s.env.cons.offered s.p.cons = some c) (ha : c.ask 0#64 = .width c' w)
    (hw : ¬ (1 ≤ w.toNat ∧ w.toNat ≤ 64)) :
    exec .pInit s = .next (((bindConsumer c s).withPush
      { s.p with life := .idle, acc := 0#64, level := 0, cons := some c', inserted := 0 }).respond
        (.error .invalidArgument)) := by
  obtain ⟨hp, _⟩ := bindConsumer_spec s hb
  have hv : validWidth w = false := Bool.eq_false_of_not_eq_true (mt (validWidth_iff w).mp hw)
  simp only [exec, execPInit, hb, ha, hv, hp, Bool.false_eq_true, if_false, raise]

end Commands

/-! ### Sessions begin (R182) -/

/-- A consumer bound before goes to the host's list exactly when another was attached since (log entries 2 and 18). -/
theorem bindConsumer_consumers (c : Consumer) (s : State) :
    (s.env.cons = .lent → (bindConsumer c s).host.consumers = s.host.consumers) ∧
      ∀ a, s.env.cons = .attached a →
        (bindConsumer c s).host.consumers = s.host.consumers ++ s.p.cons.toList := by
  refine ⟨fun h => by simp [bindConsumer, h], fun a h => ?_⟩
  rcases hc : s.p.cons with _ | bound <;> simp [bindConsumer, releaseConsumer, h, hc]

/-- What P.INIT leaves of the rest of the state, on the consumer offered: only the port and the host's list of released
consumers change. -/
theorem bindConsumer_frame {c : Consumer} {s : State} (h : s.env.cons.offered s.p.cons = some c) :
    (bindConsumer c s).r = s.r ∧ (bindConsumer c s).w = s.w ∧ (bindConsumer c s).env = { s.env with cons := .lent } ∧
      (bindConsumer c s).host.inbox = s.host.inbox ∧ (bindConsumer c s).host.sinks = s.host.sinks ∧
      (bindConsumer c s).host.sources = s.host.sources ∧
      (s.env.cons = .lent → (bindConsumer c s).host.consumers = s.host.consumers) ∧
      (∀ a, s.env.cons = .attached a →
        (bindConsumer c s).host.consumers = s.host.consumers ++ s.p.cons.toList) := by
  obtain ⟨_, hr, hw, hcons, hsrc, hsink, hinbox, _, hsinks, hsources⟩ := bindConsumer_spec s h
  obtain ⟨hlent, hattached⟩ := bindConsumer_consumers c s
  have henv : (bindConsumer c s).env = ⟨s.env.src, s.env.sink, .lent⟩ := by rw [← hcons, ← hsrc, ← hsink]
  exact ⟨hr, hw, henv, hinbox, hsinks, hsources, hlent, hattached⟩

/-- Settles O36: binding frames the rest of the state, and the seed answer decides the session. -/
theorem initSeedsSession : Obligations.InitSeedsSession := by
  refine fun s => ⟨by decide, exec_pInit_of_detached, fun c c' w hb ha => ?_⟩
  obtain ⟨_, _, _, _, _, _, _, hresp, _⟩ := bindConsumer_spec s hb
  obtain ⟨hr, hw, henv, hinbox, hsinks, hsources, hlent, hattached⟩ := bindConsumer_frame hb
  by_cases hv : 1 ≤ w.toNat ∧ w.toNat ≤ 64
  · exact ⟨_, exec_pInit_of_seed hb ha hv, hr, hw, henv, hinbox, hsinks, hsources, hlent, hattached,
      fun _ => ⟨rfl, by simp [hresp]⟩, fun hbad => by omega⟩
  · exact ⟨_, exec_pInit_of_bad_seed hb ha hv, hr, hw, henv, hinbox, hsinks, hsources, hlent, hattached,
      fun hgood => absurd hgood hv, fun _ => ⟨rfl, by simp [hresp]⟩⟩

/-! ### Rejections and failed sessions (R184, R186) -/

/-- Settles O38: by the lifecycle, and on a LIVE unit by the count. -/
theorem insertRejectsUnchanged : Obligations.InsertRejectsUnchanged := fun _ _ _ =>
  ⟨exec_pInsert_of_idle, exec_pInsert_of_failed, exec_pInsert_of_too_many⟩

/-- Settles O39: an insertion that answers an error has failed its session, and a FAILED unit answers its code. -/
theorem failedSessionStaysFailed : Obligations.FailedSessionStaysFailed := by
  refine ⟨fun s t packed n e hl hn h => ?_, fun s i hf hunit hinit => ?_⟩
  · rw [exec_pInsert_of_live hl hn] at h
    rcases endInsert_cases h with ⟨_, ht⟩ | ⟨e', he, ht⟩
    · obtain ⟨_, hresp⟩ := State.respond_inj ht
      cases congrArg Response.ok hresp
    · obtain ⟨rfl, hresp⟩ := State.respond_inj ht
      obtain rfl : e = e' := congrArg Response.st hresp
      exact ⟨rfl, rfl, he.imp And.right And.right⟩
  · cases i with
    | pInit => exact absurd rfl hinit
    | pInsert packed n => exact exec_pInsert_of_failed hf
    | pFlushByte => exact exec_pFlushByte_of_failed hf
    | bbCountUsed | bbPush | bbPop | rOpen | rRead | rTryRead | rPeek | rTryPeek | rClose | wOpen | wWrite | wWriteOff
    | wClose => simp [Instr.unit, Instr.opcode] at hunit

/-! ### Back to a byte boundary (R185) -/

/-- Lowering the level drops the oldest valid bits. -/
theorem fieldBits_sub {m level : Nat} (h : m ≤ level) (acc : Word) :
    fieldBits (level - m) acc = (fieldBits level acc).drop m := by
  obtain ⟨k, rfl⟩ := Nat.exists_eq_add_of_le h
  rw [Nat.add_sub_cancel_left, fieldBits_add, List.drop_left' (fieldBits_length _ _)]

/-- Settles O46: the level falls to the multiple of 8 below it, which drops the oldest bits. -/
theorem flushByteDropsToBoundary : Obligations.FlushByteDropsToBoundary := fun s =>
  ⟨by decide, exec_pFlushByte_of_idle, exec_pFlushByte_of_failed, fun hl =>
    ⟨_, exec_pFlushByte_of_live hl, rfl, by dsimp only; omega, fieldBits_sub (Nat.mod_le _ _) s.p.acc⟩⟩

end Sys2Proof.Machine
end

section
/-! The push decoder over any consumer (spec 43_push_reader.md R183, R184, R188, R189, R191): an insertion folds in its
bytes up to the one that stops it and delivers the oldest bits, which bounds the level and the number of invocations;
what an overflow and an out-of-range answer leave; and the widths under which no byte overflows. -/

namespace Sys2Proof.Machine

section Decoders
variable {σ : Type} {c : σ → Word → Answer σ} {d : Decoder σ}

/-! ### A sequence of bytes, by its first (R184) -/

theorem pSteps_cons_of_ok {b : Byte} (h : (pStep c d b).stop = none) (rest : List Byte) :
    pSteps c d (b :: rest) =
      { pSteps c (pStep c d b).dec rest with
        fields := (pStep c d b).fields ++ (pSteps c (pStep c d b).dec rest).fields,
        widths := (pStep c d b).widths ++ (pSteps c (pStep c d b).dec rest).widths } := by
  simp only [pSteps_cons, h]

theorem pSteps_cons_of_stop {b : Byte} {stop : Stop} (h : (pStep c d b).stop = some stop) (rest : List Byte) :
    pSteps c d (b :: rest) = pStep c d b := by
  simp only [pSteps_cons, h]

/-! ### Bits delivered and bits held (R191) -/

theorem deliveredBits_length {ws : List Nat} {fs : List Word} (h : ws.length = fs.length) :
    (deliveredBits ws fs).length = ws.sum := by
  induction ws generalizing fs with
  | nil =>
    obtain rfl := List.eq_nil_of_length_eq_zero h.symm
    rfl
  | cons w ws ih =>
    cases fs with
    | nil => cases h
    | cons f fs => simp [ih (Nat.succ.inj h)]

/-- These bits came off an accumulator: the delivered fields, each of a legal width and below `2^width`, and then the
bits held. -/
structure Delivers (bits : List Bool) (o : StepOut σ) : Prop where
  conserved : bits = deliveredBits o.widths o.fields ++ o.dec.held
  sameLength : o.widths.length = o.fields.length
  positive : ∀ w ∈ o.widths, 1 ≤ w
  below : ∀ wf ∈ List.zip o.widths o.fields, wf.2.toNat < 2 ^ wf.1

theorem Delivers.none (d : Decoder σ) (stop : Option Stop) : Delivers d.held ⟨d, [], [], stop⟩ :=
  ⟨rfl, rfl, by simp, by simp⟩

theorem Extracted.delivers {bits : List Bool} {o : StepOut σ} (h : Extracted bits d o) : Delivers bits o :=
  ⟨h.conserved, h.sameLength, fun w hw => (h.legal w hw).1, h.below⟩

/-- A run, and then another on what it holds and further bits. -/
theorem Delivers.after {bits more : List Bool} {o o' : StepOut σ} (h : Delivers bits o)
    (h' : Delivers (o.dec.held ++ more) o') :
    Delivers (bits ++ more) { o' with fields := o.fields ++ o'.fields, widths := o.widths ++ o'.widths } where
  conserved := by
    rw [h.conserved, List.append_assoc, h'.conserved, deliveredBits_append h.sameLength, List.append_assoc]
  sameLength := by simp [h.sameLength, h'.sameLength]
  positive := List.forall_mem_append.mpr ⟨h.positive, h'.positive⟩
  below := by
    rw [List.zip_append h.sameLength]
    exact List.forall_mem_append.mpr ⟨h.below, h'.below⟩

theorem Delivers.length {bits : List Bool} {o : StepOut σ} (h : Delivers bits o) :
    bits.length = o.widths.sum + o.dec.level := by
  rw [h.conserved, List.length_append, deliveredBits_length h.sameLength, Decoder.held_length]

/-- Every invocation takes a bit at least (R189). -/
theorem Delivers.fields_length {bits : List Bool} {o : StepOut σ} (h : Delivers bits o) :
    o.fields.length + o.dec.level ≤ bits.length := by
  have hsum := List.length_le_sum_of_one_le o.widths h.positive
  have hlen := h.length
  have hsame := h.sameLength
  omega

/-- What a sequence of bytes leaves of which the leading ones `done` were folded in: all of them where it ends OK. -/
structure Folded (c : σ → Word → Answer σ) (d : Decoder σ) (bytes done : List Byte) : Prop where
  isPrefix : done <+: bytes
  whole : (pSteps c d bytes).stop = none → done = bytes
  inserted : (pSteps c d bytes).dec.inserted = d.inserted + done.length
  acc : (pSteps c d bytes).dec.acc = done.foldl (fun (acc : Word) b => (acc <<< 8) ||| zext64 b) d.acc
  delivers : Delivers (d.held ++ bitsOf done) (pSteps c d bytes)

/-- An insertion folds in some leading bytes of those it is given (R184). -/
theorem pSteps_folded (c : σ → Word → Answer σ) (d : Decoder σ) (bytes : List Byte) (hw : 1 ≤ d.want ∧ d.want ≤ 64) :
    ∃ done, Folded c d bytes done := by
  induction bytes generalizing d with
  | nil => exact ⟨[], List.nil_prefix, fun _ => rfl, rfl, rfl, by simpa using Delivers.none d none⟩
  | cons b rest ih =>
    rcases pStep_cases c d b hw with ⟨_, hp⟩ | ⟨_, he, _, hacc, _, hins, _⟩
    · have hrun : pSteps c d (b :: rest) = ⟨d, [], [], some .overflow⟩ := by rw [pSteps_cons, hp]
      refine ⟨[], List.nil_prefix, ?_, ?_, ?_, ?_⟩ <;> simp [hrun, Delivers.none]
    · rcases hs : (pStep c d b).stop with _ | stop
      · obtain ⟨done, h⟩ := ih (pStep c d b).dec he.want
        refine ⟨b :: done, List.cons_prefix_cons.mpr ⟨rfl, h.isPrefix⟩, ?_, ?_, ?_, ?_⟩ <;>
          rw [pSteps_cons_of_ok hs rest]
        · exact fun hok => by rw [h.whole hok]
        · rw [h.inserted, hins, List.length_cons]
          omega
        · rw [h.acc, hacc, List.foldl_cons]
        · rw [bitsOf_cons, ← List.append_assoc]
          exact he.delivers.after h.delivers
      · refine ⟨[b], List.cons_prefix_cons.mpr ⟨rfl, List.nil_prefix⟩, ?_, ?_, ?_, ?_⟩ <;>
          rw [pSteps_cons_of_stop hs rest]
        · exact fun hok => by simp [hs] at hok
        · exact hins
        · exact hacc
        · simpa using he.delivers

/-- Settles O44: the bytes folded in lead the given ones, and the widths end as the extraction loop does. -/
theorem deliveredBitsConserved : Obligations.DeliveredBitsConserved := by
  intro σ c d bytes hw _
  obtain ⟨done, h⟩ := pSteps_folded c d bytes hw
  obtain ⟨hanswered, hlast⟩ := pSteps_ended c d bytes hw
  refine ⟨h.delivers.sameLength, h.delivers.below, ?_, fun hok => h.whole hok ▸ h.inserted, hanswered, hlast⟩
  rw [h.inserted, Nat.add_sub_cancel_left, ← List.prefix_iff_eq_take.mp h.isPrefix]
  exact h.delivers.conserved

/-! ### Bounds (R189) -/

theorem pStep_invocations (c : σ → Word → Answer σ) (d : Decoder σ) (b : Byte) (hw : 1 ≤ d.want ∧ d.want ≤ 64) :
    (pStep c d b).fields.length + (pStep c d b).dec.level ≤ d.level + 8 ∧ (pStep c d b).fields.length ≤ 64 := by
  rcases pStep_cases c d b hw with ⟨_, hp⟩ | ⟨_, he, _⟩
  · simp [hp]
  · have hlen := he.delivers.fields_length
    simp only [List.length_append, Decoder.held_length, byteBits_length] at hlen
    omega

/-- The level and the invocations of an insertion, by the bytes folded in. -/
theorem pSteps_invocations (c : σ → Word → Answer σ) (d : Decoder σ) (bytes : List Byte)
    (hw : 1 ≤ d.want ∧ d.want ≤ 64) :
    (pSteps c d bytes).fields.length + (pSteps c d bytes).dec.level ≤ d.level + 8 * bytes.length := by
  obtain ⟨done, h⟩ := pSteps_folded c d bytes hw
  have hlen := h.delivers.fields_length
  have hle := h.isPrefix.length_le
  simp only [List.length_append, Decoder.held_length, bitsOf_length] at hlen
  omega

/-- Settles O45: every delivered field is at least one of the bits held and inserted. -/
theorem invocationBounds : Obligations.InvocationBounds := by
  refine fun σ c d hw hl => ⟨fun b => pStep_invocations c d b hw, fun bytes => ?_⟩
  have h := pSteps_invocations c d bytes hw
  omega

/-! ### What a failing insertion leaves (R184, R239) -/

theorem pStep_overflow_iff (c : σ → Word → Answer σ) (d : Decoder σ) (b : Byte) (hw : 1 ≤ d.want ∧ d.want ≤ 64) :
    (pStep c d b).stop = some .overflow ↔ 57 ≤ d.level := by
  rcases pStep_cases c d b hw with ⟨h57, hp⟩ | ⟨h56, _, hs, _⟩
  · simp [hp, h57]
  · exact iff_of_false hs (by omega)

/-- On Overflow an insertion has done exactly what the bytes before the failing one do. -/
theorem pSteps_overflow (hw : 1 ≤ d.want ∧ d.want ≤ 64) {bytes : List Byte}
    (h : (pSteps c d bytes).stop = some .overflow) :
    ∃ done b rest, bytes = done ++ b :: rest ∧ (pSteps c d done).stop = none ∧ 57 ≤ (pSteps c d done).dec.level ∧
      pSteps c d bytes = { pSteps c d done with stop := some .overflow } := by
  induction bytes generalizing d with
  | nil => cases h
  | cons b rest ih =>
    rcases pStep_cases c d b hw with ⟨h57, hp⟩ | ⟨_, he, hs, _⟩
    · exact ⟨[], b, rest, rfl, rfl, h57, by rw [pSteps_cons, hp]; rfl⟩
    · rcases hok : (pStep c d b).stop with _ | stop
      · rw [pSteps_cons_of_ok hok] at h
        obtain ⟨done, b', rest', rfl, hdone, hlevel, hrun⟩ := ih he.want h
        refine ⟨b :: done, b', rest', rfl, ?_, ?_, ?_⟩
        all_goals simp only [pSteps_cons_of_ok hok, hdone, hlevel, hrun]
      · rw [pSteps_cons_of_stop hok] at h
        exact absurd h hs

/-- The run ended on an answer outside 1..64 to its last field, which is delivered and whose bits are off the level,
with the width wanted as before. -/
def EndsOnBadAnswer (c : σ → Word → Answer σ) (o : StepOut σ) : Prop :=
  ∃ (before : Decoder σ) (q : σ) (w : Byte), before.want ≤ before.level ∧ (w.toNat = 0 ∨ 64 < w.toNat) ∧
    c before.cons (topField before.acc before.level before.want) = .width q w ∧
    o.dec = { before with level := before.level - before.want, cons := q } ∧
    o.fields.getLast? = some (topField before.acc before.level before.want)

theorem EndsOnBadAnswer.after {o : StepOut σ} (h : EndsOnBadAnswer c o) (fs : List Word) (ws : List Nat) :
    EndsOnBadAnswer c { o with fields := fs ++ o.fields, widths := ws } := by
  obtain ⟨before, q, w, hlevel, hw, hc, hdec, hlast⟩ := h
  exact ⟨before, q, w, hlevel, hw, hc, hdec, by simp [hlast]⟩

theorem drain_badWidth {fuel : Nat} (h : (drain c fuel d).stop = some .badWidth) :
    EndsOnBadAnswer c (drain c fuel d) := by
  induction fuel generalizing d with
  | zero => cases h
  | succ fuel ih =>
    unfold drain at h ⊢
    by_cases hlevel : d.want ≤ d.level
    · simp only [hlevel, if_true] at h ⊢
      rcases hc : c d.cons (topField d.acc d.level d.want) with ⟨q, w⟩ | _ | _ | _
      · by_cases hv : validWidth w
        · simp only [hc, hv, if_true] at h ⊢
          exact (ih h).after [_] _
        · have hw := mt (validWidth_iff w).mpr hv
          simp only [hv]
          exact ⟨d, q, w, hlevel, by omega, hc, rfl, rfl⟩
      all_goals simp [hc] at h
    · simp [hlevel] at h

theorem pStep_badWidth {b : Byte} (h : (pStep c d b).stop = some .badWidth) : EndsOnBadAnswer c (pStep c d b) := by
  unfold pStep at h ⊢
  split at h
  case isTrue => cases h
  case isFalse hroom => exact if_neg hroom ▸ drain_badWidth h

theorem pSteps_badWidth {bytes : List Byte} (h : (pSteps c d bytes).stop = some .badWidth) :
    EndsOnBadAnswer c (pSteps c d bytes) := by
  induction bytes generalizing d with
  | nil => cases h
  | cons b rest ih =>
    rcases hs : (pStep c d b).stop with _ | stop
    · rw [pSteps_cons_of_ok hs] at h ⊢
      exact (ih h).after _ _
    · rw [pSteps_cons_of_stop hs] at h ⊢
      exact pStep_badWidth h

/-- Settles O40: by induction on the bytes, up to the failing one. -/
theorem failingInsertionEffect : Obligations.FailingInsertionEffect := fun _ _ _ _ hw _ =>
  ⟨pSteps_overflow hw, pSteps_badWidth⟩

/-! ### Widths under which no byte overflows (R188) -/

/-- Induction along answered fields: from the last state and width back to the first. -/
theorem Answered.induction {motive : σ → Nat → List Nat → List Word → Prop} {q q' : σ} {want want' : Nat}
    {ws : List Nat} {fs : List Word} (h : Answered c q want ws fs q' want') (nil : motive q' want' [] [])
    (cons : ∀ q want f q1 (a : Byte) ws fs, f.toNat < 2 ^ want → c q f = .width q1 a → 1 ≤ a.toNat ∧ a.toNat ≤ 64 →
      motive q1 a.toNat ws fs → motive q want (want :: ws) (f :: fs)) : motive q want ws fs := by
  induction ws generalizing q want fs with
  | nil =>
    cases fs with
    | nil =>
      obtain ⟨rfl, rfl⟩ := h
      exact nil
    | cons => exact h.elim
  | cons w ws ih =>
    cases fs with
    | nil => exact h.elim
    | cons f fs =>
      obtain ⟨rfl, hlt, q1, a, ha, hv, hrest⟩ := h
      exact cons q w f q1 a ws fs hlt ha hv (ih hrest)

/-- What holds of the consumer's state and of every answered width, along fields answered so (R44). -/
theorem Answered.forall {I : σ → Prop} {W : Nat → Prop}
    (hc : ∀ q v q' w, I q → c q v = .width q' w → I q' ∧ W w.toNat) {q q' : σ} {want want' : Nat} {ws : List Nat}
    {fs : List Word} (h : Answered c q want ws fs q' want') (hq : I q) (hw : W want) :
    I q' ∧ W want' ∧ ∀ w ∈ ws, W w := by
  refine h.induction (motive := fun q want ws _ => I q → W want → I q' ∧ W want' ∧ ∀ w ∈ ws, W w) ?nil ?cons hq hw
  case nil => exact fun hq' hw' => ⟨hq', hw', by simp⟩
  case cons =>
    intro q want f q1 a ws fs _ ha _ ih hq hw
    obtain ⟨hq1, hwa⟩ := hc q f q1 a hq ha
    obtain ⟨hq', hw', hws⟩ := ih hq1 hwa
    exact ⟨hq', hw', List.forall_mem_cons.mpr ⟨hw, hws⟩⟩

/-- Levels in `L` and widths in `W` leave room for a byte, and extractions keep the level in `L`. -/
structure SafeWidths (W L : Nat → Prop) : Prop where
  room : ∀ {level want}, L level → W want → level < want → want ≤ 64 → level ≤ 56
  keeps : ∀ {level level' : Nat} {ws : List Nat}, L level → (∀ w ∈ ws, W w) → level + 8 = ws.sum + level' → L level'

theorem safeWidths_57 : SafeWidths (· ≤ 57) (fun _ => True) where
  room _ hw hl _ := by omega
  keeps _ _ _ := trivial

theorem safeWidths_8 : SafeWidths (· % 8 = 0) (· % 8 = 0) where
  room hl hw hlt h64 := by omega
  keeps hl hws hsum := by
    have hdvd := List.dvd_sum fun w hw => Nat.dvd_of_mod_eq_zero (hws w hw)
    omega

/-- While the answers stay within safe widths no byte overflows. -/
theorem SafeWidths.no_overflow {W L : Nat → Prop} (hsafe : SafeWidths W L) {I : σ → Prop}
    (hc : ∀ q v q' w, I q → c q v = .width q' w → I q' ∧ W w.toNat) (bytes : List Byte)
    (hwant : 1 ≤ d.want ∧ d.want ≤ 64) (hlt : d.level < d.want) (hq : I d.cons) (hw : W d.want) (hl : L d.level) :
    (pSteps c d bytes).stop ≠ some .overflow := by
  induction bytes generalizing d with
  | nil => exact nofun
  | cons b rest ih =>
    rcases pStep_cases c d b hwant with ⟨h57, _⟩ | ⟨_, he, hover, _⟩
    · have := hsafe.room hl hw hlt hwant.2
      omega
    · rcases hs : (pStep c d b).stop with _ | stop
      · rw [pSteps_cons_of_ok hs]
        obtain ⟨hq', hw', hws⟩ := ((pStep_ended c d b hwant).1 (.inl hs)).forall hc hq hw
        have hlen := he.delivers.length
        rw [List.length_append, Decoder.held_length, byteBits_length] at hlen
        exact ih he.want (he.done hs) hq' hw' (hsafe.keeps hl hws hlen)
      · rw [pSteps_cons_of_stop hs]
        exact hover

/-- Settles O41: the level alone decides, and legal widths of the two kinds keep it at 56 or less. -/
theorem overflowCondition : Obligations.OverflowCondition := by
  refine ⟨fun σ c d b hw => ⟨pStep_overflow_iff c d b hw, fun hlt h => ?_⟩, fun σ c d bytes hw => ⟨?_, ?_⟩,
    by decide⟩
  · have := (pStep_overflow_iff c d b hw).mp h
    omega
  · exact fun hc h57 => safeWidths_57.no_overflow (I := fun _ => True)
      (fun q v q' w _ h => ⟨trivial, hc q v q' w h⟩) bytes ⟨hw.1, by omega⟩ hw.2 trivial h57 trivial
  · exact fun hc h64 hwant hlevel => safeWidths_8.no_overflow (I := fun _ => True)
      (fun q v q' w _ h => ⟨trivial, hc q v q' w h⟩) bytes ⟨hw.1, h64⟩ hw.2 trivial hwant hlevel

end Decoders

end Sys2Proof.Machine
end

section
/-! Insertions on the bound consumer (spec 43_push_reader.md R181, R184, R187; 70_reset_and_hazards.md R271, R274): one
that answers ends every command, one that answers legal widths keeps the session alive, and how bytes are cut into
commands decides nothing (30_encoding.md R92). -/

namespace Sys2Proof.Machine

/-! ### A consumer that answers (R271) -/

/-- A consumer is bound, and answers every invocation with a width of which `P` holds. -/
def BoundAnswers (P : Byte → Prop) (q : Option Consumer) : Prop := ∃ c, q = some c ∧ c.Answers P

theorem BoundAnswers.ask {P : Byte → Prop} {q : Option Consumer} (h : BoundAnswers P q) (v : Word) :
    ∃ q' w, askBound q v = .width q' w ∧ BoundAnswers P q' ∧ P w := by
  obtain ⟨c, rfl, hc⟩ := h
  obtain ⟨c', w, ha, hw, hc'⟩ := hc.ask v
  exact ⟨some c', w, by rw [askBound_some, ha], ⟨c', rfl, hc'⟩, hw⟩

theorem BoundAnswers.of_width {P : Byte → Prop} (q : Option Consumer) (v : Word) (q' : Option Consumer) (w : Byte)
    (h : BoundAnswers P q) (ha : askBound q v = .width q' w) : BoundAnswers P q' ∧ P w := by
  obtain ⟨q1, w1, ha1, hq1, hw1⟩ := h.ask v
  cases ha1.symm.trans ha
  exact ⟨hq1, hw1⟩

/-- Where the consumer answers, an insertion can stop early only on Overflow or on an answer outside 1..64. -/
theorem pSteps_stop_of_answers {P : Byte → Prop} {d : Decoder (Option Consumer)} (hw : 1 ≤ d.want ∧ d.want ≤ 64)
    (hq : BoundAnswers P d.cons) (bytes : List Byte) :
    (pSteps askBound d bytes).stop = none ∨ (pSteps askBound d bytes).stop = some .overflow ∨
      (pSteps askBound d bytes).stop = some .badWidth ∧ ∃ w : Byte, P w ∧ (w.toNat = 0 ∨ 64 < w.toNat) := by
  rcases hs : (pSteps askBound d bytes).stop with _ | stop
  · exact .inl rfl
  by_cases hover : stop = .overflow
  · exact .inr (.inl (congrArg some hover))
  obtain ⟨_, _, f, q, _, _, hanswered, hbad, hsilent, hcommand, hreset⟩ :=
    (pSteps_ended askBound d bytes hw).2 stop hs hover
  obtain ⟨hq', _, _⟩ := hanswered.forall (W := fun _ => True)
    (fun q v q' w hI ha => ⟨(BoundAnswers.of_width q v q' w hI ha).1, trivial⟩) hq trivial
  obtain ⟨q', w, ha, _, hP⟩ := hq'.ask f
  cases stop with
  | overflow => exact absurd rfl hover
  | badWidth =>
    obtain ⟨w', ha', hout⟩ := hbad rfl
    cases ha.symm.trans ha'
    exact .inr (.inr ⟨rfl, w, hP, hout⟩)
  | silent => cases ha.symm.trans (hsilent rfl)
  | commandIssued => cases ha.symm.trans (hcommand rfl)
  | resetApplied => cases ha.symm.trans (hreset rfl)

/-! ### Every command ends (R274) -/

theorem Port.offered_forall {α : Type} {Q : α → Prop} {port : Port α} {bound : Option α} {a : α}
    (hbound : ∀ a, bound = some a → Q a) (hport : ∀ a, port = .attached a → Q a)
    (h : port.offered bound = some a) : Q a := by
  cases port with
  | detached => cases h
  | attached b => exact hport a (congrArg Port.attached (Option.some.inj h))
  | lent => exact hbound a h

section Answering
variable {s : State}

theorem exec_pInit_next_of_answers (hbound : ∀ c, s.p.cons = some c → c.AlwaysAnswers)
    (hport : ∀ c, s.env.cons = .attached c → c.AlwaysAnswers) : ∃ t, exec .pInit s = .next t := by
  rcases hb : s.env.cons.offered s.p.cons with _ | c
  · exact ⟨_, exec_pInit_of_not_offered hb⟩
  obtain ⟨c', w, ha, _⟩ := (Port.offered_forall hbound hport hb).ask 0#64
  by_cases hw : 1 ≤ w.toNat ∧ w.toNat ≤ 64
  · exact ⟨_, exec_pInit_of_seed hb ha hw⟩
  · exact ⟨_, exec_pInit_of_bad_seed hb ha hw⟩

theorem exec_pInsert_next_of_answers (hp : s.p.Inv) (hbound : ∀ c, s.p.cons = some c → c.AlwaysAnswers)
    (packed : Word) (n : Nat) : ∃ t, exec (.pInsert packed n) s = .next t := by
  rcases hl : s.p.life with _ | _ | _
  case idle => exact ⟨_, exec_pInsert_of_idle hl⟩
  case failed => exact ⟨_, exec_pInsert_of_failed hl⟩
  case live =>
    rcases Nat.lt_or_ge 8 n with hn | hn
    · exact ⟨_, exec_pInsert_of_too_many hl hn⟩
    obtain ⟨_, hwant, _, hsession, _⟩ := hp
    obtain ⟨c, hc⟩ := Option.isSome_iff_exists.mp (hsession (by simp [hl]))
    rw [exec_pInsert_of_live hl hn]
    rcases pSteps_stop_of_answers (d := s.p.decoder) hwant ⟨c, hc, hbound c hc⟩ (unpackBytes packed n)
      with hs | hs | ⟨hs, _⟩
    · exact ⟨_, endInsert_of_ok hs⟩
    · exact ⟨_, endInsert_of_fails (.inl ⟨hs, rfl⟩)⟩
    · exact ⟨_, endInsert_of_fails (.inr ⟨hs, rfl⟩)⟩

theorem exec_next_of_invokes {i : Instr} (hi : Invokes i) (hp : s.p.Inv)
    (hbound : ∀ c, s.p.cons = some c → c.AlwaysAnswers) (hport : ∀ c, s.env.cons = .attached c → c.AlwaysAnswers) :
    ∃ t, exec i s = .next t := by
  rcases hi with rfl | ⟨packed, n, rfl⟩
  · exact exec_pInit_next_of_answers hbound hport
  · exact exec_pInsert_next_of_answers hp hbound packed n

end Answering

/-- Settles O54: only P.INIT and P.INSERT can stop, and neither does while the consumer answers. -/
theorem commandsEndIfConsumerAnswers : Obligations.CommandsEndIfConsumerAnswers := by
  intro i s hp hbound hport
  by_cases hi : Invokes i
  · exact exec_next_of_invokes hi hp hbound hport
  · cases hres : exec i s with
    | next t => exact ⟨t, rfl⟩
    | fault f => exact absurd (exec_fault hres).2 hi
    | refused r => exact absurd (exec_refused hres).2 hi

/-! ### Insertions that complete (R184) -/

theorem askBound_width {c : Consumer} {v : Word} {q : Option Consumer} {w : Byte}
    (h : askBound (some c) v = .width q w) : ∃ c', q = some c' ∧ c.ask v = .width c' w := by
  rw [askBound_some] at h
  rcases ha : c.ask v with ⟨c', w'⟩ | _ | _ | _ <;> rw [ha] at h <;> cases h
  exact ⟨c', rfl, rfl⟩

/-- Fields that the bound consumer answers, the consumer itself answers (R181). -/
theorem Answered.of_askBound {c : Consumer} {want want' : Nat} {ws : List Nat} {fs : List Word} {q : Option Consumer}
    (h : Answered askBound (some c) want ws fs q want') :
    ∃ c', q = some c' ∧ Answered Consumer.ask c want ws fs c' want' := by
  refine h.induction (motive := fun q0 want ws fs => ∀ c, q0 = some c →
    ∃ c', q = some c' ∧ Answered Consumer.ask c want ws fs c' want') ?nil ?cons c rfl
  case nil => exact fun c hc => ⟨c, hc, rfl, rfl⟩
  case cons =>
    rintro _ want f q1 a ws fs hlt ha hv ih c rfl
    obtain ⟨c1, hq1, ha1⟩ := askBound_width ha
    obtain ⟨c', hc', hrest⟩ := ih c1 hq1
    exact ⟨c', hc', rfl, hlt, c1, a, ha1, hv, hrest⟩

/-- A consumer has received the fields it answered (R265). -/
theorem Answered.received {c c' : Consumer} {want want' : Nat} {ws : List Nat} {fs : List Word}
    (h : Answered Consumer.ask c want ws fs c' want') :
    c'.behaviour = c.behaviour ∧ c'.received = c.received ++ fs := by
  refine h.induction (motive := fun c _ _ fs => c'.behaviour = c.behaviour ∧ c'.received = c.received ++ fs) ?nil ?cons
  case nil => simp
  case cons =>
    rintro c want f c1 a ws fs _ ha _ ⟨hb, hr⟩
    obtain ⟨hb1, hr1⟩ := Consumer.ask_width ha
    exact ⟨hb.trans hb1, by rw [hr, hr1, List.append_assoc, List.singleton_append]⟩

/-- With a level of at most 56 before each byte no byte overflows. -/
theorem pSteps_no_overflow_of_levels {σ : Type} {c : σ → Word → Answer σ} {d : Decoder σ} {bytes : List Byte}
    (hw : 1 ≤ d.want ∧ d.want ≤ 64) (h : ∀ k < bytes.length, (pSteps c d (bytes.take k)).dec.level ≤ 56) :
    (pSteps c d bytes).stop ≠ some .overflow := by
  intro hover
  obtain ⟨done, b, rest, rfl, _, hlevel, _⟩ := pSteps_overflow hw hover
  have hroom := h done.length (by simp)
  rw [List.take_left] at hroom
  omega

/-- The four cases in which no byte of an insertion overflows (R188). -/
theorem pSteps_no_overflow {d : Decoder (Option Consumer)} {c : Consumer} {bytes : List Byte}
    (hw : 1 ≤ d.want ∧ d.want ≤ 64) (hlt : d.level < d.want) (hc : d.cons = some c)
    (h : d.level + 8 * bytes.length ≤ 64 ∨ d.want ≤ 57 ∧ c.Answers (fun w => w.toNat ≤ 57) ∨
      d.level % 8 = 0 ∧ d.want % 8 = 0 ∧ c.Answers (fun w => w.toNat % 8 = 0) ∨
      ∀ k, k < bytes.length → (pSteps askBound d (bytes.take k)).dec.level ≤ 56) :
    (pSteps askBound d bytes).stop ≠ some .overflow := by
  rcases h with hfit | ⟨hwant, hall⟩ | ⟨hlevel, hwant, hall⟩ | hlevels
  · refine pSteps_no_overflow_of_levels hw fun k hk => ?_
    have hle := pSteps_invocations askBound d (bytes.take k) hw
    rw [List.length_take] at hle
    omega
  · exact safeWidths_57.no_overflow BoundAnswers.of_width bytes hw hlt ⟨c, hc, hall⟩ hwant trivial
  · exact safeWidths_8.no_overflow BoundAnswers.of_width bytes hw hlt ⟨c, hc, hall⟩ hwant hlevel
  · exact pSteps_no_overflow_of_levels hw hlevels

/-- With no overflow and a consumer that answers legal widths an insertion ends OK (R271). -/
theorem pSteps_ok {d : Decoder (Option Consumer)} (hw : 1 ≤ d.want ∧ d.want ≤ 64) {c : Consumer}
    (hc : d.cons = some c) (halive : c.KeepsSessionAlive) {bytes : List Byte}
    (hover : (pSteps askBound d bytes).stop ≠ some .overflow) : (pSteps askBound d bytes).stop = none := by
  rcases pSteps_stop_of_answers hw ⟨c, hc, halive⟩ bytes with hs | hs | ⟨_, w, hgood, hbad⟩
  · exact hs
  · exact absurd hs hover
  · omega

/-- Settles O37: no byte overflows and every answer is legal, so that all bytes go in. -/
theorem insertCompletes : Obligations.InsertCompletes := by
  intro s packed n c hp hl hn hc halive hroom
  obtain ⟨_, hwant', _, hlt⟩ := insertOut_bounds hp hl packed n
  obtain ⟨_, hwant, hfull, _, _⟩ := hp
  have hok : (insertOut s packed n).stop = none :=
    pSteps_ok hwant hc halive (pSteps_no_overflow hwant (hfull hl) hc (by rwa [unpackBytes_length]))
  obtain ⟨done, folded⟩ := pSteps_folded askBound s.p.decoder (unpackBytes packed n) hwant
  obtain rfl := folded.whole hok
  have hanswered := (pSteps_ended askBound s.p.decoder (unpackBytes packed n) hwant).1 (.inl hok)
  rw [Push.decoder_cons, hc] at hanswered
  obtain ⟨c', hc', hask⟩ := hanswered.of_askBound
  obtain ⟨hbehaviour, hreceived⟩ := hask.received
  exact ⟨s.p.withDecoder (insertOut s packed n).dec, c', (exec_pInsert_of_live hl hn).trans (endInsert_of_ok hok), hl,
    rfl, folded.inserted.trans (by simp), folded.acc, hc', hbehaviour, hreceived, hask, hlt hok, hwant'.2,
    folded.delivers.conserved⟩

/-! ### Bytes cut into commands (R92, R187) -/

section Appending
variable {σ : Type} {c : σ → Word → Answer σ} {d : Decoder σ} {l : List Byte}

theorem pSteps_append_of_ok (h : (pSteps c d l).stop = none) (l' : List Byte) :
    pSteps c d (l ++ l') =
      { pSteps c (pSteps c d l).dec l' with
        fields := (pSteps c d l).fields ++ (pSteps c (pSteps c d l).dec l').fields,
        widths := (pSteps c d l).widths ++ (pSteps c (pSteps c d l).dec l').widths } := by
  simp only [pSteps_append, h]

theorem pSteps_append_of_stop {stop : Stop} (h : (pSteps c d l).stop = some stop) (l' : List Byte) :
    pSteps c d (l ++ l') = pSteps c d l := by
  simp only [pSteps_append, h]

end Appending

section Chunks
variable {s : State}

theorem exec_insertBytes_of_live (hl : s.p.life = .live) {bytes : List Byte} (h : bytes.length ≤ 8) :
    exec (insertBytes bytes) s = endInsert (pSteps askBound s.p.decoder bytes) s := by
  rw [insertBytes, exec_pInsert_of_live hl h, insertOut, unpackBytes_packBytes bytes h]

theorem execSeq_insertBytes_of_failed (hf : s.p.life = .failed) (chunks : List (List Byte)) :
    ∃ t, execSeq (chunks.map insertBytes) s = .next t ∧ t.p = s.p ∧
      t.host.responses = s.host.responses ++ List.replicate chunks.length (.error s.p.fail) := by
  induction chunks generalizing s with
  | nil => exact ⟨s, rfl, rfl, by simp⟩
  | cons chunk rest ih =>
    obtain ⟨t, hseq, hp, hresp⟩ := ih (s := s.respond (.error s.p.fail)) hf
    exact ⟨t, (execSeq_cons_of_next (exec_pInsert_of_failed hf)).trans hseq, hp,
      by simp [hresp, List.replicate_succ]⟩

/-- How a row of `n` insertions issued in `s` ends where folding its bytes in one by one leaves `o` (R186, R187). -/
structure ChunksEnd (s : State) (n : Nat) (o : StepOut (Option Consumer)) (res : Result) : Prop where
  ok : o.stop = none → ∃ t, res = .next t ∧ t.p = s.p.withDecoder o.dec ∧
    t.host.responses = s.host.responses ++ List.replicate n (.delivered 0#64 0#64)
  fails : ∀ e, FailsWith o e → ∃ (t : State) (k : Nat), k < n ∧ res = .next t ∧
    t.p = { s.p.withDecoder o.dec with life := .failed, fail := e } ∧
    t.host.responses = s.host.responses ++ List.replicate k (.delivered 0#64 0#64) ++
      List.replicate (n - k) (.error e)
  silent : o.stop = some .silent → res = .fault .consumerSilent
  commandIssued : o.stop = some .commandIssued → res = .refused .reentrantCommand
  resetApplied : o.stop = some .resetApplied → res = .refused .resetDuringCommand

/-- A first insertion that completes, and then the rest. -/
theorem ChunksEnd.after_ok {n : Nat} {d : Decoder (Option Consumer)} {o : StepOut (Option Consumer)} {res : Result}
    (h : ChunksEnd ((s.withPush (s.p.withDecoder d)).respond (.delivered 0#64 0#64)) n o res) (fs : List Word)
    (ws : List Nat) : ChunksEnd s (n + 1) { o with fields := fs, widths := ws } res where
  ok hs := by
    obtain ⟨t, hres, hp, hresp⟩ := h.ok hs
    exact ⟨t, hres, hp, by simp [hresp, List.replicate_succ]⟩
  fails e he := by
    obtain ⟨t, k, hk, hres, hp, hresp⟩ := h.fails e he
    exact ⟨t, k + 1, Nat.succ_lt_succ hk, hres, hp, by simp [hresp, List.replicate_succ]⟩
  silent := h.silent
  commandIssued := h.commandIssued
  resetApplied := h.resetApplied

/-- A first insertion that stops ends the row, or fails the session for the rest of it. -/
theorem ChunksEnd.of_stop {o : StepOut (Option Consumer)} {stop : Stop} (hs : o.stop = some stop) {i : Instr}
    (hexec : exec i s = endInsert o s) (rest : List (List Byte)) :
    ChunksEnd s (rest.length + 1) o (execSeq (i :: rest.map insertBytes) s) where
  ok hok := by simp [hs] at hok
  fails e he := by
    rw [endInsert_of_fails he] at hexec
    obtain ⟨t, hseq, hp, hresp⟩ := execSeq_insertBytes_of_failed
      (s := (s.withPush { s.p.withDecoder o.dec with life := .failed, fail := e }).respond (.error e)) rfl rest
    exact ⟨t, 0, Nat.succ_pos _, (execSeq_cons_of_next hexec).trans hseq, hp,
      by simp [hresp, List.replicate_succ]⟩
  silent h := by simp only [execSeq, hexec, endInsert, h]
  commandIssued h := by simp only [execSeq, hexec, endInsert, h]
  resetApplied h := by simp only [execSeq, hexec, endInsert, h]

/-- A row of insertions of up to 8 bytes each does what folding all their bytes in does. -/
theorem execSeq_chunks (hl : s.p.life = .live) {chunks : List (List Byte)} (hlen : ∀ chunk ∈ chunks, chunk.length ≤ 8) :
    ChunksEnd s chunks.length (pSteps askBound s.p.decoder chunks.flatten) (execSeq (chunks.map insertBytes) s) := by
  induction chunks generalizing s with
  | nil => exact ⟨fun _ => ⟨s, rfl, rfl, by simp⟩, fun _ he => by simp [FailsWith] at he, nofun, nofun, nofun⟩
  | cons chunk rest ih =>
    obtain ⟨hchunk, hrest⟩ := List.forall_mem_cons.mp hlen
    have hexec := exec_insertBytes_of_live hl hchunk
    rw [List.flatten_cons, List.map_cons, List.length_cons]
    rcases hs : (pSteps askBound s.p.decoder chunk).stop with _ | stop
    · rw [pSteps_append_of_ok hs, execSeq_cons_of_next (hexec.trans (endInsert_of_ok hs))]
      exact (ih (s := (s.withPush (s.p.withDecoder _)).respond _) hl hrest).after_ok _ _
    · rw [pSteps_append_of_stop hs]
      exact .of_stop hs hexec rest

end Chunks

/-- Settles O43: P.INSERTN is a row of insertions of up to 8 bytes. -/
theorem insertManyIsOneInsertion : Obligations.InsertManyIsOneInsertion := by
  intro s bytes hl
  obtain ⟨chunks, hexp, rfl, hlen, _⟩ := insertManyPseudo_chunks bytes
  have h := execSeq_chunks hl fun chunk hmem => (hlen chunk hmem).2
  dsimp only
  rw [hexp, List.length_map]
  exact ⟨h.ok, h.fails, h.silent, h.commandIssued, h.resetApplied⟩

theorem endInsert_fault {o : StepOut (Option Consumer)} {s : State} {f : Fault} (h : endInsert o s = .fault f) :
    o.stop = some .silent ∧ f = .consumerSilent := by
  unfold endInsert at h
  rcases hs : o.stop with _ | _ | _ | _ | _ | _ <;> simp only [hs] at h <;> cases h
  exact ⟨rfl, rfl⟩

theorem endInsert_refused {o : StepOut (Option Consumer)} {s : State} {f : Refusal} (h : endInsert o s = .refused f) :
    o.stop = some .commandIssued ∧ f = .reentrantCommand ∨
      o.stop = some .resetApplied ∧ f = .resetDuringCommand := by
  unfold endInsert at h
  rcases hs : o.stop with _ | _ | _ | _ | _ | _ <;> simp only [hs] at h <;> cases h
  · exact .inl ⟨rfl, rfl⟩
  · exact .inr ⟨rfl, rfl⟩

/-- An insertion that answers, cut in two: the first part completes and the second answers for the whole, or the first
fails as the whole does and the second reports the code (R187). -/
theorem insertBytes_pair {s t : State} {l l' : List Byte} (hl : s.p.life = .live) (hlen : l.length ≤ 8)
    (hlen' : l'.length ≤ 8) (h : endInsert (pSteps askBound s.p.decoder (l ++ l')) s = .next t) :
    ∃ (t1 t2 : State) (r1 r : Response),
      exec (insertBytes l) s = .next t1 ∧ exec (insertBytes l') t1 = .next t2 ∧ t2.p = t.p ∧
      t.host.responses = s.host.responses ++ [r] ∧ t2.host.responses = s.host.responses ++ [r1, r] ∧
      (r1 = .delivered 0#64 0#64 ∨ r1 = r ∧ t1.p = t.p) := by
  have hfirst := exec_insertBytes_of_live hl hlen
  rcases hs : (pSteps askBound s.p.decoder l).stop with _ | stop
  · rw [endInsert_of_ok hs] at hfirst
    have hsecond := exec_insertBytes_of_live
      (s := (s.withPush (s.p.withDecoder (pSteps askBound s.p.decoder l).dec)).respond (.delivered 0#64 0#64)) hl hlen'
    rw [pSteps_append_of_ok hs] at h
    rcases endInsert_cases h with ⟨hok, rfl⟩ | ⟨e, he, rfl⟩
    · exact ⟨_, _, _, _, hfirst, hsecond.trans (endInsert_of_ok hok), rfl, rfl, by simp, .inl rfl⟩
    · exact ⟨_, _, _, _, hfirst, hsecond.trans (endInsert_of_fails he), rfl, rfl, by simp, .inl rfl⟩
  · rw [pSteps_append_of_stop hs] at h
    rcases endInsert_cases h with ⟨hok, _⟩ | ⟨e, _, rfl⟩
    · simp [hs] at hok
    · exact ⟨_, _, _, _, hfirst.trans h, exec_pInsert_of_failed rfl, rfl, rfl, by simp, .inr ⟨rfl, rfl⟩⟩

/-- Settles O42: by how the first part's decoder stops; a run that never ends, as a row of two insertions. -/
theorem chunkingIndependence : Obligations.ChunkingIndependence := by
  intro s l l' hl hlen
  rw [exec_insertBytes_of_live hl (by rwa [List.length_append])]
  have hpair : ChunksEnd s 2 (pSteps askBound s.p.decoder (l ++ l')) (execSeq [insertBytes l, insertBytes l'] s) := by
    simpa using execSeq_chunks hl (chunks := [l, l']) (by simp; omega)
  refine ⟨fun t => insertBytes_pair hl (by omega) (by omega), fun f h => ?_, fun f h => ?_⟩
  · obtain ⟨hs, rfl⟩ := endInsert_fault h
    exact hpair.silent hs
  · rcases endInsert_refused h with ⟨hs, rfl⟩ | ⟨hs, rfl⟩
    · exact hpair.commandIssued hs
    · exact hpair.resetApplied hs

end Sys2Proof.Machine
end

section
/-! The binary text functions (spec 44_binary_text.md R210 to R217): parsing removes the spaces a rendering puts between
its groups, so that both renderings parse to the bytes they render, and the groups of a rendered value are its bits. -/

namespace Sys2Proof.Machine

/-! ### The characters of a group (R211) -/

/-- R211 over the byte's bits in stream order. -/
theorem byteText_eq_map_byteBits (b : Byte) : byteText b = (byteBits b).map bitChar := by
  rw [byteText, byteBits, List.map_map]
  rfl

@[simp] theorem byteText_length (b : Byte) : (byteText b).length = 8 := by simp [byteText_eq_map_byteBits]

theorem bitChar_eq_one_iff (b : Bool) : bitChar b = '1' ↔ b = true := by cases b <;> decide

theorem isTextDigit_of_mem_byteText {c : Char} {b : Byte} (h : c ∈ byteText b) : isTextDigit c = true := by
  rw [byteText_eq_map_byteBits] at h
  obtain ⟨bit, -, rfl⟩ := List.mem_map.mp h
  cases bit <;> rfl

/-- The alphabet of R210 and the whitespace of R215 share no character. -/
theorem isTextSpace_of_isTextDigit {c : Char} (h : isTextDigit c = true) : isTextSpace c = false := by
  simp only [isTextDigit, Bool.or_eq_true, beq_iff_eq] at h
  obtain (rfl | rfl) | rfl := h <;> rfl

/-! ### What parsing sees of a rendering (R212, R214, R215) -/

/-- Whitespace removed from joined groups leaves the groups, if none of them holds any. -/
theorem filter_joinGroups {groups : List (List Char)}
    (h : ∀ g ∈ groups, g.filter (fun c => !isTextSpace c) = g) :
    (joinGroups groups).filter (fun c => !isTextSpace c) = groups.flatten := by
  induction groups using joinGroups.induct with
  | case1 => rfl
  | case2 g => simpa [joinGroups] using h
  | case3 g g' rest ih =>
    obtain ⟨hg, hrest⟩ := List.forall_mem_cons.mp h
    rw [joinGroups, List.filter_append, List.filter_cons_of_neg (by decide), hg, ih hrest]
    rfl

theorem filter_byteText (b : Byte) : (byteText b).filter (fun c => !isTextSpace c) = byteText b :=
  List.filter_eq_self.mpr fun _ hc => by
    rw [isTextSpace_of_isTextDigit (isTextDigit_of_mem_byteText hc), Bool.not_false]

theorem filter_bytesToText (bytes : List Byte) :
    (bytesToText bytes).filter (fun c => !isTextSpace c) = bytes.flatMap byteText :=
  filter_joinGroups (List.forall_mem_map.mpr fun b _ => filter_byteText b)

/-- The sum of R214 over a group is the value of the byte's bits. -/
theorem foldl_byteText (b : Byte) :
    (byteText b).foldl (fun v c => 2 * v + (if c = '1' then 1 else 0)) 0 = bitsValue (byteBits b) := by
  rw [byteText_eq_map_byteBits, List.foldl_map, bitsValue]
  congr 1
  funext v bit
  simp [bitChar_eq_one_iff, Bool.toNat, Bool.cond_eq_ite]

theorem bitsValue_byteBits (b : Byte) : bitsValue (byteBits b) = b.toNat := by
  rw [← fieldBits_zext64, bitsValue_fieldBits, zext64, BitVec.toNat_setWidth_of_le (by decide),
    Nat.mod_eq_of_lt b.isLt]

/-- A byte's group in front parses to the byte: the eight characters are the ones `parseGroups` matches. -/
theorem parseGroups_byteText_append (b : Byte) (rest : List Char) :
    parseGroups (byteText b ++ rest) = b :: parseGroups rest := by
  change BitVec.ofNat 8 ((byteText b).foldl (fun v c => 2 * v + (if c = '1' then 1 else 0)) 0) :: parseGroups rest = _
  rw [foldl_byteText, bitsValue_byteBits, BitVec.ofNat_toNat, BitVec.setWidth_eq]

theorem parseGroups_flatMap_byteText (bytes : List Byte) : parseGroups (bytes.flatMap byteText) = bytes := by
  induction bytes with
  | nil => rfl
  | cons b rest ih => rw [List.flatMap_cons, parseGroups_byteText_append, ih]

theorem flatMap_byteText_length (bytes : List Byte) : (bytes.flatMap byteText).length = 8 * bytes.length := by
  rw [List.length_flatMap, List.map_congr_left fun b _ => byteText_length b, List.map_const', List.sum_replicate_nat,
    Nat.mul_comm]

theorem all_isTextDigit_flatMap_byteText (bytes : List Byte) : (bytes.flatMap byteText).all isTextDigit = true :=
  List.all_eq_true.mpr fun _ hc =>
    let ⟨_, _, hb⟩ := List.mem_flatMap.mp hc
    isTextDigit_of_mem_byteText hb

/-! ### The round trip (R216) -/

/-- R216, its first half: neither check of R214 fails, and the groups parse to their bytes. -/
theorem parseBinaryString_bytesToText (bytes : List Byte) : parseBinaryString (bytesToText bytes) = .ok bytes := by
  have hdigits := all_isTextDigit_flatMap_byteText bytes
  have hgroups : (bytes.flatMap byteText).length % 8 = 0 := by rw [flatMap_byteText_length, Nat.mul_mod_right]
  simp only [parseBinaryString, filter_bytesToText]
  rw [if_neg (ne_false_of_eq_true hdigits), if_neg (not_not_intro hgroups), parseGroups_flatMap_byteText]

/-- Settles O57: the second half is the first at the byte list the text renders. -/
theorem textRoundTrip : Obligations.TextRoundTrip := by
  refine ⟨parseBinaryString_bytesToText, ?_⟩
  rintro _ bytes ⟨bytes', rfl⟩ hparse
  rw [parseBinaryString_bytesToText] at hparse
  cases hparse
  rfl

/-! ### Rendered values (R213, R217) -/

/-- The bytes a rendered value shows, the most significant first. -/
def valueGroups (value : Word) (groups : Nat) : List Byte := (List.range groups).map (valueGroup value groups)

/-- R213 as R212: the rendering of a value is the rendering of its groups. -/
theorem toBinaryString_eq_bytesToText (value : Word) (minBits : Nat) :
    toBinaryString value minBits = bytesToText (valueGroups value (groupCount value minBits)) := by
  rw [bytesToText, valueGroups, List.map_map]
  rfl

theorem valueGroups_length (value : Word) (groups : Nat) : (valueGroups value groups).length = groups := by
  rw [valueGroups, List.length_map, List.length_range]

/-- One more group stands in front: the others count from the least significant end. -/
theorem valueGroups_succ (value : Word) (groups : Nat) :
    valueGroups value (groups + 1) = value.extractLsb' (8 * groups) 8 :: valueGroups value groups := by
  rw [valueGroups, List.range_succ_eq_map, List.map_cons, List.map_map]
  refine congrArg (_ :: ·) (List.map_congr_left fun i _ => ?_)
  rw [Function.comp, valueGroup, valueGroup, show groups + 1 - 1 - (i + 1) = groups - 1 - i by omega]

theorem byteBits_extractLsb' (value : Word) (k : Nat) :
    byteBits (value.extractLsb' k 8) = fieldBits 8 (value >>> k) := by
  refine List.map_congr_left fun i _ => ?_
  rw [BitVec.getLsbD_extractLsb', BitVec.getLsbD_ushiftRight, decide_eq_true (by omega), Bool.true_and]

/-- The groups hold the value's low bits, eight to a group. -/
theorem bitsOf_valueGroups (value : Word) (groups : Nat) :
    bitsOf (valueGroups value groups) = fieldBits (8 * groups) value := by
  induction groups with
  | zero => rfl
  | succ groups ih =>
    rw [valueGroups_succ, bitsOf_cons, ih, byteBits_extractLsb', ← fieldBits_add, Nat.mul_succ, Nat.add_comm]

/-- The groups of R213 cover every bit that is set (R101). -/
theorem toNat_lt_two_pow_groupCount (value : Word) (minBits : Nat) :
    value.toNat < 2 ^ (8 * groupCount value minBits) := by
  have hcover : countUsed value ≤ 8 * groupCount value minBits := by
    rw [groupCount]
    omega
  have hvalue : value.toNat < 2 ^ countUsed value := by
    rw [countUsed_eq]
    exact Nat.lt_log2_self
  exact Nat.lt_of_lt_of_le hvalue (Nat.pow_le_pow_right (by decide) hcover)

/-- Settles O58: a rendered value is the rendering of its groups, and they hold all its bits. -/
theorem renderedValueParses : Obligations.RenderedValueParses := by
  refine ⟨by decide, by decide, fun value minBits =>
    ⟨valueGroups value (groupCount value minBits), ?parses, valueGroups_length _ _, ?bigEndian⟩⟩
  case parses => rw [toBinaryString_eq_bytesToText, parseBinaryString_bytesToText]
  case bigEndian =>
    rw [bitsOf_valueGroups, bitsValue_fieldBits, Nat.mod_eq_of_lt (toNat_lt_two_pow_groupCount value minBits)]

end Sys2Proof.Machine
end

section
/-! The units are independent (spec 60_exceptions.md R247). A command of one unit commutes with laying that unit's part
of the state over any other state: it reads nothing of the rest, and leaves the rest as it is. Both halves of R247 are
read off from this one equation, the frame by laying the part over the state it came from. -/

namespace Sys2Proof.Machine

/-! ### A unit's part of the state, laid over another state -/

/-- The state `o` with what a Reader command may touch as in `s`: the Reader, the source input, the sources released
and the responses. -/
def State.withReaderPartOf (o s : State) : State :=
  { o with r := s.r, env := { o.env with src := s.env.src },
           host := { o.host with responses := s.host.responses, sources := s.host.sources } }

/-- The state `o` with what a Writer command may touch as in `s`: the Writer, the sinks handed to the host and
the responses. -/
def State.withWriterPartOf (o s : State) : State :=
  { o with w := s.w, host := { o.host with responses := s.host.responses, sinks := s.host.sinks } }

/-- The state `o` with what a push reader command may touch as in `s`: the push reader, the consumer input, the
consumers released and the responses. -/
def State.withPushPartOf (o s : State) : State :=
  { o with p := s.p, env := { o.env with cons := s.env.cons },
           host := { o.host with responses := s.host.responses, consumers := s.host.consumers } }

section Parts
variable (o s : State)

@[simp] theorem State.withReaderPartOf_r : (o.withReaderPartOf s).r = s.r := rfl
@[simp] theorem State.withReaderPartOf_env_src : (o.withReaderPartOf s).env.src = s.env.src := rfl
@[simp] theorem State.withWriterPartOf_w : (o.withWriterPartOf s).w = s.w := rfl
@[simp] theorem State.withPushPartOf_p : (o.withPushPartOf s).p = s.p := rfl
@[simp] theorem State.withPushPartOf_env_cons : (o.withPushPartOf s).env.cons = s.env.cons := rfl

/-! ### Releasing and binding (R127, R158, R182) -/

theorem releaseSource_withReaderPartOf :
    releaseSource (o.withReaderPartOf s) = o.withReaderPartOf (releaseSource s) := by
  simp only [releaseSource, State.withReaderPartOf_r, State.withReaderPartOf_env_src]
  split
  · rfl
  · split <;> rfl

theorem closeReader_withReaderPartOf : closeReader (o.withReaderPartOf s) = o.withReaderPartOf (closeReader s) := by
  rw [closeReader, releaseSource_withReaderPartOf]
  rfl

theorem releaseSink_withWriterPartOf :
    releaseSink (o.withWriterPartOf s) = o.withWriterPartOf (releaseSink s) := by
  simp only [releaseSink, State.withWriterPartOf_w]
  split <;> rfl

theorem closeWriter_withWriterPartOf : closeWriter (o.withWriterPartOf s) = o.withWriterPartOf (closeWriter s) :=
  congrArg (fun t : State => t.withWriter { t.w with life := .closed })
    (releaseSink_withWriterPartOf o (s.withWriter (flushPartial s.w)))

theorem releaseConsumer_withPushPartOf :
    releaseConsumer (o.withPushPartOf s) = o.withPushPartOf (releaseConsumer s) := by
  simp only [releaseConsumer, State.withPushPartOf_p, State.withPushPartOf_env_cons]
  split
  · rfl
  · split <;> rfl

theorem bindConsumer_withPushPartOf (c : Consumer) :
    bindConsumer c (o.withPushPartOf s) = o.withPushPartOf (bindConsumer c s) := by
  simp only [bindConsumer, State.withPushPartOf_env_cons, releaseConsumer_withPushPartOf]
  split <;> rfl

end Parts

/-! ### The commands -/

/-- The answer with its next state changed by `f`; a stop stays the stop it is. -/
def mapNext (f : State → State) : Result → Result
  | .next t => .next (f t)
  | .fault e => .fault e
  | .refused e => .refused e

section Commands
variable {i : Instr}

theorem mapNext_of_next {f : State → State} {s t : State} (h : exec i s = .next t)
    (hf : exec i (f s) = .next (f t)) : exec i (f s) = mapNext f (exec i s) := by
  rw [h, hf, mapNext]

theorem next_of_mapNext {f : State → State} {s t : State} (hf : exec i (f s) = mapNext f (exec i s))
    (h : exec i s = .next t) : exec i (f s) = .next (f t) := by
  rw [hf, h, mapNext]

variable (o s : State)

theorem exec_read_withReaderPartOf {n : Nat} (hi : i = .rRead n ∨ i = .rTryRead n) :
    exec i (o.withReaderPartOf s) = mapNext o.withReaderPartOf (exec i s) := by
  rcases eq_or_ne s.r.life .opened with ho | hc
  · rcases Nat.lt_or_ge 64 n with hn | hn
    · exact mapNext_of_next (exec_read_of_lt ho hn hi) (exec_read_of_lt ho hn hi)
    · rcases hf : (readCore n s.r).field with _ | v
      · rcases hi with rfl | rfl
        · exact mapNext_of_next (exec_rRead_of_end ho hn hf) (exec_rRead_of_end ho hn hf)
        · exact mapNext_of_next (exec_rTryRead_of_end ho hn hf) (exec_rTryRead_of_end ho hn hf)
      · exact mapNext_of_next (exec_read_of_field ho hn hf hi) (exec_read_of_field ho hn hf hi)
  · have hi' : i = .rRead n ∨ i = .rTryRead n ∨ i = .rPeek ∨ i = .rTryPeek := hi.imp_right .inl
    exact mapNext_of_next (exec_reading_of_not_opened hc hi') (exec_reading_of_not_opened hc hi')

theorem exec_peek_withReaderPartOf (hi : i = .rPeek ∨ i = .rTryPeek) :
    exec i (o.withReaderPartOf s) = mapNext o.withReaderPartOf (exec i s) := by
  rcases eq_or_ne s.r.life .opened with ho | hc
  · rcases hl : loadByte s.r with _ | r'
    · rcases hi with rfl | rfl
      · exact mapNext_of_next (exec_rPeek_of_end ho hl) (exec_rPeek_of_end ho hl)
      · exact mapNext_of_next (exec_rTryPeek_of_end ho hl) (exec_rTryPeek_of_end ho hl)
    · exact mapNext_of_next (exec_peek_of_loaded ho hl hi) (exec_peek_of_loaded ho hl hi)
  · have hi' : i = .rRead 0 ∨ i = .rTryRead 0 ∨ i = .rPeek ∨ i = .rTryPeek := .inr (.inr hi)
    exact mapNext_of_next (exec_reading_of_not_opened hc hi') (exec_reading_of_not_opened hc hi')

/-- A Reader command does in `o` what it does in `s`, where `o` has the Reader's part of `s`. -/
theorem exec_withReaderPartOf (hi : i.unit = 1) :
    exec i (o.withReaderPartOf s) = mapNext o.withReaderPartOf (exec i s) := by
  cases i with
  | rOpen =>
    rcases eq_or_ne s.r.life .opened with ho | hc
    · exact mapNext_of_next (exec_rOpen_of_opened ho) (exec_rOpen_of_opened ho)
    · rcases hb : s.env.src.offered s.r.src with _ | src
      · exact mapNext_of_next (exec_rOpen_of_not_offered hb) (exec_rOpen_of_not_offered hb)
      · exact mapNext_of_next (exec_rOpen_of_offered hc hb) (exec_rOpen_of_offered hc hb)
  | rRead n => exact exec_read_withReaderPartOf o s (.inl rfl)
  | rTryRead n => exact exec_read_withReaderPartOf o s (.inr rfl)
  | rPeek => exact exec_peek_withReaderPartOf o s (.inl rfl)
  | rTryPeek => exact exec_peek_withReaderPartOf o s (.inr rfl)
  | rClose =>
    rcases eq_or_ne s.r.life .opened with ho | hc
    · have hclose := exec_rClose_of_opened (s := o.withReaderPartOf s) ho
      rw [closeReader_withReaderPartOf] at hclose
      exact mapNext_of_next (exec_rClose_of_opened ho) hclose
    · exact mapNext_of_next (exec_rClose_of_not_opened hc) (exec_rClose_of_not_opened hc)
  | bbCountUsed | bbPush | bbPop | wOpen | wWrite | wWriteOff | wClose | pInit | pInsert | pFlushByte =>
    simp [Instr.unit, Instr.opcode] at hi

theorem exec_wClose_closeWriter {s : State} (ho : s.w.life = .opened) :
    exec .wClose s = .next ((closeWriter s).respond (.delivered 0#64 0#64)) := if_pos ho

theorem exec_wWriteOff_withWriterPartOf (value : Word) (n off : Nat) :
    exec (.wWriteOff value n off) (o.withWriterPartOf s) =
      mapNext o.withWriterPartOf (exec (.wWriteOff value n off) s) := by
  rcases eq_or_ne s.w.life .opened with ho | hc
  · by_cases hr : 64 < n ∨ 64 ≤ off
    · exact mapNext_of_next (exec_wWriteOff_of_out_of_range ho hr) (exec_wWriteOff_of_out_of_range ho hr)
    · obtain ⟨hn, hoff⟩ := not_or.mp hr
      have hn := Nat.le_of_not_lt hn
      have hoff := Nat.lt_of_not_le hoff
      exact mapNext_of_next (exec_wWriteOff_of_legal ho hn hoff) (exec_wWriteOff_of_legal ho hn hoff)
  · exact mapNext_of_next (exec_wWriteOff_of_not_opened hc) (exec_wWriteOff_of_not_opened hc)

/-- A Writer command does in `o` what it does in `s`, where `o` has the Writer's part of `s` and the same sink input,
which W.OPEN reads. -/
theorem exec_withWriterPartOf (hi : i.unit = 2) (hsink : o.env.sink = s.env.sink) :
    exec i (o.withWriterPartOf s) = mapNext o.withWriterPartOf (exec i s) := by
  cases i with
  | wOpen =>
    rcases eq_or_ne s.w.life .opened with ho | hc
    · exact mapNext_of_next (exec_wOpen_of_opened ho) (exec_wOpen_of_opened ho)
    · rcases hs : s.env.sink with _ | _
      · exact mapNext_of_next (exec_wOpen_of_detached hs) (exec_wOpen_of_detached (hsink.trans hs))
      · exact mapNext_of_next (exec_wOpen_of_attached hc hs) (exec_wOpen_of_attached hc (hsink.trans hs))
  | wWrite value n =>
    rw [exec_wWrite, exec_wWrite]
    exact exec_wWriteOff_withWriterPartOf o s value n 0
  | wWriteOff value n off => exact exec_wWriteOff_withWriterPartOf o s value n off
  | wClose =>
    rcases eq_or_ne s.w.life .opened with ho | hc
    · have hclose := exec_wClose_closeWriter (s := o.withWriterPartOf s) ho
      rw [closeWriter_withWriterPartOf] at hclose
      exact mapNext_of_next (exec_wClose_closeWriter ho) hclose
    · exact mapNext_of_next (exec_wClose_of_not_opened hc) (exec_wClose_of_not_opened hc)
  | bbCountUsed | bbPush | bbPop | rOpen | rRead | rTryRead | rPeek | rTryPeek | rClose | pInit | pInsert
  | pFlushByte => simp [Instr.unit, Instr.opcode] at hi

/-- P.INIT: the consumer offered and its seed answer decide, and both are of the push reader's part. -/
theorem execPInit_withPushPartOf :
    execPInit (o.withPushPartOf s) = mapNext o.withPushPartOf (execPInit s) := by
  simp only [execPInit, State.withPushPartOf_p, State.withPushPartOf_env_cons, bindConsumer_withPushPartOf]
  rcases s.env.cons.offered s.p.cons with _ | c
  · rfl
  · dsimp only
    rcases c.ask 0#64 with ⟨c', w⟩ | _ | _ | _
    · dsimp only
      rcases validWidth w with _ | _ <;> rfl
    · rfl
    · rfl
    · rfl

theorem endInsert_withPushPartOf (out : StepOut (Option Consumer)) :
    endInsert out (o.withPushPartOf s) = mapNext o.withPushPartOf (endInsert out s) := by
  obtain ⟨dec, fields, widths, stop⟩ := out
  rcases stop with _ | _ | _ | _ | _ | _ <;> rfl

/-- A push reader command does in `o` what it does in `s`, where `o` has the push reader's part of `s`. -/
theorem exec_withPushPartOf (hi : i.unit = 3) :
    exec i (o.withPushPartOf s) = mapNext o.withPushPartOf (exec i s) := by
  cases i with
  | pInit => exact execPInit_withPushPartOf o s
  | pInsert packed n =>
    rcases hl : s.p.life with _ | _ | _
    · exact mapNext_of_next (exec_pInsert_of_idle hl) (exec_pInsert_of_idle hl)
    · rcases Nat.lt_or_ge 8 n with hn | hn
      · exact mapNext_of_next (exec_pInsert_of_too_many hl hn) (exec_pInsert_of_too_many hl hn)
      · rw [exec_pInsert_of_live hl hn, exec_pInsert_of_live (s := o.withPushPartOf s) hl hn]
        exact endInsert_withPushPartOf o s (insertOut s packed n)
    · exact mapNext_of_next (exec_pInsert_of_failed hl) (exec_pInsert_of_failed hl)
  | pFlushByte =>
    rcases hl : s.p.life with _ | _ | _
    · exact mapNext_of_next (exec_pFlushByte_of_idle hl) (exec_pFlushByte_of_idle hl)
    · exact mapNext_of_next (exec_pFlushByte_of_live hl) (exec_pFlushByte_of_live hl)
    · exact mapNext_of_next (exec_pFlushByte_of_failed hl) (exec_pFlushByte_of_failed hl)
  | bbCountUsed | bbPush | bbPop | rOpen | rRead | rTryRead | rPeek | rTryPeek | rClose | wOpen | wWrite | wWriteOff
  | wClose => simp [Instr.unit, Instr.opcode] at hi

end Commands

/-! ### Frames: the state after is the state before but for the unit's part -/

section Frames
variable {i : Instr} {s t : State}

theorem eq_withReaderPartOf_of_next (hi : i.unit = 1) (h : exec i s = .next t) : t = s.withReaderPartOf t :=
  Host.Outcome.next.inj (h.symm.trans (next_of_mapNext (exec_withReaderPartOf s s hi) h))

theorem eq_withWriterPartOf_of_next (hi : i.unit = 2) (h : exec i s = .next t) : t = s.withWriterPartOf t :=
  Host.Outcome.next.inj (h.symm.trans (next_of_mapNext (exec_withWriterPartOf s s hi rfl) h))

theorem eq_withPushPartOf_of_next (hi : i.unit = 3) (h : exec i s = .next t) : t = s.withPushPartOf t :=
  Host.Outcome.next.inj (h.symm.trans (next_of_mapNext (exec_withPushPartOf s s hi) h))

end Frames

/-- Settles O52: the state after is the state before with one unit's part of it changed, and the command does the same
with that part in any other state, the one with other registers in the other units among them. -/
theorem unitsAreIndependent : Obligations.UnitsAreIndependent := by
  intro i s t r w p h
  refine ⟨fun hi => ?reader, fun hi => ?writer, fun hi => ?push⟩
  case reader =>
    have hother := next_of_mapNext (exec_withReaderPartOf ((s.withWriter w).withPush p) s hi) h
    rw [eq_withReaderPartOf_of_next hi h]
    exact ⟨rfl, rfl, rfl, rfl, rfl, rfl, rfl, hother⟩
  case writer =>
    have hother := next_of_mapNext (exec_withWriterPartOf ((s.withReader r).withPush p) s hi rfl) h
    rw [eq_withWriterPartOf_of_next hi h]
    exact ⟨rfl, rfl, rfl, rfl, rfl, rfl, hother⟩
  case push =>
    have hother := next_of_mapNext (exec_withPushPartOf ((s.withReader r).withWriter w) s hi) h
    rw [eq_withPushPartOf_of_next hi h]
    exact ⟨rfl, rfl, rfl, rfl, rfl, rfl, rfl, hother⟩

end Sys2Proof.Machine
end

section
/-! Reset between commands (spec 70_reset_and_hazards.md R260, R261): what each release hands back, and to whom (log
entries 2, 4 and 18), and that reset does nothing else beside setting the units to their reset values. -/

namespace Sys2Proof.Machine

/-! ### What a release does, by what is bound and whether it is still the attached one -/

section Release
variable {s : State}

theorem releaseSource_of_unbound (h : s.r.src = none) : releaseSource s = s := by
  simp only [releaseSource, h]

/-- Closing the Reader is releasing its source: the two differ in the Reader's lifecycle alone (R127). -/
theorem releaseSource_outside :
    (releaseSource s).env = (closeReader s).env ∧ (releaseSource s).host = (closeReader s).host := by
  simp [closeReader]

theorem releaseConsumer_of_unbound (h : s.p.cons = none) : releaseConsumer s = s := by
  simp only [releaseConsumer, h]

theorem releaseConsumer_of_lent {c : Consumer} (h : s.p.cons = some c) (he : s.env.cons = .lent) :
    releaseConsumer s = (s.withPush { s.p with cons := none }).withConsPort (.attached c) := by
  simp only [releaseConsumer, h, he]

theorem releaseConsumer_of_not_lent {c : Consumer} (h : s.p.cons = some c) (he : s.env.cons ≠ .lent) :
    releaseConsumer s = (s.withPush { s.p with cons := none }).giveConsumer c := by
  simp only [releaseConsumer, h]
  split
  case h_1 hl => exact absurd hl he
  case h_2 => rfl
  case h_3 => rfl

end Release

/-! ### Who holds the agent after a release -/

/-- From `s` to `t` the Reader's source is handed back: it stays the attached one where it was, else it goes to the
host's list, and where none is bound nothing moves (log entries 2 and 18). -/
def SourceHandedBack (s t : State) : Prop :=
  (s.r.src = none → t.env.src = s.env.src ∧ t.host.sources = s.host.sources) ∧
  (∀ src, s.r.src = some src → s.env.src = .lent → t.env.src = .attached src ∧ t.host.sources = s.host.sources) ∧
  (∀ src, s.r.src = some src → s.env.src ≠ .lent →
    t.env.src = s.env.src ∧ t.host.sources = s.host.sources ++ [src])

/-- The same of the push reader's consumer. -/
def ConsumerHandedBack (s t : State) : Prop :=
  (s.p.cons = none → t.env.cons = s.env.cons ∧ t.host.consumers = s.host.consumers) ∧
  (∀ c, s.p.cons = some c → s.env.cons = .lent →
    t.env.cons = .attached c ∧ t.host.consumers = s.host.consumers) ∧
  (∀ c, s.p.cons = some c → s.env.cons ≠ .lent →
    t.env.cons = s.env.cons ∧ t.host.consumers = s.host.consumers ++ [c])

theorem releaseSource_handsBack (s : State) : SourceHandedBack s (releaseSource s) := by
  obtain ⟨henv, hhost⟩ := releaseSource_outside (s := s)
  refine ⟨fun h => ?unbound, fun src h he => ?lent, fun src h he => ?notLent⟩
  case unbound => simp [releaseSource_of_unbound h]
  case lent => simp [henv, hhost, closeReader_of_lent h he]
  case notLent => simp [henv, hhost, closeReader_of_not_lent h he]

theorem releaseConsumer_handsBack (s : State) : ConsumerHandedBack s (releaseConsumer s) := by
  refine ⟨fun h => ?unbound, fun c h he => ?lent, fun c h he => ?notLent⟩
  case unbound => simp [releaseConsumer_of_unbound h]
  case lent => simp [releaseConsumer_of_lent h he]
  case notLent => simp [releaseConsumer_of_not_lent h he]

/-! ### Reset -/

section Reset
variable (s : State)

/-- Setting the units to their reset values touches neither the inputs nor the host's side. -/
theorem resetBlock_outside :
    (resetBlock s).env = (releaseConsumer (releaseSink (releaseSource s))).env ∧
      (resetBlock s).host = (releaseConsumer (releaseSink (releaseSource s))).host := by
  simp [resetBlock]

theorem resetBlock_responses_and_inbox :
    (resetBlock s).host.responses = s.host.responses ∧ (resetBlock s).host.inbox = s.host.inbox := by
  obtain ⟨_, _, _, _, _, hinbox, hresp, _⟩ := releaseSource_spec s
  obtain ⟨_, _, _, _, hinbox', hresp', _⟩ := releaseSink_spec (releaseSource s)
  obtain ⟨_, _, _, _, _, hinbox'', hresp'', _⟩ := releaseConsumer_spec (releaseSink (releaseSource s))
  obtain ⟨_, hhost⟩ := resetBlock_outside s
  simp [hhost, hinbox, hinbox', hinbox'', hresp, hresp', hresp'']

/-- The sink reaches the host with the bytes emitted and no more: the partial byte is lost. -/
theorem resetBlock_sink :
    (resetBlock s).host.sinks = s.host.sinks ++ s.w.sink.toList ∧ (resetBlock s).env.sink = s.env.sink := by
  obtain ⟨_, hw, _, hport, _, _, _, hsinks, _⟩ := releaseSource_spec s
  obtain ⟨_, _, _, henv', _, _, _, _, hsinks'⟩ := releaseSink_spec (releaseSource s)
  obtain ⟨_, _, _, hport'', _, _, _, hsinks'', _⟩ := releaseConsumer_spec (releaseSink (releaseSource s))
  obtain ⟨henv, hhost⟩ := resetBlock_outside s
  simp [henv, hhost, hw, hport, henv', hport'', hsinks, hsinks', hsinks'']

/-- Nothing after the release of the source touches it or its input. -/
theorem resetBlock_handsBackSource : SourceHandedBack s (resetBlock s) := by
  obtain ⟨_, _, _, henv', _, _, hsources', _⟩ := releaseSink_spec (releaseSource s)
  obtain ⟨_, _, _, _, hport'', _, _, _, hsources''⟩ := releaseConsumer_spec (releaseSink (releaseSource s))
  obtain ⟨henv, hhost⟩ := resetBlock_outside s
  have hport : (resetBlock s).env.src = (releaseSource s).env.src := by rw [henv, hport'', henv']
  have hsources : (resetBlock s).host.sources = (releaseSource s).host.sources := by
    rw [hhost, hsources'', hsources']
  simpa only [SourceHandedBack, hport, hsources] using releaseSource_handsBack s

/-- The releases before the consumer's leave it, its input and the host's list as they are. -/
theorem resetBlock_handsBackConsumer : ConsumerHandedBack s (resetBlock s) := by
  obtain ⟨_, _, hp, _, hport, _, _, _, hconsumers⟩ := releaseSource_spec s
  obtain ⟨_, _, hp', henv', _, _, _, hconsumers', _⟩ := releaseSink_spec (releaseSource s)
  obtain ⟨henv, hhost⟩ := resetBlock_outside s
  simpa only [ConsumerHandedBack, henv, hhost, hp, hp', hport, henv', hconsumers, hconsumers'] using
    releaseConsumer_handsBack (releaseSink (releaseSource s))

end Reset

/-- Settles O48: the units take their reset values, and of the inputs and the host's side only what the three
releases hand back moves. -/
theorem resetIsNotClose : Obligations.ResetIsNotClose := by
  intro s
  obtain ⟨hr, hw, hp⟩ := resetBlock_units s
  obtain ⟨hresp, hinbox⟩ := resetBlock_responses_and_inbox s
  obtain ⟨hsinks, hport⟩ := resetBlock_sink s
  obtain ⟨hsrcUnbound, hsrcLent, hsrcNotLent⟩ := resetBlock_handsBackSource s
  obtain ⟨hconsUnbound, hconsLent, hconsNotLent⟩ := resetBlock_handsBackConsumer s
  exact ⟨resetBlock s, rfl, hr, hw, hp, hresp, hinbox, hsinks, hport, hsrcUnbound, hconsUnbound, hsrcLent,
    hsrcNotLent, hconsLent, hconsNotLent⟩

end Sys2Proof.Machine
end
